-- ==== Sys2Proof/Word.lean ====
section
/-! DEFINITION. The word type of the unit: every register is 64 bits on the bus (10_state.md R22, 00_scope.md R7).
Bit `i` of a word has weight `2^i` (R9, R53); `toNat` reads a `u64`, `toInt` an `i64` (R10). -/

namespace Sys2Proof

/-- A register value as it travels on the 64-bit register bus (R51). -/
abbrev Word := BitVec 64

/-- One byte of a codeword on the wire (R52) or of a register in a byte-addressed platform (R51). -/
abbrev Byte := BitVec 8

/-- One 32-bit codeword (R6, R190), and the word of the 32-bit BitField commands (R111). -/
abbrev Word32 := BitVec 32

end Sys2Proof
end

