-- ==== Sys2Proof/Syntax.lean ====
section
/-! DEFINITION. The commands of the unit, one constructor per row of spec/opcode_table.json (30_encoding.md R74), and
the parts of the table that are about the command as a name: its mnemonic and its field class. -/

namespace Sys2Proof

/-- One command. `width` and `lsb` are the immediates of R76 before they are encoded; the encoding holds 0..255 of
each (`Instr.WellFormed`). Every other operand is a register the command names by itself (R71). -/
inductive Instr where
  /-- `fits_unsigned` (R105). -/
  | fitsu (width : Nat)
  /-- `fits_signed` (R106). -/
  | fitss (width : Nat)
  /-- `get_unsigned` (R107). -/
  | getu (width lsb : Nat)
  /-- `get_signed` (R108). -/
  | gets (width lsb : Nat)
  /-- `set_unsigned` (R109). -/
  | setu (width lsb : Nat)
  /-- `set_signed` (R110). -/
  | sets (width lsb : Nat)
  /-- 32-bit `get_unsigned` (R112). -/
  | getu32 (width lsb : Nat)
  /-- 32-bit `get_signed` (R113). -/
  | gets32 (width lsb : Nat)
  /-- 32-bit `set_unsigned` (R114). -/
  | setu32 (width lsb : Nat)
  /-- 32-bit `set_signed` (R115). -/
  | sets32 (width lsb : Nat)
  /-- `rgb_to_cv` on four lanes (R131). -/
  | rgb2cv
  /-- `cv_to_rgb` on four lanes (R133). -/
  | cv2rgb
  /-- forward block transform (R152). -/
  | fwdxf
  /-- inverse block transform (R154). -/
  | invxf
  /-- quantize one block (R180). -/
  | quant
  /-- dequantize one block (R181). -/
  | dequant
  /-- pack one codeword (R191). -/
  | pack
  /-- unpack one codeword (R192). -/
  | unpack
deriving DecidableEq, Repr

/-- The field use classes of R72. -/
inductive FieldClass where
  /-- uses WIDTH and LSB -/
  | wl
  /-- uses WIDTH; LSB must be 0 -/
  | w
  /-- uses neither; both must be 0 -/
  | n
deriving DecidableEq, Repr

/-- The mnemonic column of R74. -/
def Instr.mnemonic : Instr → String
  | .fitsu _ => "FITSU"
  | .fitss _ => "FITSS"
  | .getu _ _ => "GETU"
  | .gets _ _ => "GETS"
  | .setu _ _ => "SETU"
  | .sets _ _ => "SETS"
  | .getu32 _ _ => "GETU32"
  | .gets32 _ _ => "GETS32"
  | .setu32 _ _ => "SETU32"
  | .sets32 _ _ => "SETS32"
  | .rgb2cv => "RGB2CV"
  | .cv2rgb => "CV2RGB"
  | .fwdxf => "FWDXF"
  | .invxf => "INVXF"
  | .quant => "QUANT"
  | .dequant => "DEQUANT"
  | .pack => "PACK"
  | .unpack => "UNPACK"

/-- The class column of R74. -/
def Instr.fieldClass : Instr → FieldClass
  | .fitsu _ | .fitss _ => .w
  | .getu _ _ | .gets _ _ | .setu _ _ | .sets _ _ => .wl
  | .getu32 _ _ | .gets32 _ _ | .setu32 _ _ | .sets32 _ _ => .wl
  | .rgb2cv | .cv2rgb | .fwdxf | .invxf | .quant | .dequant | .pack | .unpack => .n

/-- The WIDTH immediate a command is written with, 0 where its class has none (R72). -/
def Instr.width : Instr → Nat
  | .fitsu w | .fitss w => w
  | .getu w _ | .gets w _ | .setu w _ | .sets w _ => w
  | .getu32 w _ | .gets32 w _ | .setu32 w _ | .sets32 w _ => w
  | .rgb2cv | .cv2rgb | .fwdxf | .invxf | .quant | .dequant | .pack | .unpack => 0

/-- The LSB immediate a command is written with, 0 where its class has none (R72). -/
def Instr.lsb : Instr → Nat
  | .fitsu _ | .fitss _ => 0
  | .getu _ l | .gets _ l | .setu _ l | .sets _ l => l
  | .getu32 _ l | .gets32 _ l | .setu32 _ l | .sets32 _ l => l
  | .rgb2cv | .cv2rgb | .fwdxf | .invxf | .quant | .dequant | .pack | .unpack => 0

end Sys2Proof
end

