-- ==== Sys2Proof/WellFormed.lean ====
section
/-! DEFINITION. Which commands the 64-bit format can hold: "an immediate above 255 is rejected by the assembler"
(30_encoding.md R76). A width or position the command's own rule forbids is still well formed: it decodes to its
command, which then faults (R71). -/

namespace Sys2Proof

/-- WIDTH fits its 8-bit field (R70). -/
def Instr.widthOk (i : Instr) : Bool := decide (i.width ≤ 255)

/-- LSB fits its 8-bit field (R70). -/
def Instr.lsbOk (i : Instr) : Bool := decide (i.lsb ≤ 255)

/-- Both immediates fit their fields. -/
def Instr.wf (i : Instr) : Bool := i.widthOk && i.lsbOk

/-- `i` has an encoding that holds every one of its immediates. -/
abbrev Instr.WellFormed (i : Instr) : Prop := i.wf = true

end Sys2Proof
end

