-- ==== Sys2Proof/Decode.lean ====
section
/-! DEFINITION. Decoding and encoding of command words (30_encoding.md R70 to R76): `decode` is R73, total on every
64-bit word and rejecting by name; `encode` is R70; `opcodeTable` is the match/mask column of R74; `assemble` is R76. -/

namespace Sys2Proof

/-- Why a word selects no command (R73, R75). The unit reports every one of them as ILLEGAL_CMD. -/
inductive Reject where
  /-- a bit of 63:24 is set -/
  | reservedBits
  /-- the OP byte is no row of R74 -/
  | unlistedOp (op : Nat)
  /-- a WIDTH or LSB field the command's class does not use is nonzero (R72) -/
  | unusedField (op : Nat)
deriving DecidableEq, Repr

/-- The OP field, bits 7:0 (R70). -/
def opField (v : Word) : Nat := (v.extractLsb' 0 8).toNat

/-- The WIDTH field, bits 15:8, zero-extended (R70, R71). -/
def widthField (v : Word) : Nat := (v.extractLsb' 8 8).toNat

/-- The LSB field, bits 23:16, zero-extended (R70, R71). -/
def lsbField (v : Word) : Nat := (v.extractLsb' 16 8).toNat

/-- The RSV field, bits 63:24 (R70). -/
def reservedField (v : Word) : Nat := (v.extractLsb' 24 40).toNat

/-- The command a row of R74 selects, with the word's WIDTH and LSB before the class check. -/
def commandOf (op width lsb : Nat) : Option Instr :=
  match op with
  | 0x01 => some (.fitsu width)
  | 0x02 => some (.fitss width)
  | 0x03 => some (.getu width lsb)
  | 0x04 => some (.gets width lsb)
  | 0x05 => some (.setu width lsb)
  | 0x06 => some (.sets width lsb)
  | 0x13 => some (.getu32 width lsb)
  | 0x14 => some (.gets32 width lsb)
  | 0x15 => some (.setu32 width lsb)
  | 0x16 => some (.sets32 width lsb)
  | 0x20 => some .rgb2cv
  | 0x21 => some .cv2rgb
  | 0x30 => some .fwdxf
  | 0x31 => some .invxf
  | 0x40 => some .quant
  | 0x41 => some .dequant
  | 0x50 => some .pack
  | 0x51 => some .unpack
  | _ => none

/-- The fields a class leaves unused are zero (R72, R73). -/
def unusedFieldsZero (c : FieldClass) (width lsb : Nat) : Bool :=
  match c with
  | .wl => true
  | .w => lsb == 0
  | .n => width == 0 && lsb == 0

/-- R73, in the order of its checks. -/
def decode (v : Word) : Except Reject Instr :=
  if reservedField v ≠ 0 then .error .reservedBits
  else match commandOf (opField v) (widthField v) (lsbField v) with
    | none => .error (.unlistedOp (opField v))
    | some i =>
      if unusedFieldsZero i.fieldClass (widthField v) (lsbField v) then .ok i
      else .error (.unusedField (opField v))

/-- The OP column of R74. -/
def Instr.opcode : Instr → BitVec 8
  | .fitsu _ => 0x01#8
  | .fitss _ => 0x02#8
  | .getu _ _ => 0x03#8
  | .gets _ _ => 0x04#8
  | .setu _ _ => 0x05#8
  | .sets _ _ => 0x06#8
  | .getu32 _ _ => 0x13#8
  | .gets32 _ _ => 0x14#8
  | .setu32 _ _ => 0x15#8
  | .sets32 _ _ => 0x16#8
  | .rgb2cv => 0x20#8
  | .cv2rgb => 0x21#8
  | .fwdxf => 0x30#8
  | .invxf => 0x31#8
  | .quant => 0x40#8
  | .dequant => 0x41#8
  | .pack => 0x50#8
  | .unpack => 0x51#8

/-- R70: a command word is `zext_64(LSB ++ WIDTH ++ OP)`. -/
def encode (i : Instr) : Word :=
  (BitVec.ofNat 8 i.lsb ++ BitVec.ofNat 8 i.width ++ i.opcode).setWidth 64

/-- One row of R74: the word `v` selects it iff `v & mask = match`. -/
structure OpcodeRow where
  mnemonic : String
  matchBits : Word
  maskBits : Word
deriving DecidableEq, Repr

/-- The mask of a class-W, class-WL and class-N row (R74). -/
def maskW : Word := 0xFFFFFFFFFFFF00FF#64
def maskWL : Word := 0xFFFFFFFFFF0000FF#64
def maskN : Word := 0xFFFFFFFFFFFFFFFF#64

/-- The opcode map of R74, row by row. -/
def opcodeTable : List OpcodeRow :=
  [⟨"FITSU", 0x01#64, maskW⟩, ⟨"FITSS", 0x02#64, maskW⟩,
   ⟨"GETU", 0x03#64, maskWL⟩, ⟨"GETS", 0x04#64, maskWL⟩,
   ⟨"SETU", 0x05#64, maskWL⟩, ⟨"SETS", 0x06#64, maskWL⟩] ++
  [⟨"GETU32", 0x13#64, maskWL⟩, ⟨"GETS32", 0x14#64, maskWL⟩,
   ⟨"SETU32", 0x15#64, maskWL⟩, ⟨"SETS32", 0x16#64, maskWL⟩] ++
  [⟨"RGB2CV", 0x20#64, maskN⟩, ⟨"CV2RGB", 0x21#64, maskN⟩,
   ⟨"FWDXF", 0x30#64, maskN⟩, ⟨"INVXF", 0x31#64, maskN⟩] ++
  [⟨"QUANT", 0x40#64, maskN⟩, ⟨"DEQUANT", 0x41#64, maskN⟩,
   ⟨"PACK", 0x50#64, maskN⟩, ⟨"UNPACK", 0x51#64, maskN⟩]

/-- The command a mnemonic names, with the number of immediates its class takes (R76). -/
def commandNamed (mnemonic : String) (imms : List Nat) : Option Instr :=
  match mnemonic, imms with
  | "FITSU", [w] => some (.fitsu w)
  | "FITSS", [w] => some (.fitss w)
  | "GETU", [w, l] => some (.getu w l)
  | "GETS", [w, l] => some (.gets w l)
  | "SETU", [w, l] => some (.setu w l)
  | "SETS", [w, l] => some (.sets w l)
  | "GETU32", [w, l] => some (.getu32 w l)
  | "GETS32", [w, l] => some (.gets32 w l)
  | "SETU32", [w, l] => some (.setu32 w l)
  | "SETS32", [w, l] => some (.sets32 w l)
  | "RGB2CV", [] => some .rgb2cv
  | "CV2RGB", [] => some .cv2rgb
  | "FWDXF", [] => some .fwdxf
  | "INVXF", [] => some .invxf
  | "QUANT", [] => some .quant
  | "DEQUANT", [] => some .dequant
  | "PACK", [] => some .pack
  | "UNPACK", [] => some .unpack
  | _, _ => none

/-- The assembler of R76 on a mnemonic and its immediates: an immediate above 255 is rejected, any other is encoded
as written. -/
def assemble (mnemonic : String) (imms : List Nat) : Option Word :=
  match commandNamed mnemonic imms with
  | some i => if i.wf then some (encode i) else none
  | none => none

/-- The command of a table word: bit 0 of `w` is bit 0 of the command word, bits from `nbits` up are 0. A command is
one 64-bit word (R70), so nothing else has to be laid out. -/
def decodeTableWord (nbits w : Nat) : Option Instr :=
  (decode (BitVec.ofNat 64 (w % 2 ^ nbits))).toOption

end Sys2Proof
end

