-- ==== Sys2Proof/Config.lean ====
section
/-! DEFINITION. What the spec leaves to the platform or leaves open: the parameters of 00_scope.md R8 and the NaN bit
patterns of 93_implementation_defined.md item 21. All of them are opaque: no proof can see a value of one, so a theorem
that mentions one holds for every value. The limits the spec puts on them are imposed where they are used
(`Machine.chromaLut`, `Machine.windowBase`, `Machine.byteLane`, `Machine.nanWord`). -/

namespace Sys2Proof

/-- `CHROMA_LUT` as the platform fixes it, before R8's requirement (finite, strictly increasing) is imposed by
`Machine.chromaLut`: the 16 binary64 encodings, in index order. R8, R242; assumption log 5. -/
opaque Config.chromaEntries : Fin 16 → Word

/-- The window's address in units of 0x200 bytes: `BASE` is a multiple of 0x200 (R8, R55); assumption log 6. -/
opaque Config.baseBlock : Nat

/-- `BUS_BYTE_ORDER`: which byte of a register (0 = bits 7:0) a byte-addressed platform shows at byte address
`BASE + off + i` (R8, R51). `Machine.byteLane` makes it a permutation; assumption log 6. -/
opaque Config.busByteLane : Fin 8 → Fin 8

/-- The sign bit and the fraction of the `n`-th NaN the block transform stores (93_implementation_defined.md item 21:
"any value among NaN encodings"). A free value: assumption log 3. -/
opaque Config.freeNaN : Nat → BitVec 53

end Sys2Proof
end

