-- ==== Sys2Proof/Machine/State.lean ====
section
/-! DEFINITION. The state of the unit as plain data: the registers of 10_state.md R22 (`Regs`), and beside them what the
model itself needs to run: the transactions the host still has to issue, the last bus response, and the counter of the
free NaN patterns (assumption log 1 to 4). ID, CTRL and CMD hold no stored value (R24, R25, R27): they are served by
`Regs.read` and the transactions. -/

namespace Sys2Proof.Machine

/-- Four things, one per lane: lane k is block sample k, 0 top-left, 1 top-right, 2 bottom-left, 3 bottom-right
(R16, R23). -/
@[ext]
structure Quad (α : Type) where
  l0 : α
  l1 : α
  l2 : α
  l3 : α
deriving DecidableEq, Repr

/-- A lane number. -/
abbrev Lane := Fin 4

/-- One pixel: three u16 channels (R29). The 16 upper bits of a PIX register are not stored: they read 0. -/
@[ext]
structure Pixel where
  r : BitVec 16
  g : BitVec 16
  b : BitVec 16
deriving DecidableEq, Repr

/-- The component video of one lane: three binary64 encodings (R30). -/
@[ext]
structure ComponentVideo where
  y : Word
  pb : Word
  pr : Word
deriving DecidableEq, Repr

/-- The block coefficients and averaged chroma: six binary64 encodings (R31). -/
@[ext]
structure Coefficients where
  a : Word
  b : Word
  c : Word
  d : Word
  pb : Word
  pr : Word
deriving DecidableEq, Repr

/-- The quantized fields, each a full 64-bit register (R32). -/
@[ext]
structure Quantized where
  a : Word
  b : Word
  c : Word
  d : Word
  pb : Word
  pr : Word
deriving DecidableEq, Repr

/-- The registers of R22: all of the unit's architectural state (R20). -/
@[ext]
structure Regs where
  /-- STATUS.FAULT, bit 0 (R26) -/
  fault : Bool
  /-- STATUS.CAUSE, bits 15:8 (R26) -/
  cause : BitVec 8
  /-- FAULT_CMD (R26) -/
  faultCmd : Word
  /-- DEN, bits 15:0 (R28) -/
  den : BitVec 16
  /-- PIX0..PIX3 (R29) -/
  pix : Quad Pixel
  /-- CV0_Y..CV3_PR (R30) -/
  cv : Quad ComponentVideo
  /-- CO_A..CO_PR (R31) -/
  co : Coefficients
  /-- Q_A..Q_PR (R32) -/
  q : Quantized
  /-- CW, bits 31:0 (R33) -/
  cw : Word32
  /-- BW, the BitField word operand (R34) -/
  bw : Word
  /-- BV, the BitField value operand (R34) -/
  bv : Word
  /-- BR, the BitField result (R34) -/
  br : Word
deriving DecidableEq, Repr

/-- The component of a lane's video: 0 = Y, 1 = Pb, 2 = Pr (R23). -/
inductive Component where
  | y
  | pb
  | pr
deriving DecidableEq, Repr

/-- The fields of a block, in the order of the CO and Q registers (R22). -/
inductive BlockField where
  | a
  | b
  | c
  | d
  | pb
  | pr
deriving DecidableEq, Repr

/-- The registers by name (R22). The unit's registers are named, not numbered (R14). -/
inductive RegName where
  | id
  | ctrl
  | status
  | faultCmd
  | cmd
  | den
  | pix (k : Lane)
  | cv (k : Lane) (m : Component)
  | co (f : BlockField)
  | q (f : BlockField)
  | cw
  | bw
  | bv
  | br
deriving DecidableEq, Repr

/-- The access column of R22. -/
inductive Access where
  /-- read/write -/
  | rw
  /-- read-only: bus writes are ignored -/
  | ro
  /-- write-only: bus reads return 0 -/
  | wo
deriving DecidableEq, Repr

/-- What the host or the platform does to the unit, one at a time (R17, R56, R240). -/
inductive HostTxn where
  /-- a bus read of `size` bytes at window offset `off` -/
  | read (off size : Nat)
  /-- a bus write of `size` bytes at window offset `off`; `v` is the value of an 8-byte access -/
  | write (off size : Nat) (v : Word)
  /-- the hardware reset input (R240) -/
  | hardReset
deriving DecidableEq, Repr

/-- How a transaction ended on the host's bus (R56, R57). -/
inductive BusStatus where
  | ok
  | busError
deriving DecidableEq, Repr

/-- The response the host gets (R56). -/
inductive BusResponse where
  | ofRead (data : Word) (status : BusStatus)
  | ofWrite (status : BusStatus)
deriving DecidableEq, Repr

/-- The state of the model. -/
@[ext]
structure State where
  /-- the unit's registers, R22 -/
  regs : Regs
  /-- the model's own: the transactions the host will issue next, oldest first (assumption log 1) -/
  pending : List HostTxn
  /-- the model's own: the response to the last bus transaction (assumption log 2) -/
  response : Option BusResponse
  /-- the model's own: how many free NaN patterns have been used (assumption log 3) -/
  nanCount : Nat
deriving DecidableEq, Repr

/-- The causes a command can raise (60_exceptions.md R211). -/
inductive Cause where
  /-- raised by decode (R73, R75) -/
  | illegalCmd
  /-- raised by the BitField commands (R102) -/
  | badWidth
  /-- raised by the BitField get and set commands (R102) -/
  | badLsb
  /-- raised by the set commands, PACK and DEQUANT (R109, R110, R181, R191) -/
  | valueNotFit
  /-- raised by the colour commands (R130) -/
  | badPixel
  /-- raised by CV2RGB, INVXF and QUANT (R13, R172) -/
  | nanOperand
deriving DecidableEq, Repr

/-- Reasons for which the MACHINE stops. There is none, and the type is empty: everything the spec calls a fault is the
fault state of R212, a next state, and a bus error is a response (R57). Safe. -/
inductive Fault where
deriving DecidableEq, Repr

/-- Reasons for which the model gives an instruction no meaning. -/
inductive Refusal where
  /-- raised by a refused arm of `exec` for an instruction that has no meaning yet; no arm raises it now. Safe: the
  model stops. -/
  | notModelled (mnemonic : String)
deriving DecidableEq, Repr

/-- What a step of this machine answers. -/
abbrev Out := Host.Outcome State Fault Refusal

/-- Every lane the same. -/
def Quad.all4 {α : Type} (x : α) : Quad α := ⟨x, x, x, x⟩

/-- The reset column of R22, register by register (R241). -/
def Regs.reset : Regs where
  fault := false
  cause := 0
  faultCmd := 0
  den := 255
  pix := Quad.all4 ⟨0, 0, 0⟩
  cv := Quad.all4 ⟨0, 0, 0⟩
  co := ⟨0, 0, 0, 0, 0, 0⟩
  q := ⟨0, 0, 0, 0, 0, 0⟩
  cw := 0
  bw := 0
  bv := 0
  br := 0

/-- The machine right after reset: R241 for the registers; no transaction is waiting, none has been answered and no
free NaN pattern has been used (DESIGN CHOICE, assumption log 1 to 3). -/
def State.reset : State where
  regs := Regs.reset
  pending := []
  response := none
  nanCount := 0

end Sys2Proof.Machine
end

