-- ==== Sys2Proof/Machine/Float.lean ====
section
/-! DEFINITION. IEEE 754 binary64 as 00_scope.md R11 to R13 use it. A number is held exactly, as a count of the least
positive binary64 number, `2^-1074`, of which every finite binary64 number is a multiple; an operation computes its exact
result as a quotient of natural numbers and `roundQuot` rounds that once, to nearest, ties to even. A NaN has no payload
here: no rule depends on one (93_implementation_defined.md item 21), and the pattern a stored NaN takes is a free value
(`nanWord`). The operations' definitions are IEEE 754's (general knowledge, R11; assumption log 4). -/

namespace Sys2Proof.Machine

/-- A binary64 value without its encoding. -/
inductive Binary64 where
  /-- any NaN -/
  | nan
  /-- an infinity, negative if `neg` -/
  | inf (neg : Bool)
  /-- the number `mag * 2^-1074`, negated if `neg`; both zeros are numbers -/
  | num (neg : Bool) (mag : Nat)
deriving DecidableEq, Repr

/-- 1.0 in units of `2^-1074`. Irreducible, so that only the kernel ever computes with the number. -/
@[irreducible] def oneUnits : Nat := 1 <<< 1074

/-- `2^1024`, the first magnitude that is an infinity, in units of `2^-1074`. -/
@[irreducible] def overflowUnits : Nat := 1 <<< 2098

/-! ## Encoding (R53) -/

/-- The value a 64-bit pattern encodes: bit 63 sign, bits 62:52 biased exponent, bits 51:0 fraction (R53). -/
def Binary64.ofBits (w : Word) : Binary64 :=
  let neg := w.getLsbD 63
  let expField := (w.extractLsb' 52 11).toNat
  let fraction := (w.extractLsb' 0 52).toNat
  if expField = 2047 then
    if fraction = 0 then .inf neg else .nan
  else if expField = 0 then .num neg fraction
  else .num neg ((0x10000000000000 + fraction) <<< (expField - 1))

/-- How many places a magnitude of `units` lies above the 53 bits of a significand. -/
def excessBits (units : Nat) : Nat := units.log2 - 52

/-- Bits 62:0 of a representable magnitude: with the significand `m` scaled by `2^e`, the encoding is `e * 2^52 + m`,
whether `m` is subnormal (`e = 0`) or its leading bit adds one to the exponent field. -/
def magnitudeBits (mag : Nat) : Nat :=
  (excessBits mag <<< 52) + (mag >>> excessBits mag)

/-- The sign bit as a number. -/
def signBit (neg : Bool) : Nat := if neg then 0x8000000000000000 else 0

/-- The encoding of a value; `nan` is the pattern a NaN takes. -/
def Binary64.toBits (nan : Word) : Binary64 → Word
  | .nan => nan
  | .inf neg => BitVec.ofNat 64 (signBit neg + 0x7FF0000000000000)
  | .num neg mag => BitVec.ofNat 64 (signBit neg + magnitudeBits mag)

/-- A NaN pattern: exponent field all ones, the fraction not 0 (R53). Every NaN encoding is one of these. -/
def nanPattern (sign : BitVec 1) (fraction : BitVec 52) : Word :=
  sign ++ 0x7FF#11 ++ (if fraction = 0#52 then 1#52 else fraction)

/-- The `n`-th free NaN pattern: a free sign and a free nonzero fraction (93_implementation_defined.md item 21). -/
def nanWord (n : Nat) : Word :=
  nanPattern ((Config.freeNaN n).extractLsb' 52 1) ((Config.freeNaN n).extractLsb' 0 52)

/-! ## Rounding -/

/-- The magnitude nearest to `p / q`, ties to the even significand, as if the exponent had no upper bound: the quotient
at the 53 bits of a significand, and the remainder against half a unit of its last place. `q` is positive wherever this
is used. -/
def nearestMagnitude (p q : Nat) : Nat :=
  let e := excessBits (p / q)
  let d := q <<< e
  let m := p / d
  let r := p % d
  let significand := if d < 2 * r || (2 * r == d && m % 2 == 1) then m + 1 else m
  significand <<< e

/-- The value nearest to `(p / q) * 2^-1074`; from `2^1024` up an infinity. -/
def roundQuot (neg : Bool) (p q : Nat) : Binary64 :=
  let mag := nearestMagnitude p q
  if mag < overflowUnits then .num neg mag else .inf neg

/-- The exact value of a finite number in units of `2^-1074`. -/
def signedUnits (neg : Bool) (mag : Nat) : Int := if neg then -(mag : Int) else mag

/-- `f64(n)` (R11), exact for every integer the unit converts. -/
def Binary64.ofInt (n : Int) : Binary64 := roundQuot (decide (n < 0)) (n.natAbs * oneUnits) 1

/-- The binary64 value nearest to the decimal `digits / 10^scale`, negated if `neg` (R11's reading of a literal). -/
def Binary64.ofDecimal (neg : Bool) (digits scale : Nat) : Binary64 :=
  roundQuot neg (digits * oneUnits) (10 ^ scale)

/-! ## The four operations (R11) -/

/-- `-x` flips the sign bit (R11). -/
def Binary64.neg : Binary64 → Binary64
  | .nan => .nan
  | .inf n => .inf (!n)
  | .num n m => .num (!n) m

/-- `fadd`. An exact zero sum is +0.0 unless both operands are -0.0. -/
def fadd : Binary64 → Binary64 → Binary64
  | .num n₁ m₁, .num n₂ m₂ =>
    let sum := signedUnits n₁ m₁ + signedUnits n₂ m₂
    if sum = 0 then .num (n₁ && n₂) 0 else roundQuot (decide (sum < 0)) sum.natAbs 1
  | .inf n₁, .inf n₂ => if n₁ = n₂ then .inf n₁ else .nan
  | .inf n, .num _ _ => .inf n
  | .num _ _, .inf n => .inf n
  | .nan, _ => .nan
  | _, .nan => .nan

/-- `fsub`: addition of the negated operand. -/
def fsub (x y : Binary64) : Binary64 := fadd x y.neg

/-- `fmul`. -/
def fmul : Binary64 → Binary64 → Binary64
  | .num n₁ m₁, .num n₂ m₂ => roundQuot (n₁ ^^ n₂) (m₁ * m₂) oneUnits
  | .inf n₁, .inf n₂ => .inf (n₁ ^^ n₂)
  | .inf n₁, .num n₂ m => if m = 0 then .nan else .inf (n₁ ^^ n₂)
  | .num n₁ m, .inf n₂ => if m = 0 then .nan else .inf (n₁ ^^ n₂)
  | .nan, _ => .nan
  | _, .nan => .nan

/-- `fdiv`. -/
def fdiv : Binary64 → Binary64 → Binary64
  | .num n₁ m₁, .num n₂ m₂ =>
    if m₂ = 0 then (if m₁ = 0 then .nan else .inf (n₁ ^^ n₂))
    else roundQuot (n₁ ^^ n₂) (m₁ * oneUnits) m₂
  | .inf _, .inf _ => .nan
  | .inf n₁, .num n₂ _ => .inf (n₁ ^^ n₂)
  | .num n₁ _, .inf n₂ => .num (n₁ ^^ n₂) 0
  | .nan, _ => .nan
  | _, .nan => .nan

/-! ## Comparison, clamping, rounding to an integer -/

/-- True for every NaN (R11). -/
def Binary64.isNaN : Binary64 → Bool
  | .nan => true
  | _ => false

/-- `x < y` on the values; false if either is a NaN, and -0.0 equals +0.0. -/
def Binary64.lt : Binary64 → Binary64 → Bool
  | .num n₁ m₁, .num n₂ m₂ => decide (signedUnits n₁ m₁ < signedUnits n₂ m₂)
  | .inf n₁, .inf n₂ => n₁ && !n₂
  | .inf n, .num _ _ => n
  | .num _ _, .inf n => !n
  | .nan, _ => false
  | _, .nan => false

/-- `x <= y` on values that are no NaN. -/
def Binary64.le (x y : Binary64) : Bool := !x.isNaN && !y.isNaN && !y.lt x

/-- R13: `clamp(x, lo, hi)`. -/
def clamp (x lo hi : Binary64) : Except Cause Binary64 :=
  if x.isNaN then .error .nanOperand
  else if x.lt lo then .ok lo
  else if hi.lt x then .ok hi
  else .ok x

/-- R13: `clamp_lo0(x)`; -0.0 is kept. -/
def clampLo0 (x : Binary64) : Except Cause Binary64 :=
  if x.isNaN then .error .nanOperand
  else if x.lt (.num false 0) then .ok (.num false 0)
  else .ok x

/-- `mag / unit` to the nearest integer, halves up. -/
def halfUp (mag unit : Nat) : Nat := (2 * mag + unit) / (2 * unit)

/-- R12: the integer nearest to the exact value, halves away from zero. It is applied to finite values only (R12); the
last arm is never reached. -/
def roundHaz : Binary64 → Int
  | .num neg mag => if neg then -(halfUp mag oneUnits : Int) else halfUp mag oneUnits
  | _ => 0

end Sys2Proof.Machine
end

