-- ==== Sys2Proof/Machine/Flags.lean ====
section
/-! DEFINITION. The status register. The unit has no carry, zero, overflow or comparison flag (10_state.md R26): its only
flag is STATUS.FAULT, with the cause code beside it (60_exceptions.md R211). -/

namespace Sys2Proof.Machine

/-- The code column of R211. -/
def Cause.code : Cause → BitVec 8
  | .illegalCmd => 0x01#8
  | .badWidth => 0x02#8
  | .badLsb => 0x03#8
  | .valueNotFit => 0x04#8
  | .badPixel => 0x05#8
  | .nanOperand => 0x06#8

/-- The cause a code names; code 0x00 is NONE and codes 0x07..0xFF are never used (R211). -/
def causeOfCode (code : BitVec 8) : Option Cause :=
  [Cause.illegalCmd, .badWidth, .badLsb, .valueNotFit, .badPixel, .nanOperand].find? (fun c => c.code == code)

/-- STATUS as the bus reads it: FAULT in bit 0, CAUSE in bits 15:8, every other bit 0 (R26). -/
def statusWord (fault : Bool) (cause : BitVec 8) : Word :=
  (cause ++ 0#7 ++ BitVec.ofBool fault).setWidth 64

end Sys2Proof.Machine
end

