-- ==== Sys2Proof/Machine/Operands.lean ====
section
/-! DEFINITION. The operand forms of the commands: the lanes and fields of the named registers (R23, R14), the integer
readings of a register (R10), and the pure BitField functions of 40_bitfield.md section 1, which the BitField commands,
PACK, UNPACK and DEQUANT share. -/

namespace Sys2Proof.Machine

/-! ## Lanes -/

/-- Lane `k`. -/
def Quad.get {α : Type} (x : Quad α) : Lane → α
  | 0 => x.l0
  | 1 => x.l1
  | 2 => x.l2
  | 3 => x.l3

/-- Lane `k` replaced. -/
def Quad.set {α : Type} (x : Quad α) (v : α) : Lane → Quad α
  | 0 => { x with l0 := v }
  | 1 => { x with l1 := v }
  | 2 => { x with l2 := v }
  | 3 => { x with l3 := v }

/-- The same function in every lane (R136). -/
def Quad.map {α β : Type} (f : α → β) (x : Quad α) : Quad β := ⟨f x.l0, f x.l1, f x.l2, f x.l3⟩

/-- The same function in every lane, lane 0 first; a fault in any lane is the fault of all (R136). -/
def Quad.mapCheck {α β : Type} (f : α → Except Cause β) (x : Quad α) : Except Cause (Quad β) :=
  match f x.l0 with
  | .error c => .error c
  | .ok y0 =>
  match f x.l1 with
  | .error c => .error c
  | .ok y1 =>
  match f x.l2 with
  | .error c => .error c
  | .ok y2 =>
  match f x.l3 with
  | .error c => .error c
  | .ok y3 => .ok ⟨y0, y1, y2, y3⟩

/-- Whether every lane satisfies `p`. -/
def Quad.all {α : Type} (p : α → Bool) (x : Quad α) : Bool := p x.l0 && p x.l1 && p x.l2 && p x.l3

/-! ## Register layouts -/

/-- A PIX register's image: r in bits 15:0, g in 31:16, b in 47:32, the rest 0 (R29). -/
def Pixel.toWord (p : Pixel) : Word := (p.b ++ p.g ++ p.r).setWidth 64

/-- The pixel of a word written to a PIX register; bits 63:48 are ignored (R29). -/
def Pixel.ofWord (w : Word) : Pixel := ⟨w.extractLsb' 0 16, w.extractLsb' 16 16, w.extractLsb' 32 16⟩

/-- Component `m` of a lane. -/
def ComponentVideo.get (v : ComponentVideo) : Component → Word
  | .y => v.y
  | .pb => v.pb
  | .pr => v.pr

/-- Component `m` of a lane replaced. -/
def ComponentVideo.set (v : ComponentVideo) (w : Word) : Component → ComponentVideo
  | .y => { v with y := w }
  | .pb => { v with pb := w }
  | .pr => { v with pr := w }

/-- Field `f` of the coefficients. -/
def Coefficients.get (x : Coefficients) : BlockField → Word
  | .a => x.a
  | .b => x.b
  | .c => x.c
  | .d => x.d
  | .pb => x.pb
  | .pr => x.pr

/-- Field `f` of the coefficients replaced. -/
def Coefficients.set (x : Coefficients) (w : Word) : BlockField → Coefficients
  | .a => { x with a := w }
  | .b => { x with b := w }
  | .c => { x with c := w }
  | .d => { x with d := w }
  | .pb => { x with pb := w }
  | .pr => { x with pr := w }

/-- Field `f` of the quantized block. -/
def Quantized.get (x : Quantized) : BlockField → Word
  | .a => x.a
  | .b => x.b
  | .c => x.c
  | .d => x.d
  | .pb => x.pb
  | .pr => x.pr

/-- Field `f` of the quantized block replaced. -/
def Quantized.set (x : Quantized) (w : Word) : BlockField → Quantized
  | .a => { x with a := w }
  | .b => { x with b := w }
  | .c => { x with c := w }
  | .d => { x with d := w }
  | .pb => { x with pb := w }
  | .pr => { x with pr := w }

/-! ## Integers (R10) -/

/-- A u64 read as two's complement. -/
def asI64 (u : Word) : Int := u.toInt

/-- `s mod 2^64`. -/
def asU64 (s : Int) : Word := BitVec.ofInt 64 s

/-- `mask(w)` on `n` bits: bits `w-1..0` set, the rest clear. -/
def mask (n w : Nat) : BitVec n := BitVec.ofNat n (2 ^ w - 1)

/-! ## The BitField functions -/

/-- R100. -/
def fitsUnsigned (value : Word) (width : Nat) : Bool := width == 64 || decide (value.toNat < 2 ^ width)

/-- R101. -/
def fitsSigned (value : Int) (width : Nat) : Bool :=
  if width = 0 then false
  else if width = 64 then true
  else decide (-(2 ^ (width - 1) : Int) ≤ value) && decide (value ≤ 2 ^ (width - 1) - 1)

/-- R102 for the fits commands: only the width. -/
def checkWidth (width limit : Nat) : Except Cause Unit :=
  if limit < width then .error .badWidth else .ok ()

/-- R102: the width before the position. -/
def checkField (width lsb limit : Nat) : Except Cause Unit :=
  if limit < width then .error .badWidth
  else if limit < width + lsb then .error .badLsb
  else .ok ()

/-- `if not ok: raise Fault(cause)`. -/
def require (ok : Bool) (cause : Cause) : Except Cause Unit :=
  if ok then .ok () else .error cause

/-- One check after another: the first that fails is the cause (R217). -/
def andThen {α β : Type} (x : Except Cause α) (f : α → Except Cause β) : Except Cause β :=
  match x with
  | .error c => .error c
  | .ok a => f a

/-- R103: `(word >> lsb) & mask(width)`. -/
def extractField (word : Word) (width lsb : Nat) : Word := (word >>> lsb) &&& mask 64 width

/-- R103: the field as two's complement of `width` bits; 0 for an empty field. -/
def extractSigned (word : Word) (width lsb : Nat) : Int :=
  let u := extractField word width lsb
  if decide (0 < width) && u.getLsbD (width - 1) then (u.toNat : Int) - 2 ^ width else u.toNat

/-- R104, on a word of `n` bits. -/
def insertField {n : Nat} (word : BitVec n) (width lsb : Nat) (value : BitVec n) : BitVec n :=
  (word &&& ~~~(mask n width <<< lsb)) ||| (value <<< lsb)

/-- `W32 = BW[31:0]` (R111). -/
def lowWord (w : Word) : Word32 := w.extractLsb' 0 32

end Sys2Proof.Machine
end

