-- ==== Sys2Proof/Machine/Ops.lean ====
section
/-! DEFINITION. The named operations: register access over the window (10_state.md R22, 20_memory.md R56), taking a fault
and leaving the fault state (60_exceptions.md R212, R216), the shape every command has (00_scope.md R15), and the
codeword's wire order (R52). The unit has no memory (R20, R50): its one address space is the register window. -/

namespace Sys2Proof.Machine

/-! ## The register map (R22) -/

/-- The number of a component in its lane (R23). -/
def Component.index : Component → Nat
  | .y => 0
  | .pb => 1
  | .pr => 2

/-- The number of a field among the CO or Q registers (R22). -/
def BlockField.index : BlockField → Nat
  | .a => 0
  | .b => 1
  | .c => 2
  | .d => 3
  | .pb => 4
  | .pr => 5

/-- The offset column of R22, with R23's formula for the lanes. -/
def RegName.offset : RegName → Nat
  | .id => 0x000
  | .ctrl => 0x008
  | .status => 0x010
  | .faultCmd => 0x018
  | .cmd => 0x020
  | .den => 0x028
  | .pix k => 0x030 + 8 * k.val
  | .cv k m => 0x050 + 0x18 * k.val + 8 * m.index
  | .co f => 0x0B0 + 8 * f.index
  | .q f => 0x0E0 + 8 * f.index
  | .cw => 0x110
  | .bw => 0x118
  | .bv => 0x120
  | .br => 0x128

/-- The access column of R22. -/
def RegName.access : RegName → Access
  | .id | .status | .faultCmd => .ro
  | .ctrl | .cmd => .wo
  | .den | .pix _ | .cv _ _ | .co _ | .q _ | .cw | .bw | .bv | .br => .rw

/-- The fields of a block in register order. -/
def blockFields : List BlockField := [.a, .b, .c, .d, .pb, .pr]

/-- The CV registers of one lane. -/
def laneRegs (k : Lane) : List RegName := [.cv k .y, .cv k .pb, .cv k .pr]

/-- The rows of R22, in order of offset. -/
def allRegs : List RegName :=
  [.id, .ctrl, .status, .faultCmd, .cmd, .den] ++
  [.pix 0, .pix 1, .pix 2, .pix 3] ++
  laneRegs 0 ++ laneRegs 1 ++ laneRegs 2 ++ laneRegs 3 ++
  blockFields.map .co ++ blockFields.map .q ++
  [.cw, .bw, .bv, .br]

/-- The register at a window offset, if the offset is mapped (R22, R55). -/
def regAt (off : Nat) : Option RegName := allRegs.find? (fun r => r.offset == off)

/-- The name column of R22. -/
def RegName.name : RegName → String
  | .id => "ID"
  | .ctrl => "CTRL"
  | .status => "STATUS"
  | .faultCmd => "FAULT_CMD"
  | .cmd => "CMD"
  | .den => "DEN"
  | .pix k => "PIX" ++ k.val.repr
  | .cv k .y => "CV" ++ k.val.repr ++ "_Y"
  | .cv k .pb => "CV" ++ k.val.repr ++ "_PB"
  | .cv k .pr => "CV" ++ k.val.repr ++ "_PR"
  | .co .a => "CO_A"
  | .co .b => "CO_B"
  | .co .c => "CO_C"
  | .co .d => "CO_D"
  | .co .pb => "CO_PB"
  | .co .pr => "CO_PR"
  | .q .a => "Q_A"
  | .q .b => "Q_B"
  | .q .c => "Q_C"
  | .q .d => "Q_D"
  | .q .pb => "Q_PB"
  | .q .pr => "Q_PR"
  | .cw => "CW"
  | .bw => "BW"
  | .bv => "BV"
  | .br => "BR"

/-- `legal(off)` of R56, with the width of the access. -/
def legalAccess (off size : Nat) : Bool := off % 8 == 0 && decide (off ≤ 0x128) && size == 8

/-! ## Reading and writing registers -/

/-- ID's constant (R24). -/
def idValue : Word := 0x4353343048573407#64

/-- The value a bus read returns (R56): CTRL and CMD read 0, and the bits R22 marks as read-0 are 0. -/
def Regs.read (g : Regs) : RegName → Word
  | .id => idValue
  | .ctrl => 0
  | .status => statusWord g.fault g.cause
  | .faultCmd => g.faultCmd
  | .cmd => 0
  | .den => g.den.setWidth 64
  | .pix k => (g.pix.get k).toWord
  | .cv k m => (g.cv.get k).get m
  | .co f => g.co.get f
  | .q f => g.q.get f
  | .cw => g.cw.setWidth 64
  | .bw => g.bw
  | .bv => g.bv
  | .br => g.br

/-- A bus write of `v` stored in an RW register, keeping only the bits R22 gives it (R56). RO registers ignore the
write, and CTRL and CMD store nothing. -/
def Regs.store (g : Regs) (v : Word) : RegName → Regs
  | .id | .ctrl | .status | .faultCmd | .cmd => g
  | .den => { g with den := v.extractLsb' 0 16 }
  | .pix k => { g with pix := g.pix.set (Pixel.ofWord v) k }
  | .cv k m => { g with cv := g.cv.set ((g.cv.get k).set v m) k }
  | .co f => { g with co := g.co.set v f }
  | .q f => { g with q := g.q.set v f }
  | .cw => { g with cw := v.extractLsb' 0 32 }
  | .bw => { g with bw := v }
  | .bv => { g with bv := v }
  | .br => { g with br := v }

/-- The bits of a register a write keeps and a read returns (R22, R54). -/
def RegName.writable : RegName → Word
  | .id | .ctrl | .status | .faultCmd | .cmd => 0
  | .den => 0xFFFF#64
  | .pix _ => 0x0000FFFFFFFFFFFF#64
  | .cw => 0xFFFFFFFF#64
  | .cv _ _ | .co _ | .q _ | .bw | .bv | .br => 0xFFFFFFFFFFFFFFFF#64

/-! ## Faults (R212) and reset (R240) -/

/-- The registers after fault entry with command word `v`: STATUS and FAULT_CMD are written, nothing else is (R212,
R213). -/
def Regs.faultEntry (g : Regs) (cause : Cause) (v : Word) : Regs :=
  { g with fault := true, cause := cause.code, faultCmd := v }

/-- Taking a fault. Control goes nowhere: there is no vector (R215). -/
def State.takeFault (s : State) (cause : Cause) (v : Word) : State :=
  { s with regs := s.regs.faultEntry cause v }

/-- Reset, the only way out of the fault state (R216, R240): every register takes its reset value. What the host still
has to issue is not the unit's and stays. -/
def State.resetUnit (s : State) : State := { s with regs := Regs.reset }

/-- The shape of a command (R15): its checks give the cause that stops it or the registers it leaves, and `v` is its
word. -/
def finish (v : Word) (outcome : Except Cause Regs) (s : State) : Out :=
  match outcome with
  | .error cause => .next (s.takeFault cause v)
  | .ok g => .next { s with regs := g }

/-- The encoding of a float result. The slot tells the results of one command apart if they are NaN; the counter tells
commands apart (93_implementation_defined.md item 21; assumption log 3). -/
def State.encodeFloat (s : State) (slot : Nat) (x : Binary64) : Word := x.toBits (nanWord (s.nanCount + slot))

/-! ## Wire order of a codeword (R52, R194) -/

/-- The 4 bytes of a codeword, most significant first. -/
def wireBytes (cw : Word32) : List Byte :=
  [cw.extractLsb' 24 8, cw.extractLsb' 16 8, cw.extractLsb' 8 8, cw.extractLsb' 0 8]

/-- The codeword of 4 wire bytes. -/
def ofWireBytes : List Byte → Option Word32
  | [b0, b1, b2, b3] => some (b0 ++ b1 ++ b2 ++ b3)
  | _ => none

end Sys2Proof.Machine
end

