-- ==== Sys2Proof/Machine/BitField32.lean ====
section
/-! DEFINITION. The 32-bit BitField commands (40_bitfield.md R111 to R115): the 64-bit commands on `BW[31:0]` with limit
32, the result zero-extended (sign-extended for GETS32) into BR. -/

namespace Sys2Proof.Machine

/-- GETU32 (R112). -/
def execGetu32 (width lsb : Nat) (s : State) : Out :=
  finish (encode (.getu32 width lsb))
    (andThen (checkField width lsb 32) fun _ =>
      .ok { s.regs with br := extractField ((lowWord s.regs.bw).setWidth 64) width lsb }) s

/-- GETS32 (R113). -/
def execGets32 (width lsb : Nat) (s : State) : Out :=
  finish (encode (.gets32 width lsb))
    (andThen (checkField width lsb 32) fun _ =>
      .ok { s.regs with br := asU64 (extractSigned ((lowWord s.regs.bw).setWidth 64) width lsb) }) s

/-- SETU32 (R114). -/
def execSetu32 (width lsb : Nat) (s : State) : Out :=
  finish (encode (.setu32 width lsb))
    (andThen (checkField width lsb 32) fun _ =>
     andThen (require (fitsUnsigned s.regs.bv width) .valueNotFit) fun _ =>
      .ok { s.regs with br := (insertField (lowWord s.regs.bw) width lsb (lowWord s.regs.bv)).setWidth 64 }) s

/-- SETS32 (R115). -/
def execSets32 (width lsb : Nat) (s : State) : Out :=
  let v := asI64 s.regs.bv
  finish (encode (.sets32 width lsb))
    (andThen (checkField width lsb 32) fun _ =>
     andThen (require (fitsSigned v width) .valueNotFit) fun _ =>
      .ok { s.regs with
            br := (insertField (lowWord s.regs.bw) width lsb (lowWord (asU64 v &&& mask 64 width))).setWidth 64 }) s

end Sys2Proof.Machine
end

