-- ==== Sys2Proof/Machine/BitField64.lean ====
section
/-! DEFINITION. The 64-bit BitField commands (40_bitfield.md R105 to R110). Each reads BW and BV and writes only BR. -/

namespace Sys2Proof.Machine

/-- FITSU (R105). -/
def execFitsu (width : Nat) (s : State) : Out :=
  finish (encode (.fitsu width))
    (andThen (checkWidth width 64) fun _ =>
      .ok { s.regs with br := if fitsUnsigned s.regs.bv width then 1 else 0 }) s

/-- FITSS (R106). -/
def execFitss (width : Nat) (s : State) : Out :=
  finish (encode (.fitss width))
    (andThen (checkWidth width 64) fun _ =>
      .ok { s.regs with br := if fitsSigned (asI64 s.regs.bv) width then 1 else 0 }) s

/-- GETU (R107). -/
def execGetu (width lsb : Nat) (s : State) : Out :=
  finish (encode (.getu width lsb))
    (andThen (checkField width lsb 64) fun _ =>
      .ok { s.regs with br := extractField s.regs.bw width lsb }) s

/-- GETS (R108). -/
def execGets (width lsb : Nat) (s : State) : Out :=
  finish (encode (.gets width lsb))
    (andThen (checkField width lsb 64) fun _ =>
      .ok { s.regs with br := asU64 (extractSigned s.regs.bw width lsb) }) s

/-- SETU (R109). -/
def execSetu (width lsb : Nat) (s : State) : Out :=
  finish (encode (.setu width lsb))
    (andThen (checkField width lsb 64) fun _ =>
     andThen (require (fitsUnsigned s.regs.bv width) .valueNotFit) fun _ =>
      .ok { s.regs with br := insertField s.regs.bw width lsb s.regs.bv }) s

/-- SETS (R110). -/
def execSets (width lsb : Nat) (s : State) : Out :=
  let v := asI64 s.regs.bv
  finish (encode (.sets width lsb))
    (andThen (checkField width lsb 64) fun _ =>
     andThen (require (fitsSigned v width) .valueNotFit) fun _ =>
      .ok { s.regs with br := insertField s.regs.bw width lsb (asU64 v &&& mask 64 width) }) s

end Sys2Proof.Machine
end

