-- ==== Sys2Proof/Machine/Color.lean ====
section
/-! DEFINITION. The colour-space commands (41_colorspace.md R130 to R136). Every `*`, `+`, `-`, `/` is one binary64
operation, in the order the rules print them (R11, R132, R134). -/

namespace Sys2Proof.Machine

/-! ## Constants (R135) -/

def c0_299 : Binary64 := .ofBits 0x3FD322D0E5604189#64
def c0_587 : Binary64 := .ofBits 0x3FE2C8B439581062#64
def c0_114 : Binary64 := .ofBits 0x3FBD2F1A9FBE76C9#64
def c0_168736 : Binary64 := .ofBits 0x3FC5992428D434A0#64
def c0_331264 : Binary64 := .ofBits 0x3FD5336DEB95E5B0#64
def c0_5 : Binary64 := .ofBits 0x3FE0000000000000#64
def c0_418688 : Binary64 := .ofBits 0x3FDACBC8C0CE91C9#64
def c0_081312 : Binary64 := .ofBits 0x3FB4D0DCFCC5B8DC#64
def c1_402 : Binary64 := .ofBits 0x3FF66E978D4FDF3B#64
def c0_344136 : Binary64 := .ofBits 0x3FD6065300581494#64
def c0_714136 : Binary64 := .ofBits 0x3FE6DA33BD9CAE21#64
def c1_772 : Binary64 := .ofBits 0x3FFC5A1CAC083127#64

/-- +0.0 and 1.0, the bounds of R134's clamp. -/
def fZero : Binary64 := .num false 0
def fOne : Binary64 := .num false oneUnits

/-! ## The functions of one lane -/

/-- A binary64 triple (Y, Pb, Pr). -/
structure VideoTriple where
  y : Binary64
  pb : Binary64
  pr : Binary64
deriving DecidableEq, Repr

/-- `f64(n)` of a u16. -/
def ofU16 (n : BitVec 16) : Binary64 := .ofInt n.toNat

/-- R132. -/
def rgbToCv (p : Pixel) (den : BitVec 16) : VideoTriple :=
  let D := ofU16 den
  let R := fdiv (ofU16 p.r) D
  let G := fdiv (ofU16 p.g) D
  let B := fdiv (ofU16 p.b) D
  { y := fadd (fadd (fmul c0_299 R) (fmul c0_587 G)) (fmul c0_114 B)
    pb := fadd (fsub (fmul c0_168736.neg R) (fmul c0_331264 G)) (fmul c0_5 B)
    pr := fsub (fsub (fmul c0_5 R) (fmul c0_418688 G)) (fmul c0_081312 B) }

/-- The linear part of R134: R, G and B before the clamp. -/
def linearR (y pr : Binary64) : Binary64 := fadd y (fmul c1_402 pr)
def linearG (y pb pr : Binary64) : Binary64 := fsub (fsub y (fmul c0_344136 pb)) (fmul c0_714136 pr)
def linearB (y pb : Binary64) : Binary64 := fadd y (fmul c1_772 pb)

/-- `round_haz(clamp(x, 0.0, 1.0) * D)` as a u16 channel (R134). -/
def channelOf (x : Binary64) (den : BitVec 16) : Except Cause (BitVec 16) :=
  andThen (clamp x fZero fOne) fun c => .ok (BitVec.ofInt 16 (roundHaz (fmul c (ofU16 den))))

/-- R134. -/
def cvToRgb (den : BitVec 16) (v : ComponentVideo) : Except Cause Pixel :=
  let y := Binary64.ofBits v.y
  let pb := Binary64.ofBits v.pb
  let pr := Binary64.ofBits v.pr
  andThen (channelOf (linearR y pr) den) fun r =>
  andThen (channelOf (linearG y pb pr) den) fun g =>
  andThen (channelOf (linearB y pb) den) fun b =>
  .ok ⟨r, g, b⟩

/-! ## The commands -/

/-- A channel of a lane does not exceed the denominator (R130). -/
def pixelWithin (den : BitVec 16) (p : Pixel) : Bool :=
  decide (p.r.toNat ≤ den.toNat) && decide (p.g.toNat ≤ den.toNat) && decide (p.b.toNat ≤ den.toNat)

/-- R130, its first line. -/
def denCheck (g : Regs) : Except Cause Unit := require (g.den != 0) .badPixel

/-- R130. -/
def pixelCheck (g : Regs) : Except Cause Unit :=
  andThen (denCheck g) fun _ => require (g.pix.all (pixelWithin g.den)) .badPixel

/-- A lane's triple as it is stored. No component is a NaN (R131), so the slot is of no consequence. -/
def State.encodeTriple (s : State) (t : VideoTriple) : ComponentVideo :=
  ⟨s.encodeFloat 0 t.y, s.encodeFloat 1 t.pb, s.encodeFloat 2 t.pr⟩

/-- RGB2CV (R131). -/
def execRgb2cv (s : State) : Out :=
  finish (encode .rgb2cv)
    (andThen (pixelCheck s.regs) fun _ =>
      .ok { s.regs with cv := s.regs.pix.map fun p => s.encodeTriple (rgbToCv p s.regs.den) }) s

/-- CV2RGB (R133). -/
def execCv2rgb (s : State) : Out :=
  finish (encode .cv2rgb)
    (andThen (denCheck s.regs) fun _ =>
     andThen (s.regs.cv.mapCheck (cvToRgb s.regs.den)) fun pix =>
      .ok { s.regs with pix := pix }) s

end Sys2Proof.Machine
end

