-- ==== Sys2Proof/Machine/Quantizer.lean ====
section
/-! DEFINITION. The quantizer commands (43_quantizer.md R170 to R181). The chroma lookup takes its table as an argument;
the commands use the platform's (`chromaLut`). -/

namespace Sys2Proof.Machine

/-! ## The chroma table (R8) -/

/-- The exact value of a table entry in units of `2^-1074`; 0 for a NaN or an infinity, which no table holds. -/
def entryUnits (w : Word) : Int :=
  match Binary64.ofBits w with
  | .num n m => signedUnits n m
  | _ => 0

/-- Neither a NaN nor an infinity. -/
def isFiniteWord (w : Word) : Bool :=
  match Binary64.ofBits w with
  | .num _ _ => true
  | _ => false

/-- R8's requirement on `CHROMA_LUT`: finite and strictly increasing. -/
def tableOk (lut : Fin 16 → Word) : Bool :=
  decide (∀ i : Fin 16, isFiniteWord (lut i) = true) &&
  decide (∀ i : Fin 15, entryUnits (lut i.castSucc) < entryUnits (lut i.succ))

/-- A table that meets R8, used only to say that the platform's table does: `LUT_GK` of
93_implementation_defined.md. -/
def lutGk (i : Fin 16) : Word :=
  ([0xBFD6666666666666#64, 0xBFC999999999999A#64, 0xBFC3333333333333#64, 0xBFB999999999999A#64] ++
   [0xBFB3B645A1CAC083#64, 0xBFAC28F5C28F5C29#64, 0xBFA0E5604189374C#64, 0xBF86872B020C49BA#64] ++
   [0x3F86872B020C49BA#64, 0x3FA0E5604189374C#64, 0x3FAC28F5C28F5C29#64, 0x3FB3B645A1CAC083#64] ++
   [0x3FB999999999999A#64, 0x3FC3333333333333#64, 0x3FC999999999999A#64, 0x3FD6666666666666#64]).getD i.val 0

/-- `CHROMA_LUT`: any table that meets R8. The platform's entries are an opaque constant; if they met R8 they are the
table, and no other table can be told from them (assumption log 5). -/
def chromaLut : Fin 16 → Word :=
  if tableOk Config.chromaEntries then Config.chromaEntries else lutGk

/-! ## Scalar functions -/

def fPoint3 : Binary64 := .ofBits 0x3FD3333333333333#64

/-- R170. -/
def quantizeA (a : Binary64) : Except Cause Int :=
  andThen (clamp a (.num false 0) (.num false oneUnits)) fun c => .ok (roundHaz (fmul c (.ofInt 511)))

/-- R171. -/
def quantizeBcd (x : Binary64) : Except Cause Int :=
  andThen (clamp x fPoint3.neg fPoint3) fun c => .ok (roundHaz (fmul c (.ofInt 50)))

/-- The exact distance of a finite value from entry `i`, in units of `2^-1074` (R172). -/
def entryDistance (lut : Fin 16 → Word) (x : Int) (i : Fin 16) : Nat := (x - entryUnits (lut i)).natAbs

/-- R172's last line: the least `i` that minimises the distance. -/
def nearestEntry (lut : Fin 16 → Word) (x : Int) : Nat :=
  match (List.finRange 16).find? (fun i => decide (∀ j : Fin 16, entryDistance lut x i ≤ entryDistance lut x j)) with
  | some i => i.val
  | none => 0

/-- The index of a value that is no NaN (R172); an infinity is beyond one end or the other. -/
def indexOfNonNan (lut : Fin 16 → Word) (x : Binary64) : Nat :=
  if x.le (.ofBits (lut 0)) then 0
  else if (Binary64.ofBits (lut 15)).le x then 15
  else match x with
    | .num n m => nearestEntry lut (signedUnits n m)
    | _ => 0

/-- R172. -/
def indexOfChroma (lut : Fin 16 → Word) (x : Binary64) : Except Cause Nat :=
  if x.isNaN then .error .nanOperand else .ok (indexOfNonNan lut x)

/-- R173. -/
def dequantizeA (q : Int) : Binary64 := fdiv (.ofInt q) (.ofInt 511)

/-- R174. -/
def dequantizeBcd (q : Int) : Binary64 := fdiv (.ofInt q) (.ofInt 50)

/-- R175, on the register that holds the index. -/
def chromaOfIndex (lut : Fin 16 → Word) (i : Word) : Word := lut (Fin.ofNat 16 i.toNat)

/-! ## The commands -/

/-- The six field checks of R181 and R191, in table order (R217). -/
def fieldCheck (q : Quantized) : Except Cause Unit :=
  andThen (require (fitsUnsigned q.a 9) .valueNotFit) fun _ =>
  andThen (require (fitsSigned (asI64 q.b) 5) .valueNotFit) fun _ =>
  andThen (require (fitsSigned (asI64 q.c) 5) .valueNotFit) fun _ =>
  andThen (require (fitsSigned (asI64 q.d) 5) .valueNotFit) fun _ =>
  andThen (require (fitsUnsigned q.pb 4) .valueNotFit) fun _ =>
  require (fitsUnsigned q.pr 4) .valueNotFit

/-- R180 on the CO registers. -/
def quantizeBlock (lut : Fin 16 → Word) (co : Coefficients) : Except Cause Quantized :=
  andThen (quantizeA (.ofBits co.a)) fun qa =>
  andThen (quantizeBcd (.ofBits co.b)) fun qb =>
  andThen (quantizeBcd (.ofBits co.c)) fun qc =>
  andThen (quantizeBcd (.ofBits co.d)) fun qd =>
  andThen (indexOfChroma lut (.ofBits co.pb)) fun qpb =>
  andThen (indexOfChroma lut (.ofBits co.pr)) fun qpr =>
  .ok { a := asU64 qa, b := asU64 qb, c := asU64 qc, d := asU64 qd, pb := asU64 qpb, pr := asU64 qpr }

/-- R181 on the Q registers that passed the checks. No quotient is a NaN, so the slot is of no consequence. -/
def State.dequantizeBlock (s : State) (lut : Fin 16 → Word) (q : Quantized) : Coefficients where
  a := s.encodeFloat 0 (dequantizeA q.a.toNat)
  b := s.encodeFloat 1 (dequantizeBcd (asI64 q.b))
  c := s.encodeFloat 2 (dequantizeBcd (asI64 q.c))
  d := s.encodeFloat 3 (dequantizeBcd (asI64 q.d))
  pb := chromaOfIndex lut q.pb
  pr := chromaOfIndex lut q.pr

/-- QUANT (R180). -/
def execQuant (s : State) : Out :=
  finish (encode .quant)
    (andThen (quantizeBlock chromaLut s.regs.co) fun q => .ok { s.regs with q := q }) s

/-- DEQUANT (R181). -/
def execDequant (s : State) : Out :=
  finish (encode .dequant)
    (andThen (fieldCheck s.regs.q) fun _ =>
      .ok { s.regs with co := s.dequantizeBlock chromaLut s.regs.q }) s

end Sys2Proof.Machine
end

