-- ==== Sys2Proof/Machine/Packer.lean ====
section
/-! DEFINITION. The codeword packer and unpacker (44_packer.md R190 to R192). -/

namespace Sys2Proof.Machine

/-- The codeword of six fields: R191's inserts, on 32 bits, in table order from an empty word. -/
def packFields (q : Quantized) : Word32 :=
  let w1 := insertField (0 : Word32) 9 23 (lowWord q.a)
  let w2 := insertField w1 5 18 (lowWord (q.b &&& mask 64 5))
  let w3 := insertField w2 5 13 (lowWord (q.c &&& mask 64 5))
  let w4 := insertField w3 5 8 (lowWord (q.d &&& mask 64 5))
  let w5 := insertField w4 4 4 (lowWord q.pb)
  insertField w5 4 0 (lowWord q.pr)

/-- The six fields of a codeword (R192), the signed ones sign-extended to 64 bits. -/
def unpackFields (cw : Word32) : Quantized :=
  let w : Word := cw.setWidth 64
  { a := extractField w 9 23
    b := asU64 (extractSigned w 5 18)
    c := asU64 (extractSigned w 5 13)
    d := asU64 (extractSigned w 5 8)
    pb := extractField w 4 4
    pr := extractField w 4 0 }

/-- PACK (R191). -/
def execPack (s : State) : Out :=
  finish (encode .pack)
    (andThen (fieldCheck s.regs.q) fun _ => .ok { s.regs with cw := packFields s.regs.q }) s

/-- UNPACK (R192). Every 32-bit word unpacks. -/
def execUnpack (s : State) : Out :=
  finish (encode .unpack) (.ok { s.regs with q := unpackFields s.regs.cw }) s

end Sys2Proof.Machine
end

