-- ==== Sys2Proof/Machine/Transform.lean ====
section
/-! DEFINITION. The block transform commands (42_block_transform.md R150 to R154). The luma formulas are written once over
an addition, a subtraction and a division by four, so that the law over the reals (R155) is about the formulas the unit
computes in binary64. -/

namespace Sys2Proof.Machine

/-- The four luma coefficients. -/
structure Luma (α : Type) where
  a : α
  b : α
  c : α
  d : α
deriving DecidableEq, Repr

/-- R150's formulas, left to right as printed. -/
def forwardLumaWith {α : Type} (add sub : α → α → α) (quarter : α → α) (y : Quad α) : Luma α where
  a := quarter (add (add (add y.l0 y.l1) y.l2) y.l3)
  b := quarter (sub (sub (add y.l1 y.l3) y.l0) y.l2)
  c := quarter (sub (sub (add y.l2 y.l3) y.l0) y.l1)
  d := quarter (sub (sub (add y.l0 y.l3) y.l1) y.l2)

/-- R153's formulas before the clamp. -/
def inverseLumaWith {α : Type} (add sub : α → α → α) (x : Luma α) : Quad α where
  l0 := add (sub (sub x.a x.b) x.c) x.d
  l1 := sub (sub (add x.a x.b) x.c) x.d
  l2 := sub (add (sub x.a x.b) x.c) x.d
  l3 := add (add (add x.a x.b) x.c) x.d

/-- Division by 4.0. -/
def fquarter (x : Binary64) : Binary64 := fdiv x (.ofInt 4)

/-- R150 in binary64. -/
def forwardLuma (y : Quad Binary64) : Luma Binary64 := forwardLumaWith fadd fsub fquarter y

/-- R151. -/
def mean4 (x : Quad Binary64) : Binary64 := fquarter (fadd (fadd (fadd x.l0 x.l1) x.l2) x.l3)

/-- R153: the four reconstructed lumas, each clamped from below. -/
def inverseLuma (x : Luma Binary64) : Except Cause (Quad Binary64) :=
  (inverseLumaWith fadd fsub x).mapCheck clampLo0

/-- One component of the four lanes, as values. -/
def cvValues (g : Regs) (m : Component) : Quad Binary64 := g.cv.map fun v => Binary64.ofBits (v.get m)

/-- The luma coefficients in CO, as values. -/
def coLuma (g : Regs) : Luma Binary64 :=
  ⟨.ofBits g.co.a, .ofBits g.co.b, .ofBits g.co.c, .ofBits g.co.d⟩

/-- FWDXF (R152). It never faults; each of its six results that is a NaN takes a free NaN pattern of its own. -/
def execFwdxf (s : State) : Out :=
  let l := forwardLuma (cvValues s.regs .y)
  .next { s with
    regs := { s.regs with
      co := { a := s.encodeFloat 0 l.a
              b := s.encodeFloat 1 l.b
              c := s.encodeFloat 2 l.c
              d := s.encodeFloat 3 l.d
              pb := s.encodeFloat 4 (mean4 (cvValues s.regs .pb))
              pr := s.encodeFloat 5 (mean4 (cvValues s.regs .pr)) } }
    nanCount := s.nanCount + 6 }

/-- INVXF (R154): the chroma is copied bit for bit. No reconstructed luma is a NaN, so the slot is of no consequence. -/
def execInvxf (s : State) : Out :=
  finish (encode .invxf)
    (andThen (inverseLuma (coLuma s.regs)) fun y =>
      .ok { s.regs with
            cv := y.map fun yk => ⟨s.encodeFloat 0 yk, s.regs.co.pb, s.regs.co.pr⟩ }) s

end Sys2Proof.Machine
end

