-- ==== Sys2Proof/Machine/Dispatch.lean ====
section
/-! DEFINITION. One arm per command (30_encoding.md R74). -/

namespace Sys2Proof.Machine

/- Performing one decoded command (R73, last line). -/
def exec (i : Instr) (s : State) : Host.Outcome State Fault Refusal :=
  match i with
  | .fitsu width => Sys2Proof.Machine.execFitsu width s
  | .fitss width => Sys2Proof.Machine.execFitss width s
  | .getu width lsb => Sys2Proof.Machine.execGetu width lsb s
  | .gets width lsb => Sys2Proof.Machine.execGets width lsb s
  | .setu width lsb => Sys2Proof.Machine.execSetu width lsb s
  | .sets width lsb => Sys2Proof.Machine.execSets width lsb s
  | .getu32 width lsb => Sys2Proof.Machine.execGetu32 width lsb s
  | .gets32 width lsb => Sys2Proof.Machine.execGets32 width lsb s
  | .setu32 width lsb => Sys2Proof.Machine.execSetu32 width lsb s
  | .sets32 width lsb => Sys2Proof.Machine.execSets32 width lsb s
  | .rgb2cv => Sys2Proof.Machine.execRgb2cv s
  | .cv2rgb => Sys2Proof.Machine.execCv2rgb s
  | .fwdxf => Sys2Proof.Machine.execFwdxf s
  | .invxf => Sys2Proof.Machine.execInvxf s
  | .quant => Sys2Proof.Machine.execQuant s
  | .dequant => Sys2Proof.Machine.execDequant s
  | .pack => Sys2Proof.Machine.execPack s
  | .unpack => Sys2Proof.Machine.execUnpack s

end Sys2Proof.Machine
end

