-- ==== Sys2Proof/Machine/Transactions.lean ====
section
/-! DEFINITION. The host's transactions (20_memory.md R56 to R66). A transaction is one step of the machine: it is
complete before the next is performed (R60). The performing of a command is an argument here, so that Step.lean can give
it `exec`. -/

namespace Sys2Proof.Machine

/-- `BusRead(off)` (R56, R57): the data and the status. It has no side effect (R58). -/
def busRead (g : Regs) (off size : Nat) : BusResponse :=
  if legalAccess off size then
    match regAt off with
    | some r => .ofRead (g.read r) .ok
    | none => .ofRead 0 .busError
  else .ofRead 0 .busError

/-- A write of `v` to CMD (R27): ignored while STATUS.FAULT = 1 (R214); a word that selects no command raises
ILLEGAL_CMD (R73); otherwise the command is performed. -/
def writeCmd (perform : Instr → State → Out) (v : Word) (s : State) : Out :=
  if s.regs.fault then .next s
  else match decode v with
    | .error _ => .next (s.takeFault .illegalCmd v)
    | .ok i => perform i s

/-- A write of `v` to CTRL (R25): SRESET is bit 0, and the other bits are ignored. -/
def writeCtrl (v : Word) (s : State) : State := if v.getLsbD 0 then s.resetUnit else s

/-- `BusWrite(off, v)` on a legal offset (R56), the response already given. -/
def writeReg (perform : Instr → State → Out) (r : RegName) (v : Word) (s : State) : Out :=
  match r with
  | .cmd => writeCmd perform v s
  | .ctrl => .next (writeCtrl v s)
  | r => .next { s with regs := s.regs.store v r }

/-- The response put where the host finds it. -/
def State.answer (s : State) (r : BusResponse) : State := { s with response := some r }

/-- One transaction (R56), already taken from the host's list. The hardware reset answers nothing (R240). -/
def performTxn (perform : Instr → State → Out) (t : HostTxn) (s : State) : Out :=
  match t with
  | .read off size => .next (s.answer (busRead s.regs off size))
  | .write off size v =>
    if legalAccess off size then
      match regAt off with
      | some r => writeReg perform r v (s.answer (.ofWrite .ok))
      | none => .next (s.answer (.ofWrite .busError))
    else .next (s.answer (.ofWrite .busError))
  | .hardReset => .next { s.resetUnit with response := none }

/-- The next transaction of the host, if it has one; between transactions the unit is idle and keeps every register
(R225). -/
def performNext (perform : Instr → State → Out) (s : State) : Out :=
  match s.pending with
  | [] => .next s
  | t :: rest => performTxn perform t { s with pending := rest }

/-- `s` with a CMD write of `v` as the host's next transaction and the unit out of the fault state, so that the next
step performs `v` (assumption log 7). -/
def State.withCommand (s : State) (v : Word) : State :=
  { s with
    regs := { s.regs with fault := false, cause := 0, faultCmd := 0 }
    pending := .write 0x020 8 v :: s.pending }

/-! ## The platform's view of the window (R8, R14, R51, R55) -/

/-- `BASE`, a multiple of 0x200 (R55). -/
def windowBase : Nat := 0x200 * Config.baseBlock

/-- Whether a bus address lies in the unit's window (R55). -/
def inWindow (addr : Nat) : Bool := decide (windowBase ≤ addr) && decide (addr < windowBase + 0x200)

/-- `MemRead(addr, n)` is `BusRead(addr - BASE)` (R14); an address outside the window is no transaction of this unit. -/
def memRead (addr n : Nat) : Option HostTxn :=
  if inWindow addr then some (.read (addr - windowBase) n) else none

/-- `MemWrite(addr, n, v)` is `BusWrite(addr - BASE, v)` (R14). -/
def memWrite (addr n : Nat) (v : Word) : Option HostTxn :=
  if inWindow addr then some (.write (addr - windowBase) n v) else none

/-- `BUS_BYTE_ORDER` as a permutation of the 8 bytes (R51). -/
def byteLane : Fin 8 → Fin 8 :=
  if ∀ i j, Config.busByteLane i = Config.busByteLane j → i = j then Config.busByteLane else fun i => i

/-- The byte a byte-addressed platform shows at address `BASE + off + i` of a register that reads `v` (R51). -/
def platformByte (v : Word) (i : Fin 8) : Byte := v.extractLsb' (8 * (byteLane i).val) 8

end Sys2Proof.Machine
end

