-- ==== Sys2Proof/Machine/Step.lean ====
section
/-! DEFINITION. One step: the host's next transaction (00_scope.md R17, 20_memory.md R60). -/

namespace Sys2Proof.Machine

/-- One step of the machine. -/
def step (s : State) : Host.Outcome State Fault Refusal := performNext exec s

/-- `s` with the table's word as the next command: the host's next transaction is the CMD write of it (R27). The bits
from `nbits` up are 0. Assumption log 7. -/
def State.withFetchWord (s : State) (nbits w : Nat) : State := s.withCommand (BitVec.ofNat 64 (w % 2 ^ nbits))

end Sys2Proof.Machine
end

