-- ==== Sys2Proof/Machine/HostProgram.lean ====
section
/-! DEFINITION. Host programs (30_encoding.md R77): a straight-line list of transactions, as the tokens of their lines. -/

namespace Sys2Proof.Machine

/-- A decimal literal of `WRF`: `digits / 10^scale`, negated if `neg`. -/
structure DecimalLit where
  neg : Bool
  digits : Nat
  scale : Nat
deriving DecidableEq, Repr

/-- One line of a host program (R77). -/
inductive HostLine where
  /-- `WR NAME, value`, the value a 64-bit integer; a negative one is written as its two's complement pattern -/
  | wr (reg : String) (value : Int)
  /-- `WRF NAME, x` -/
  | wrf (reg : String) (x : DecimalLit)
  /-- `RD NAME` -/
  | rd (reg : String)
  /-- `CMD mnemonic [immediates]` -/
  | cmd (mnemonic : String) (imms : List Nat)
  /-- `SRESET` -/
  | sreset
deriving DecidableEq, Repr

/-- The register of a name (R22). -/
def regNamed (name : String) : Option RegName := allRegs.find? (fun r => r.name == name)

/-- The encoding of the binary64 nearest to a decimal (R77); a decimal is a number, so no NaN pattern is used. -/
def DecimalLit.bits (x : DecimalLit) : Word := (Binary64.ofDecimal x.neg x.digits x.scale).toBits 0

/-- A value that 64 bits hold, as an unsigned integer or as a two's complement one: what R77 calls a 64-bit integer. -/
def isInt64 (value : Int) : Bool := decide (-(2 : Int) ^ 63 ≤ value ∧ value < (2 : Int) ^ 64)

/-- The transaction a line stands for (R77); `none` where the assembler rejects the line. DESIGN CHOICE (safe, assumption
log 13): R77 does not say what becomes of a `WR` value that is no 64-bit integer; the model rejects the line. -/
def HostLine.txn : HostLine → Option HostTxn
  | .wr reg value => if isInt64 value then (regNamed reg).map fun r => .write r.offset 8 (asU64 value) else none
  | .wrf reg x => (regNamed reg).map fun r => .write r.offset 8 x.bits
  | .rd reg => (regNamed reg).map fun r => .read r.offset 8
  | .cmd mnemonic imms => (assemble mnemonic imms).map fun v => .write 0x020 8 v
  | .sreset => some (.write 0x008 8 1)

/-- The transactions of a program, in order. -/
def hostProgram : List HostLine → Option (List HostTxn)
  | [] => some []
  | l :: rest =>
    match l.txn, hostProgram rest with
    | some t, some ts => some (t :: ts)
    | _, _ => none

end Sys2Proof.Machine
end

