-- ==== Sys2Proof/Safety.lean ====
section
/-! DEFINITION. What counts as a safe run, and the words the statements use: completed steps and runs, the invariant of
the fault record (10_state.md R26, 60_exceptions.md R211, R212), the source and destination registers of a command
(70_reset_and_hazards.md R245), and what it means for a binary64 result to be correctly rounded (00_scope.md R11). -/

namespace Sys2Proof.Machine

/-! ## Steps and runs -/

/-- The state a step or a command leaves, if it answers one. -/
def nextState : Out → Option State
  | .next s => some s
  | .fault _ => none
  | .refused _ => none

/-- `k` transactions from `s` end in `t`, none of them stopping the machine. -/
def RunsTo (k : Nat) (s t : State) : Prop := Sys2Proof.core.run k s = .next t

/-- A safe state: its next step answers a next state, and the unit is not in the fault state. -/
def Safe (s : State) : Prop := s.regs.fault = false ∧ ∃ t, step s = .next t

/-- With `t` the host's next transaction. -/
def State.issuing (s : State) (t : HostTxn) : State := { s with pending := t :: s.pending }

/-- A bus read at `off` from `s` returns `v` and does nothing else (R56, R58). -/
def ReadsAs (s : State) (off : Nat) (v : Word) : Prop :=
  step (s.issuing (.read off 8)) = .next { s with response := some (.ofRead v .ok) }

/-! ## The fault record -/

/-- The limit of a BitField command: 64, or 32 for the 32-bit commands (R102, R111). -/
def bitLimit : Instr → Option Nat
  | .fitsu _ | .fitss _ | .getu _ _ | .gets _ _ | .setu _ _ | .sets _ _ => some 64
  | .getu32 _ _ | .gets32 _ _ | .setu32 _ _ | .sets32 _ _ => some 32
  | .rgb2cv | .cv2rgb | .fwdxf | .invxf | .quant | .dequant | .pack | .unpack => none

/-- The get and set commands: those with a position (R103, R104). -/
def hasPosition : Instr → Bool
  | .getu _ _ | .gets _ _ | .setu _ _ | .sets _ _ => true
  | .getu32 _ _ | .gets32 _ _ | .setu32 _ _ | .sets32 _ _ => true
  | .fitsu _ | .fitss _ => false
  | .rgb2cv | .cv2rgb | .fwdxf | .invxf | .quant | .dequant | .pack | .unpack => false

/-- The set commands. -/
def isSet : Instr → Bool
  | .setu _ _ | .sets _ _ | .setu32 _ _ | .sets32 _ _ => true
  | .fitsu _ | .fitss _ | .getu _ _ | .gets _ _ | .getu32 _ _ | .gets32 _ _ => false
  | .rgb2cv | .cv2rgb | .fwdxf | .invxf | .quant | .dequant | .pack | .unpack => false

/-- The "raised by" column of R211: command `i` can raise `c`. -/
def MayRaise (c : Cause) (i : Instr) : Prop :=
  match c with
  | .illegalCmd => False
  | .badWidth => ∃ limit, bitLimit i = some limit ∧ limit < i.width
  | .badLsb => ∃ limit, bitLimit i = some limit ∧ hasPosition i = true ∧ i.width ≤ limit ∧ limit < i.width + i.lsb
  | .valueNotFit =>
    (∃ limit, bitLimit i = some limit ∧ isSet i = true ∧ i.width + i.lsb ≤ limit) ∨ i = .pack ∨ i = .dequant
  | .badPixel => i = .rgb2cv ∨ i = .cv2rgb
  | .nanOperand => i = .cv2rgb ∨ i = .invxf ∨ i = .quant

/-- The recorded word explains the recorded cause (R211, R212): ILLEGAL_CMD exactly for a word that selects no command,
any other cause for a command that can raise it. -/
def RecordExplains (c : Cause) (v : Word) : Prop :=
  match decode v with
  | .error _ => c = .illegalCmd
  | .ok i => MayRaise c i

/-- R26 and R211: CAUSE and FAULT_CMD are 0 while FAULT is 0, and otherwise name a cause and the command word that
raised it. -/
def FaultRecordOk (g : Regs) : Prop :=
  (g.fault = false → g.cause = 0 ∧ g.faultCmd = 0) ∧
  (g.fault = true → ∃ c : Cause, g.cause = c.code ∧ RecordExplains c g.faultCmd)

/-- The invariant of the machine. -/
def State.Inv (s : State) : Prop := FaultRecordOk s.regs

/-! ## Sources and destinations (R245) -/

/-- R245's "reads"; where R245 names BW and BV for all BitField commands, R34 and the commands' own rules (R105 to R115)
give the fits BV only and the gets BW only. -/
def readsReg : Instr → RegName → Bool
  | .fitsu _, r | .fitss _, r => r == .bv
  | .getu _ _, r | .gets _ _, r | .getu32 _ _, r | .gets32 _ _, r => r == .bw
  | .setu _ _, r | .sets _ _, r | .setu32 _ _, r | .sets32 _ _, r => r == .bw || r == .bv
  | .rgb2cv, r => match r with | .pix _ | .den => true | _ => false
  | .cv2rgb, r => match r with | .cv _ _ | .den => true | _ => false
  | .fwdxf, r => match r with | .cv _ _ => true | _ => false
  | .invxf, r | .quant, r => match r with | .co _ => true | _ => false
  | .dequant, r | .pack, r => match r with | .q _ => true | _ => false
  | .unpack, r => r == .cw

/-- R245's "writes". -/
def writesReg : Instr → RegName → Bool
  | .fitsu _, r | .fitss _, r => r == .br
  | .getu _ _, r | .gets _ _, r | .getu32 _ _, r | .gets32 _ _, r => r == .br
  | .setu _ _, r | .sets _ _, r | .setu32 _ _, r | .sets32 _ _, r => r == .br
  | .rgb2cv, r | .invxf, r => match r with | .cv _ _ => true | _ => false
  | .cv2rgb, r => match r with | .pix _ => true | _ => false
  | .fwdxf, r | .dequant, r => match r with | .co _ => true | _ => false
  | .quant, r | .unpack, r => match r with | .q _ => true | _ => false
  | .pack, r => r == .cw

/-- The registers that hold a binary64 encoding (R30, R31). -/
def isFloatReg : RegName → Bool
  | .cv _ _ | .co _ => true
  | _ => false

/-- Two contents of register `r` are the same value: equal bits, or two NaNs in a binary64 register
(93_implementation_defined.md item 21: no rule depends on which NaN it is). -/
def SameValue (r : RegName) (x y : Word) : Prop :=
  if isFloatReg r then Binary64.ofBits x = Binary64.ofBits y else x = y

/-! ## Values of the fields -/

/-- The range of a signed field of `width` bits (R101); empty for width 0. -/
def InSignedRange (x : Int) (width : Nat) : Prop :=
  1 ≤ width ∧ -(2 : Int) ^ (width - 1) ≤ x ∧ x ≤ (2 : Int) ^ (width - 1) - 1

/-- Every Q register fits its field: a 9 bits, b, c, d 5 bits signed, Pbar 4 bits (R181, R191). -/
def FieldsFit (q : Quantized) : Prop :=
  q.a.toNat < 512 ∧ InSignedRange q.b.toInt 5 ∧ InSignedRange q.c.toInt 5 ∧ InSignedRange q.d.toInt 5 ∧
  q.pb.toNat < 16 ∧ q.pr.toNat < 16

/-- The two's complement value of the low `width` bits of `u` (R103). -/
def signedValue (u width : Nat) : Int :=
  if width = 0 then 0
  else if u % 2 ^ width < 2 ^ (width - 1) then (u % 2 ^ width : Nat) else (u % 2 ^ width : Nat) - 2 ^ width

/-! ## Operands of the float commands, as the rules print them -/

/-- R133, R134: R, G and B of a lane before the clamp, in the order of their operations. -/
def linearRgb (v : ComponentVideo) : List Binary64 :=
  let y := Binary64.ofBits v.y
  let pb := Binary64.ofBits v.pb
  let pr := Binary64.ofBits v.pr
  [fadd y (fmul (.ofDecimal false 1402 3) pr),
   fsub (fsub y (fmul (.ofDecimal false 344136 6) pb)) (fmul (.ofDecimal false 714136 6) pr),
   fadd y (fmul (.ofDecimal false 1772 3) pb)]

/-- R153: the four lumas before the clamp. -/
def linearLuma (co : Coefficients) : List Binary64 :=
  let a := Binary64.ofBits co.a
  let b := Binary64.ofBits co.b
  let c := Binary64.ofBits co.c
  let d := Binary64.ofBits co.d
  [fadd (fsub (fsub a b) c) d, fsub (fsub (fadd a b) c) d, fsub (fadd (fsub a b) c) d, fadd (fadd (fadd a b) c) d]

/-- The six operands of QUANT (R180). -/
def quantInputs (co : Coefficients) : List Binary64 :=
  [.ofBits co.a, .ofBits co.b, .ofBits co.c, .ofBits co.d, .ofBits co.pb, .ofBits co.pr]

/-- Every lane's pixel is valid for DEN (R130). -/
def ValidPixels (g : Regs) : Prop :=
  g.den ≠ 0 ∧ ∀ k : Lane, (g.pix.get k).r.toNat ≤ g.den.toNat ∧ (g.pix.get k).g.toNat ≤ g.den.toNat ∧
    (g.pix.get k).b.toNat ≤ g.den.toNat

/-- The value of R13's `clamp(x, 0.0, 1.0)` for an `x` that is no NaN. -/
def clampUnit (x : Binary64) : Binary64 :=
  if x.lt (.num false 0) then .num false 0 else if (Binary64.ofInt 1).lt x then .ofInt 1 else x

/-- The host's writes of a list of command words. -/
def cmdWrites (l : List Instr) : List HostTxn := l.map fun i => .write 0x020 8 (encode i)

/-! ## Correct rounding -/

/-- A magnitude, in units of `2^-1074`, with a significand of at most 53 bits: what binary64 holds if its exponent had
no upper bound. -/
def Representable (mag : Nat) : Prop := ∃ c e : Nat, mag = c * 2 ^ e ∧ c < 2 ^ 53

/-- The significand of a representable magnitude, at binary64's precision, is even. -/
def EvenSignificand (mag : Nat) : Prop :=
  ∃ c e : Nat, mag = 2 * c * 2 ^ e ∧ 2 * c < 2 ^ 53 ∧ (e = 0 ∨ 2 ^ 52 ≤ 2 * c)

/-- `mag` is the magnitude nearest to `p / q` (`q` positive), ties to even: no representable magnitude is nearer, and
where another is as near, `mag` is the one with the even significand. Distances are compared multiplied by `q`. -/
def NearestEven (p q mag : Nat) : Prop :=
  Representable mag ∧
  ∀ g : Nat, Representable g →
    ((mag * q : Int) - p).natAbs ≤ ((g * q : Int) - p).natAbs ∧
    (g ≠ mag → ((mag * q : Int) - p).natAbs = ((g * q : Int) - p).natAbs → EvenSignificand mag)

/-- `r` is the binary64 number for the real `± p/q * 2^-1074`, the sign negative if `neg`: the nearest magnitude, or an
infinity if that is `2^1024` or more. -/
def RoundsTo (neg : Bool) (p q : Nat) (r : Binary64) : Prop :=
  ∃ mag, NearestEven p q mag ∧ r = if mag < 2 ^ 2098 then .num neg mag else .inf neg

/-- A finite value. -/
def Binary64.Finite : Binary64 → Prop
  | .num _ _ => True
  | .nan => False
  | .inf _ => False

end Sys2Proof.Machine
end

