-- ==== Sys2Proof/Certificates/Slice0/Obligations.lean ====
section
/-! DEFINITION. The statements for the provers. Each docstring says which rule of the spec it formalises. A next state is
written out with the registers it changes, so that each result statement is its frame as well: every register, the
host's transactions, the response and the counter of free NaN patterns that are not named stay as they were. -/

open Sys2Proof Sys2Proof.Machine

/-! ## Encoding (30_encoding.md) -/

/-- R70, R73, R74: every command that has an encoding decodes to itself, with every operand. -/
def Obligations.DecodeOfEncode : Prop :=
  ∀ i : Instr, i.WellFormed → decode (encode i) = .ok i

/-- R73: a word selects at most the command it encodes, so no two words select one command with one set of operands. -/
def Obligations.EncodeOfDecode : Prop :=
  ∀ (v : Word) (i : Instr), decode v = .ok i → i.WellFormed ∧ encode i = v

/-- R74: a word `v` selects a row of the opcode map iff `v & mask = match`. -/
def Obligations.RowSelectedIffMaskedMatch : Prop :=
  ∀ row ∈ opcodeTable, ∀ v : Word,
    v &&& row.maskBits = row.matchBits ↔ ∃ i, decode v = .ok i ∧ i.mnemonic = row.mnemonic

/-- R75: the illegal words, spelled out on the number `v`; a CMD write of one raises ILLEGAL_CMD and does nothing else,
and every other word selects a command. -/
def Obligations.IllegalWordsFault : Prop :=
  ∀ (v : Word),
    let op := v.toNat % 256
    let width := v.toNat / 256 % 256
    let lsb := v.toNat / 65536 % 256
    let listed := (1 ≤ op ∧ op ≤ 6) ∨ (0x13 ≤ op ∧ op ≤ 0x16) ∨ op = 0x20 ∨ op = 0x21 ∨ op = 0x30 ∨ op = 0x31 ∨
      op = 0x40 ∨ op = 0x41 ∨ op = 0x50 ∨ op = 0x51
    let illegal := v.toNat / 2 ^ 24 ≠ 0 ∨ ¬ listed ∨ (0x20 ≤ op ∧ (width ≠ 0 ∨ lsb ≠ 0)) ∨
      ((op = 1 ∨ op = 2) ∧ lsb ≠ 0)
    (illegal → ∀ s : State, s.regs.fault = false →
      step (s.issuing (.write 0x020 8 v)) =
        .next { s with
          regs := { s.regs with fault := true, cause := 0x01, faultCmd := v }
          response := some (.ofWrite .ok) }) ∧
    (¬ illegal → ∃ i, decode v = .ok i ∧ i.opcode.toNat = op)

/-- R70, R74, R76: words written out from the command format decode to the commands they stand for. -/
def Obligations.WrittenOutWordsDecode : Prop :=
  decode 0x0000000000001001#64 = .ok (.fitsu 16) ∧
  decode 0x0000000000120506#64 = .ok (.sets 5 18) ∧
  decode 0x0000000000141003#64 = .ok (.getu 16 20) ∧
  decode 0x0000000000180815#64 = .ok (.setu32 8 24) ∧
  decode 0x0000000000000021#64 = .ok .cv2rgb ∧
  decode 0x0000000000000031#64 = .ok .invxf ∧
  decode 0x0000000000000040#64 = .ok .quant ∧
  decode 0x0000000000000051#64 = .ok .unpack

/-- R76: a command is its mnemonic and the immediates of its class; the assembler rejects an immediate above 255 and
encodes any other as written, as the OP, WIDTH and LSB bytes. -/
def Obligations.AssemblerEncodesImmediates : Prop :=
  (∀ i : Instr,
    let imms := match i.fieldClass with | .wl => [i.width, i.lsb] | .w => [i.width] | .n => []
    assemble i.mnemonic imms =
      if i.width ≤ 255 ∧ i.lsb ≤ 255 then
        some (BitVec.ofNat 64 (i.opcode.toNat + i.width * 256 + i.lsb * 65536)) else none) ∧
  assemble "SETS" [5, 18] = some 0x0000000000120506#64

/-! ## Steps and the bus (20_memory.md) -/

/-- R27, R64: a CMD write of a word that encodes a command, in the normal state, is that command performed on the
registers as they stand, with the write's response already given. -/
def Obligations.StepPerformsDecodedCommand : Prop :=
  ∀ (s : State) (i : Instr) (rest : List HostTxn),
    i.WellFormed → s.regs.fault = false → s.pending = .write 0x020 8 (encode i) :: rest →
      step s = exec i { s with pending := rest, response := some (.ofWrite .ok) }

/-- R17, R56, R57, R60, R212, R225: every step answers a next state, and takes the host's next transaction and no other;
without one the unit is idle and keeps every register. The machine has no other stop. A step without a transaction is
the model's own (assumption log 1). -/
def Obligations.EveryStepAnswers : Prop :=
  ∀ s : State, ∃ t, step s = .next t ∧ t.pending = s.pending.tail ∧ (s.pending = [] → t = s)

/-- R22 to R34, R56: what a bus read returns at every mapped offset, the layouts as numbers. -/
def Obligations.ReadsFollowRegisterMap : Prop :=
  ∀ s : State,
    ReadsAs s 0x000 0x4353343048573407#64 ∧
    ReadsAs s 0x008 0 ∧
    ReadsAs s 0x010 (BitVec.ofNat 64 (s.regs.cause.toNat * 256 + s.regs.fault.toNat)) ∧
    ReadsAs s 0x018 s.regs.faultCmd ∧
    ReadsAs s 0x020 0 ∧
    ReadsAs s 0x028 (BitVec.ofNat 64 s.regs.den.toNat) ∧
    (∀ k : Lane, ReadsAs s (0x030 + 8 * k.val)
      (BitVec.ofNat 64 ((s.regs.pix.get k).r.toNat + (s.regs.pix.get k).g.toNat * 2 ^ 16 +
        (s.regs.pix.get k).b.toNat * 2 ^ 32))) ∧
    (∀ k : Lane,
      ReadsAs s (0x050 + 0x18 * k.val) (s.regs.cv.get k).y ∧
      ReadsAs s (0x050 + 0x18 * k.val + 8) (s.regs.cv.get k).pb ∧
      ReadsAs s (0x050 + 0x18 * k.val + 16) (s.regs.cv.get k).pr) ∧
    (ReadsAs s 0x0B0 s.regs.co.a ∧ ReadsAs s 0x0B8 s.regs.co.b ∧ ReadsAs s 0x0C0 s.regs.co.c ∧
      ReadsAs s 0x0C8 s.regs.co.d ∧ ReadsAs s 0x0D0 s.regs.co.pb ∧ ReadsAs s 0x0D8 s.regs.co.pr) ∧
    (ReadsAs s 0x0E0 s.regs.q.a ∧ ReadsAs s 0x0E8 s.regs.q.b ∧ ReadsAs s 0x0F0 s.regs.q.c ∧
      ReadsAs s 0x0F8 s.regs.q.d ∧ ReadsAs s 0x100 s.regs.q.pb ∧ ReadsAs s 0x108 s.regs.q.pr) ∧
    ReadsAs s 0x110 (BitVec.ofNat 64 s.regs.cw.toNat) ∧
    ReadsAs s 0x118 s.regs.bw ∧ ReadsAs s 0x120 s.regs.bv ∧ ReadsAs s 0x128 s.regs.br

/-- R22, R24, R26, R56, R66: a write to an RW register is accepted in every state, reads back without the bits R22
marks as read-0, and leaves what every other register reads, the transactions that follow and the NaN counter alone. A
write to ID, STATUS or FAULT_CMD is answered OK and ignored. -/
def Obligations.WriteReadsBackMasked : Prop :=
  (∀ (s : State) (r : RegName) (v : Word), r.access = .rw →
    ∃ g : Regs,
      step (s.issuing (.write r.offset 8 v)) = .next { s with regs := g, response := some (.ofWrite .ok) } ∧
      g.read r = v &&& r.writable ∧
      ∀ r' : RegName, r' ≠ r → g.read r' = s.regs.read r') ∧
  (∀ (s : State) (off : Nat) (v : Word), off = 0x000 ∨ off = 0x010 ∨ off = 0x018 →
    step (s.issuing (.write off 8 v)) = .next { s with response := some (.ofWrite .ok) })

/-- R56, R57: an access that is not legal completes with a bus error, a read returning data 0, and changes no register.
R57 lists the unmapped offsets 0x130 to 0x1FF; that an offset of 0x200 or more is a bus error too is the model's choice
(assumption log 17, DESIGN CHOICE, read from R56's `legal`). -/
def Obligations.IllegalAccessIsBusError : Prop :=
  ∀ (s : State) (off size : Nat) (v : Word), off % 8 ≠ 0 ∨ 0x130 ≤ off ∨ size ≠ 8 →
    step (s.issuing (.read off size)) = .next { s with response := some (.ofRead 0 .busError) } ∧
    step (s.issuing (.write off size v)) = .next { s with response := some (.ofWrite .busError) }

/-- R22, R55: the mapped offsets are exactly the multiples of 8 up to 0x128, each one register's. -/
def Obligations.MappedOffsets : Prop :=
  (∀ off : Nat, (off % 8 = 0 ∧ off ≤ 0x128) ↔ ∃ r : RegName, r.offset = off) ∧
  (∀ r r' : RegName, r.offset = r'.offset → r = r') ∧
  (∀ r : RegName, regAt r.offset = some r)

/-- R25: SRESET = 1 performs the reset in every state; SRESET = 0 has no effect, whatever the reserved bits are. A CTRL
read returns 0. -/
def Obligations.ControlRegister : Prop :=
  ∀ (s : State) (v : Word),
    (v.toNat % 2 = 1 → step (s.issuing (.write 0x008 8 v)) =
      .next { s with regs := State.reset.regs, response := some (.ofWrite .ok) }) ∧
    (v.toNat % 2 = 0 → step (s.issuing (.write 0x008 8 v)) =
      .next { s with response := some (.ofWrite .ok) }) ∧
    ReadsAs s 0x008 0

/-- R240, R241: the hardware reset and the soft reset each leave every register at its reset value in one step, in the
fault state and in the normal state alike; so does the reset state of the model. -/
def Obligations.ResetValues : Prop :=
  let g : Regs :=
    { fault := false, cause := 0, faultCmd := 0, den := 255
      pix := ⟨⟨0, 0, 0⟩, ⟨0, 0, 0⟩, ⟨0, 0, 0⟩, ⟨0, 0, 0⟩⟩
      cv := ⟨⟨0, 0, 0⟩, ⟨0, 0, 0⟩, ⟨0, 0, 0⟩, ⟨0, 0, 0⟩⟩
      co := ⟨0, 0, 0, 0, 0, 0⟩, q := ⟨0, 0, 0, 0, 0, 0⟩, cw := 0, bw := 0, bv := 0, br := 0 }
  State.reset.regs = g ∧
  ∀ s : State,
    (∃ t, step (s.issuing .hardReset) = .next t ∧ t.regs = g ∧ t.pending = s.pending) ∧
    (∃ t, step (s.issuing (.write 0x008 8 1)) = .next t ∧ t.regs = g ∧ t.pending = s.pending ∧
      t.response = some (.ofWrite .ok)) ∧
    g.read .id = 0x4353343048573407#64 ∧ g.read .status = 0 ∧ g.read .ctrl = 0 ∧ g.read .cmd = 0

/-- R8, R14, R55: `BASE` is a multiple of 0x200, and an address-level access is the access at `addr - BASE` for exactly
the 0x200 addresses from `BASE`. -/
def Obligations.AddressesMapIntoWindow : Prop :=
  windowBase % 0x200 = 0 ∧
  (∀ (off n : Nat) (v : Word), off < 0x200 →
    memRead (windowBase + off) n = some (.read off n) ∧ memWrite (windowBase + off) n v = some (.write off n v)) ∧
  (∀ (addr n : Nat) (v : Word), addr < windowBase ∨ windowBase + 0x200 ≤ addr →
    memRead addr n = none ∧ memWrite addr n v = none)

/-- R52, R194: a codeword on the wire is its 4 bytes, most significant first, and they give it back. -/
def Obligations.CodewordWireOrder : Prop :=
  ∀ cw : Word32, ∃ b0 b1 b2 b3 : Byte,
    wireBytes cw = [b0, b1, b2, b3] ∧
    cw.toNat = b0.toNat * 2 ^ 24 + b1.toNat * 2 ^ 16 + b2.toNat * 2 ^ 8 + b3.toNat ∧
    ofWireBytes (wireBytes cw) = some cw

/-! ## Faults (60_exceptions.md) -/

/-- R212, R213: a CMD write of `v` that faults, in decoding or in its command, sets FAULT, the cause's code and
FAULT_CMD = `v`, and writes no other register. -/
def Obligations.FaultsArePrecise : Prop :=
  ∀ (v : Word) (s t : State), s.regs.fault = false → step (s.issuing (.write 0x020 8 v)) = .next t →
    t.regs.fault = true →
    ∃ c : Cause,
      t = { s with
        regs := { s.regs with fault := true, cause := c.code, faultCmd := v }
        response := some (.ofWrite .ok) }

/-- R214: in the fault state a CMD write is ignored, whatever its word; every register reads as ever and every RW
register stays writable as in the normal state. -/
def Obligations.FaultStateIsSticky : Prop :=
  ∀ s : State, s.regs.fault = true →
    (∀ v : Word, step (s.issuing (.write 0x020 8 v)) = .next { s with response := some (.ofWrite .ok) }) ∧
    (∀ r : RegName, ReadsAs s r.offset (s.regs.read r)) ∧
    (∀ (r : RegName) (v : Word), r.access = .rw → ∃ g : Regs,
      step (s.issuing (.write r.offset 8 v)) = .next { s with regs := g, response := some (.ofWrite .ok) } ∧
      g.read r = v &&& r.writable)

/-- R216: a step that leaves the fault state is a hardware reset or a soft reset and resets every register; any other
step keeps the record of the first fault. -/
def Obligations.OnlyResetLeavesFaultState : Prop :=
  ∀ s t : State, s.regs.fault = true → step s = .next t →
    (t.regs.fault = false →
      t.regs = State.reset.regs ∧
      ((∃ rest, s.pending = .hardReset :: rest) ∨
       (∃ v rest, s.pending = .write 0x008 8 v :: rest ∧ v.toNat % 2 = 1))) ∧
    (t.regs.fault = true → t.regs.cause = s.regs.cause ∧ t.regs.faultCmd = s.regs.faultCmd)

/-- R210: only a command raises a fault, and the record holds its word. -/
def Obligations.OnlyCommandsRaiseFaults : Prop :=
  ∀ s t : State, s.regs.fault = false → step s = .next t → t.regs.fault = true →
    ∃ v rest, s.pending = .write 0x020 8 v :: rest ∧ t.regs.faultCmd = v

/-- R26, R211, R212, R216: every step keeps the fault record truthful: 0 while FAULT is 0, otherwise the code of a
cause that the recorded word can raise. -/
def Obligations.StepKeepsFaultRecord : Prop :=
  ∀ s t : State, s.Inv → step s = .next t → t.Inv

/-- The fault record is truthful at reset (R241). -/
def Obligations.ResetHasFaultRecord : Prop := State.reset.Inv

/-- R102, R217: a BitField command with a width above its limit raises BAD_WIDTH, whatever its position and value. -/
def Obligations.WidthAboveLimitFaults : Prop :=
  ∀ (i : Instr) (limit : Nat) (s : State), bitLimit i = some limit → limit < i.width →
    exec i s = .next { s with regs := { s.regs with fault := true, cause := 0x02, faultCmd := encode i } }

/-- R102, R217: a get or set with a legal width and `width + lsb` above its limit raises BAD_LSB, whatever its value. -/
def Obligations.PositionAboveLimitFaults : Prop :=
  ∀ (i : Instr) (limit : Nat) (s : State), bitLimit i = some limit → hasPosition i = true →
    i.width ≤ limit → limit < i.width + i.lsb →
    exec i s = .next { s with regs := { s.regs with fault := true, cause := 0x03, faultCmd := encode i } }

/-- R109, R110, R114, R115, R181, R191: a set whose value does not fit its field, and PACK and DEQUANT with a Q register
that does not fit its field, raise VALUE_NOT_FIT. -/
def Obligations.UnfitValuesFault : Prop :=
  ∀ (width lsb : Nat) (s : State),
    (width + lsb ≤ 64 → 2 ^ width ≤ s.regs.bv.toNat → exec (.setu width lsb) s =
      .next { s with regs := { s.regs with
        fault := true, cause := 0x04, faultCmd := encode (.setu width lsb) } }) ∧
    (width + lsb ≤ 64 → ¬ InSignedRange s.regs.bv.toInt width → exec (.sets width lsb) s =
      .next { s with regs := { s.regs with
        fault := true, cause := 0x04, faultCmd := encode (.sets width lsb) } }) ∧
    (width + lsb ≤ 32 → 2 ^ width ≤ s.regs.bv.toNat → exec (.setu32 width lsb) s =
      .next { s with regs := { s.regs with
        fault := true, cause := 0x04, faultCmd := encode (.setu32 width lsb) } }) ∧
    (width + lsb ≤ 32 → ¬ InSignedRange s.regs.bv.toInt width → exec (.sets32 width lsb) s =
      .next { s with regs := { s.regs with
        fault := true, cause := 0x04, faultCmd := encode (.sets32 width lsb) } }) ∧
    (¬ FieldsFit s.regs.q →
      exec .pack s = .next { s with regs := { s.regs with fault := true, cause := 0x04, faultCmd := 0x50 } } ∧
      exec .dequant s = .next { s with regs := { s.regs with fault := true, cause := 0x04, faultCmd := 0x41 } })

/-- R130: RGB2CV raises BAD_PIXEL on DEN = 0 or a channel of any lane above DEN, CV2RGB on DEN = 0 alone. -/
def Obligations.BadPixelFaults : Prop :=
  ∀ s : State,
    ((s.regs.den = 0 ∨ ∃ k : Lane, s.regs.den.toNat < (s.regs.pix.get k).r.toNat ∨
        s.regs.den.toNat < (s.regs.pix.get k).g.toNat ∨ s.regs.den.toNat < (s.regs.pix.get k).b.toNat) →
      exec .rgb2cv s = .next { s with regs := { s.regs with fault := true, cause := 0x05, faultCmd := 0x20 } }) ∧
    (s.regs.den = 0 →
      exec .cv2rgb s = .next { s with regs := { s.regs with fault := true, cause := 0x05, faultCmd := 0x21 } })

/-- R133, R154, R180, R13: a NaN that reaches a clamp or the chroma lookup raises NAN_OPERAND. -/
def Obligations.NanOperandFaults : Prop :=
  ∀ s : State,
    (s.regs.den ≠ 0 → (∃ k : Lane, .nan ∈ linearRgb (s.regs.cv.get k)) →
      exec .cv2rgb s = .next { s with regs := { s.regs with fault := true, cause := 0x06, faultCmd := 0x21 } }) ∧
    (.nan ∈ linearLuma s.regs.co →
      exec .invxf s = .next { s with regs := { s.regs with fault := true, cause := 0x06, faultCmd := 0x31 } }) ∧
    (.nan ∈ quantInputs s.regs.co →
      exec .quant s = .next { s with regs := { s.regs with fault := true, cause := 0x06, faultCmd := 0x40 } })

/-! ## BitField codec (40_bitfield.md) -/

/-- R100, R105: FITSU, for every width of 0..64 and every BV. -/
def Obligations.FitsUnsignedResult : Prop :=
  ∀ (width : Nat) (s : State), width ≤ 64 →
    exec (.fitsu width) s =
      .next { s with regs := { s.regs with br := if s.regs.bv.toNat < 2 ^ width then 1 else 0 } }

/-- R101, R106: FITSS, for every width of 0..64 and every BV; 0 for width 0. -/
def Obligations.FitsSignedResult : Prop :=
  ∀ (width : Nat) (s : State), width ≤ 64 →
    ∃ x : Word, exec (.fitss width) s = .next { s with regs := { s.regs with br := x } } ∧
      (x = 0 ∨ x = 1) ∧ (x = 1 ↔ InSignedRange s.regs.bv.toInt width)

/-- R103, R107, R112: GETU and GETU32, bit by bit. -/
def Obligations.GetUnsignedResult : Prop :=
  ∀ (width lsb : Nat) (s : State),
    (width + lsb ≤ 64 → ∃ x : Word,
      exec (.getu width lsb) s = .next { s with regs := { s.regs with br := x } } ∧
      ∀ j : Nat, x.getLsbD j = (decide (j < width) && s.regs.bw.getLsbD (lsb + j))) ∧
    (width + lsb ≤ 32 → ∃ x : Word,
      exec (.getu32 width lsb) s = .next { s with regs := { s.regs with br := x } } ∧
      ∀ j : Nat, x.getLsbD j = (decide (j < width) && s.regs.bw.getLsbD (lsb + j)))

/-- R103, R108, R113: GETS and GETS32, as the two's complement value of the field; 0 for width 0. -/
def Obligations.GetSignedResult : Prop :=
  ∀ (width lsb : Nat) (s : State),
    (width + lsb ≤ 64 → ∃ x : Word,
      exec (.gets width lsb) s = .next { s with regs := { s.regs with br := x } } ∧
      x.toInt = signedValue (s.regs.bw.toNat / 2 ^ lsb) width) ∧
    (width + lsb ≤ 32 → ∃ x : Word,
      exec (.gets32 width lsb) s = .next { s with regs := { s.regs with br := x } } ∧
      x.toInt = signedValue (s.regs.bw.toNat / 2 ^ lsb) width)

/-- R104, R109, R114: SETU and SETU32 on a value that fits, bit by bit: the field is BV's low bits, every other bit BW's
(for SETU32 BW[31:0]'s, the upper half 0). -/
def Obligations.SetUnsignedResult : Prop :=
  ∀ (width lsb : Nat) (s : State), s.regs.bv.toNat < 2 ^ width →
    (width + lsb ≤ 64 → ∃ x : Word,
      exec (.setu width lsb) s = .next { s with regs := { s.regs with br := x } } ∧
      ∀ j : Nat, x.getLsbD j =
        if lsb ≤ j ∧ j < lsb + width then s.regs.bv.getLsbD (j - lsb) else s.regs.bw.getLsbD j) ∧
    (width + lsb ≤ 32 → ∃ x : Word,
      exec (.setu32 width lsb) s = .next { s with regs := { s.regs with br := x } } ∧
      ∀ j : Nat, x.getLsbD j =
        (decide (j < 32) &&
          if lsb ≤ j ∧ j < lsb + width then s.regs.bv.getLsbD (j - lsb) else s.regs.bw.getLsbD j))

/-- R104, R110, R115: SETS and SETS32 on a value in range, bit by bit. -/
def Obligations.SetSignedResult : Prop :=
  ∀ (width lsb : Nat) (s : State), InSignedRange s.regs.bv.toInt width →
    (width + lsb ≤ 64 → ∃ x : Word,
      exec (.sets width lsb) s = .next { s with regs := { s.regs with br := x } } ∧
      ∀ j : Nat, x.getLsbD j =
        if lsb ≤ j ∧ j < lsb + width then s.regs.bv.getLsbD (j - lsb) else s.regs.bw.getLsbD j) ∧
    (width + lsb ≤ 32 → ∃ x : Word,
      exec (.sets32 width lsb) s = .next { s with regs := { s.regs with br := x } } ∧
      ∀ j : Nat, x.getLsbD j =
        (decide (j < 32) &&
          if lsb ≤ j ∧ j < lsb + width then s.regs.bv.getLsbD (j - lsb) else s.regs.bw.getLsbD j))

/-- R116: GETU with the same WIDTH and LSB, applied to the BR of a successful SETU moved to BW, returns the BV that was
set; the same for the 32-bit commands with limit 32. -/
def Obligations.GetAfterSetUnsigned : Prop :=
  ∀ (width lsb : Nat) (s : State), s.regs.bv.toNat < 2 ^ width →
    (width + lsb ≤ 64 → ∃ t u : State,
      exec (.setu width lsb) s = .next t ∧
      exec (.getu width lsb) { t with regs := { t.regs with bw := t.regs.br } } = .next u ∧
      u.regs.br = s.regs.bv) ∧
    (width + lsb ≤ 32 → ∃ t u : State,
      exec (.setu32 width lsb) s = .next t ∧
      exec (.getu32 width lsb) { t with regs := { t.regs with bw := t.regs.br } } = .next u ∧
      u.regs.br = s.regs.bv)

/-- R117: the same for the signed commands, for every width from 1. -/
def Obligations.GetAfterSetSigned : Prop :=
  ∀ (width lsb : Nat) (s : State), InSignedRange s.regs.bv.toInt width →
    (width + lsb ≤ 64 → ∃ t u : State,
      exec (.sets width lsb) s = .next t ∧
      exec (.gets width lsb) { t with regs := { t.regs with bw := t.regs.br } } = .next u ∧
      u.regs.br = s.regs.bv) ∧
    (width + lsb ≤ 32 → ∃ t u : State,
      exec (.sets32 width lsb) s = .next t ∧
      exec (.gets32 width lsb) { t with regs := { t.regs with bw := t.regs.br } } = .next u ∧
      u.regs.br = s.regs.bv)

/-- R118: two inserts into fields that do not overlap commute, on 32 bits as on 64. -/
def Obligations.DisjointInsertsCommute : Prop :=
  ∀ (w₁ l₁ w₂ l₂ : Nat), l₁ + w₁ ≤ l₂ →
    (∀ word x y : Word, x.toNat < 2 ^ w₁ → y.toNat < 2 ^ w₂ →
      insertField (insertField word w₁ l₁ x) w₂ l₂ y = insertField (insertField word w₂ l₂ y) w₁ l₁ x) ∧
    (∀ word x y : Word32, x.toNat < 2 ^ w₁ → y.toNat < 2 ^ w₂ →
      insertField (insertField word w₁ l₁ x) w₂ l₂ y = insertField (insertField word w₂ l₂ y) w₁ l₁ x)

/-! ## Arithmetic (00_scope.md R11, R12) -/

/-- R11: each operation on two finite numbers is the exact result rounded once, to nearest, ties to even: the sum, the
difference and the product of the magnitudes' exact values, and the quotient where the divisor is not zero. Zero sums,
infinities and NaN operands are not its subject. The operations are IEEE 754's (assumption log 4, PRESUMED). -/
def Obligations.OperationsRoundExactResult : Prop :=
  ∀ (m n : Bool) (a b : Nat),
    let x : Int := if m then -(a : Int) else a
    let y : Int := if n then -(b : Int) else b
    (x + y ≠ 0 → RoundsTo (decide (x + y < 0)) (x + y).natAbs 1 (fadd (.num m a) (.num n b))) ∧
    (x - y ≠ 0 → RoundsTo (decide (x - y < 0)) (x - y).natAbs 1 (fsub (.num m a) (.num n b))) ∧
    RoundsTo (m ^^ n) (a * b) (2 ^ 1074) (fmul (.num m a) (.num n b)) ∧
    (b ≠ 0 → RoundsTo (m ^^ n) (a * 2 ^ 1074) b (fdiv (.num m a) (.num n b)))

/-- R12: `round_haz` of a finite value is an integer nearest to it, and the one of larger magnitude when the value lies
halfway. Distances are in units of `2^-1074`. -/
def Obligations.RoundHazNearestAwayFromZero : Prop :=
  ∀ (neg : Bool) (mag : Nat),
    let v : Int := if neg then -(mag : Int) else mag
    let n := roundHaz (.num neg mag)
    2 * (n * 2 ^ 1074 - v).natAbs ≤ 2 ^ 1074 ∧
    (2 * (n * 2 ^ 1074 - v).natAbs = 2 ^ 1074 → (mag : Int) < (n * 2 ^ 1074).natAbs)

/-- R53, R11: the encoding of a binary64 pattern that is no NaN gives the pattern back, so no bit of a stored number is
lost; a NaN stored takes a pattern that is a NaN. -/
def Obligations.EncodingKeepsNumbers : Prop :=
  (∀ w nan : Word, (Binary64.ofBits w).isNaN = false → (Binary64.ofBits w).toBits nan = w) ∧
  (∀ n : Nat, Binary64.ofBits (nanWord n) = .nan)

/-! ## Colour (41_colorspace.md) -/

/-- R131, R132, R135: RGB2CV on valid pixels, each coefficient the binary64 nearest to its decimal, each operation in the
order printed. -/
def Obligations.RgbToVideoResult : Prop :=
  ∀ s : State, ValidPixels s.regs →
    ∃ cv' : Quad ComponentVideo, exec .rgb2cv s = .next { s with regs := { s.regs with cv := cv' } } ∧
      ∀ k : Lane,
        let D := Binary64.ofInt s.regs.den.toNat
        let R := fdiv (.ofInt (s.regs.pix.get k).r.toNat) D
        let G := fdiv (.ofInt (s.regs.pix.get k).g.toNat) D
        let B := fdiv (.ofInt (s.regs.pix.get k).b.toNat) D
        Binary64.ofBits (cv'.get k).y =
          fadd (fadd (fmul (.ofDecimal false 299 3) R) (fmul (.ofDecimal false 587 3) G))
            (fmul (.ofDecimal false 114 3) B) ∧
        Binary64.ofBits (cv'.get k).pb =
          fadd (fsub (fmul (.ofDecimal true 168736 6) R) (fmul (.ofDecimal false 331264 6) G))
            (fmul (.ofDecimal false 5 1) B) ∧
        Binary64.ofBits (cv'.get k).pr =
          fsub (fsub (fmul (.ofDecimal false 5 1) R) (fmul (.ofDecimal false 418688 6) G))
            (fmul (.ofDecimal false 81312 6) B)

/-- R131: on valid pixels RGB2CV stores finite numbers only (no NaN can arise), and a black pixel gives exactly
(+0.0, +0.0, +0.0). -/
def Obligations.RgbToVideoIsFinite : Prop :=
  ∀ s : State, ValidPixels s.regs →
    ∃ t, exec .rgb2cv s = .next t ∧
      ∀ k : Lane,
        ((Binary64.ofBits (t.regs.cv.get k).y).Finite ∧ (Binary64.ofBits (t.regs.cv.get k).pb).Finite ∧
          (Binary64.ofBits (t.regs.cv.get k).pr).Finite) ∧
        (s.regs.pix.get k = ⟨0, 0, 0⟩ → t.regs.cv.get k = ⟨0, 0, 0⟩)

/-- R133, R134: CV2RGB when DEN is not 0 and no lane's R, G or B is a NaN: each channel is the rounded product, and lies
in 0..DEN, so nothing is lost in its 16 bits. -/
def Obligations.VideoToRgbResult : Prop :=
  ∀ s : State, s.regs.den ≠ 0 → (∀ k : Lane, .nan ∉ linearRgb (s.regs.cv.get k)) →
    ∃ pix' : Quad Pixel, exec .cv2rgb s = .next { s with regs := { s.regs with pix := pix' } } ∧
      ∀ k : Lane,
        [((pix'.get k).r.toNat : Int), (pix'.get k).g.toNat, (pix'.get k).b.toNat] =
          (linearRgb (s.regs.cv.get k)).map
            (fun x => roundHaz (fmul (clampUnit x) (.ofInt s.regs.den.toNat))) ∧
        (pix'.get k).r.toNat ≤ s.regs.den.toNat ∧ (pix'.get k).g.toNat ≤ s.regs.den.toNat ∧
        (pix'.get k).b.toNat ≤ s.regs.den.toNat

/-- R136: a lane's result depends on that lane's registers and DEN only: two states that agree on lane `k` and DEN, and
in which the command completes, get the same values in lane `k`. -/
def Obligations.LanesDoNotInteract : Prop :=
  ∀ (s s' : State) (k : Lane), s.regs.den = s'.regs.den →
    (∀ t t' : State, ValidPixels s.regs → ValidPixels s'.regs → s.regs.pix.get k = s'.regs.pix.get k →
      exec .rgb2cv s = .next t → exec .rgb2cv s' = .next t' → t.regs.cv.get k = t'.regs.cv.get k) ∧
    (∀ t t' : State, s.regs.fault = false → s'.regs.fault = false → s.regs.cv.get k = s'.regs.cv.get k →
      exec .cv2rgb s = .next t → exec .cv2rgb s' = .next t' → t.regs.fault = false → t'.regs.fault = false →
      t.regs.pix.get k = t'.regs.pix.get k)

/-- R137: at DEN = 255, RGB2CV and then CV2RGB give every channel of every valid pixel back to within 1. -/
def Obligations.ColourRoundTripWithinOne : Prop :=
  ∀ s : State, s.regs.den = 255 → ValidPixels s.regs →
    ∃ (cv' : Quad ComponentVideo) (pix' : Quad Pixel),
      exec .rgb2cv s = .next { s with regs := { s.regs with cv := cv' } } ∧
      exec .cv2rgb { s with regs := { s.regs with cv := cv' } } =
        .next { s with regs := { s.regs with cv := cv', pix := pix' } } ∧
      ∀ k : Lane,
        (((pix'.get k).r.toNat : Int) - (s.regs.pix.get k).r.toNat).natAbs ≤ 1 ∧
        (((pix'.get k).g.toNat : Int) - (s.regs.pix.get k).g.toNat).natAbs ≤ 1 ∧
        (((pix'.get k).b.toNat : Int) - (s.regs.pix.get k).b.toNat).natAbs ≤ 1

/-! ## Block transform (42_block_transform.md) -/

/-- R150, R151, R152: FWDXF in every state: it never faults. A result that is a NaN is stored as some NaN; the counter
of free NaN patterns is the model's own (assumption log 3). -/
def Obligations.ForwardTransformResult : Prop :=
  ∀ s : State, ∃ (co' : Coefficients) (n : Nat),
    exec .fwdxf s = .next { s with regs := { s.regs with co := co' }, nanCount := n } ∧
    (let Y := fun k : Lane => Binary64.ofBits (s.regs.cv.get k).y
     let mean := fun x : Lane → Binary64 => fdiv (fadd (fadd (fadd (x 0) (x 1)) (x 2)) (x 3)) (.ofInt 4)
     Binary64.ofBits co'.a = mean Y ∧
     Binary64.ofBits co'.b = fdiv (fsub (fsub (fadd (Y 1) (Y 3)) (Y 0)) (Y 2)) (.ofInt 4) ∧
     Binary64.ofBits co'.c = fdiv (fsub (fsub (fadd (Y 2) (Y 3)) (Y 0)) (Y 1)) (.ofInt 4) ∧
     Binary64.ofBits co'.d = fdiv (fsub (fsub (fadd (Y 0) (Y 3)) (Y 1)) (Y 2)) (.ofInt 4) ∧
     Binary64.ofBits co'.pb = mean (fun k => .ofBits (s.regs.cv.get k).pb) ∧
     Binary64.ofBits co'.pr = mean (fun k => .ofBits (s.regs.cv.get k).pr))

/-- R153, R154, R156: INVXF when no reconstructed luma is a NaN: each luma clamped from below at +0.0 (-0.0 kept), the
chroma copied bit for bit to every lane. -/
def Obligations.InverseTransformResult : Prop :=
  ∀ s : State, .nan ∉ linearLuma s.regs.co →
    ∃ cv' : Quad ComponentVideo, exec .invxf s = .next { s with regs := { s.regs with cv := cv' } } ∧
      [Binary64.ofBits cv'.l0.y, .ofBits cv'.l1.y, .ofBits cv'.l2.y, .ofBits cv'.l3.y] =
        (linearLuma s.regs.co).map (fun x => if x.lt (.num false 0) then .num false 0 else x) ∧
      ∀ k : Lane, (cv'.get k).pb = s.regs.co.pb ∧ (cv'.get k).pr = s.regs.co.pr

/-- R155: over the reals the formulas of R153 invert the formulas of R150 exactly, and the clamp at 0 changes nothing
where every luma is at least 0. They are the formulas the unit evaluates in binary64: the model writes them once, over an
addition, a subtraction and a division by four. -/
def Obligations.TransformInvertsExactly : Prop :=
  (∀ y : Quad ℝ,
    inverseLumaWith (· + ·) (· - ·) (forwardLumaWith (· + ·) (· - ·) (· / 4) y) = y ∧
    ((∀ k : Lane, 0 ≤ y.get k) →
      (inverseLumaWith (· + ·) (· - ·) (forwardLumaWith (· + ·) (· - ·) (· / 4) y)).map (max 0) = y)) ∧
  (∀ y : Quad Binary64, forwardLuma y = forwardLumaWith fadd fsub (fun x => fdiv x (.ofInt 4)) y) ∧
  (∀ x : Luma Binary64, inverseLuma x = (inverseLumaWith fadd fsub x).mapCheck clampLo0)

/-! ## Quantizer (43_quantizer.md) -/

/-- R170, R171, R180: QUANT when none of its six operands is a NaN. The chroma index is R172's for the platform's table. -/
def Obligations.QuantizeResult : Prop :=
  ∀ s : State, .nan ∉ quantInputs s.regs.co →
    ∃ q' : Quantized, exec .quant s = .next { s with regs := { s.regs with q := q' } } ∧
      (let bcd := fun x : Binary64 =>
         if x.lt (.ofDecimal true 3 1) then Binary64.ofDecimal true 3 1
         else if (Binary64.ofDecimal false 3 1).lt x then .ofDecimal false 3 1 else x
       q'.a.toInt = roundHaz (fmul (clampUnit (.ofBits s.regs.co.a)) (.ofInt 511)) ∧
       q'.b.toInt = roundHaz (fmul (bcd (.ofBits s.regs.co.b)) (.ofInt 50)) ∧
       q'.c.toInt = roundHaz (fmul (bcd (.ofBits s.regs.co.c)) (.ofInt 50)) ∧
       q'.d.toInt = roundHaz (fmul (bcd (.ofBits s.regs.co.d)) (.ofInt 50)) ∧
       indexOfChroma chromaLut (.ofBits s.regs.co.pb) = .ok q'.pb.toNat ∧
       indexOfChroma chromaLut (.ofBits s.regs.co.pr) = .ok q'.pr.toNat)

/-- R172: the chroma index of a finite value in any table that meets R8: 0 at or below the first entry, 15 at or above
the last, and in between the least index whose entry is nearest on exact values. Infinities saturate, a NaN faults. The
platform's table meets R8. -/
def Obligations.ChromaIndexIsNearest : Prop :=
  tableOk chromaLut = true ∧
  ∀ lut : Fin 16 → Word, tableOk lut = true →
    indexOfChroma lut .nan = .error .nanOperand ∧
    indexOfChroma lut (.inf true) = .ok 0 ∧ indexOfChroma lut (.inf false) = .ok 15 ∧
    ∀ (neg : Bool) (mag : Nat),
      let x : Int := if neg then -(mag : Int) else mag
      ∃ i : Fin 16, indexOfChroma lut (.num neg mag) = .ok i.val ∧
        (x ≤ entryUnits (lut 0) → i = 0) ∧
        (entryUnits (lut 15) ≤ x → i = 15) ∧
        (∀ j : Fin 16, (x - entryUnits (lut i)).natAbs ≤ (x - entryUnits (lut j)).natAbs) ∧
        (∀ j : Fin 16, j < i → (x - entryUnits (lut i)).natAbs < (x - entryUnits (lut j)).natAbs)

/-- R171: rounding is symmetric, `quantize_bcd(-x) = -quantize_bcd(x)`, and the extremes are exactly -15 and 15. -/
def Obligations.QuantizeBcdIsSymmetric : Prop :=
  (∀ (x : Binary64) (n : Int), quantizeBcd x = .ok n → quantizeBcd x.neg = .ok (-n) ∧ -15 ≤ n ∧ n ≤ 15) ∧
  quantizeBcd (.inf false) = .ok 15 ∧ quantizeBcd (.inf true) = .ok (-15)

/-- R173, R174, R175, R181: DEQUANT when every field fits; the chroma registers get the table's entries bit for bit. -/
def Obligations.DequantizeResult : Prop :=
  ∀ s : State, FieldsFit s.regs.q →
    ∃ co' : Coefficients, exec .dequant s = .next { s with regs := { s.regs with co := co' } } ∧
      Binary64.ofBits co'.a = fdiv (.ofInt s.regs.q.a.toNat) (.ofInt 511) ∧
      Binary64.ofBits co'.b = fdiv (.ofInt s.regs.q.b.toInt) (.ofInt 50) ∧
      Binary64.ofBits co'.c = fdiv (.ofInt s.regs.q.c.toInt) (.ofInt 50) ∧
      Binary64.ofBits co'.d = fdiv (.ofInt s.regs.q.d.toInt) (.ofInt 50) ∧
      (∀ i : Fin 16, s.regs.q.pb.toNat = i.val → co'.pb = chromaLut i) ∧
      (∀ i : Fin 16, s.regs.q.pr.toNat = i.val → co'.pr = chromaLut i)

/-- R183: re-quantization is the identity on codes, except that -16 clamps to -15; so DEQUANT and then QUANT, both
completing and changing nothing else, restore the Q registers exactly when b, c and d are not -16. -/
def Obligations.RequantizationIsIdentity : Prop :=
  (∀ q : Nat, q < 512 → quantizeA (fdiv (.ofInt q) (.ofInt 511)) = .ok q) ∧
  (∀ q : Int, -15 ≤ q → q ≤ 15 → quantizeBcd (fdiv (.ofInt q) (.ofInt 50)) = .ok q) ∧
  quantizeBcd (fdiv (.ofInt (-16)) (.ofInt 50)) = .ok (-15) ∧
  (∀ i : Fin 16, indexOfChroma chromaLut (.ofBits (chromaLut i)) = .ok i.val) ∧
  (∀ s : State, FieldsFit s.regs.q → ∃ (co' : Coefficients) (q' : Quantized),
    exec .dequant s = .next { s with regs := { s.regs with co := co' } } ∧
    exec .quant { s with regs := { s.regs with co := co' } } =
      .next { s with regs := { s.regs with co := co', q := q' } } ∧
    (q' = s.regs.q ↔
      -15 ≤ s.regs.q.b.toInt ∧ -15 ≤ s.regs.q.c.toInt ∧ -15 ≤ s.regs.q.d.toInt))

/-- R182: what QUANT leaves when it completes satisfies the field widths, so PACK and DEQUANT after it do not fault. -/
def Obligations.QuantizedFieldsFit : Prop :=
  ∀ s t : State, s.regs.fault = false → exec .quant s = .next t → t.regs.fault = false →
    t.regs.q.a.toNat ≤ 511 ∧
    (-15 ≤ t.regs.q.b.toInt ∧ t.regs.q.b.toInt ≤ 15) ∧ (-15 ≤ t.regs.q.c.toInt ∧ t.regs.q.c.toInt ≤ 15) ∧
    (-15 ≤ t.regs.q.d.toInt ∧ t.regs.q.d.toInt ≤ 15) ∧
    t.regs.q.pb.toNat ≤ 15 ∧ t.regs.q.pr.toNat ≤ 15 ∧
    (∃ u, exec .pack t = .next u ∧ u.regs.fault = false) ∧
    (∃ u, exec .dequant t = .next u ∧ u.regs.fault = false)

/-! ## Packer (44_packer.md) -/

/-- R190, R191: PACK when every field fits: the codeword as the sum of its fields. -/
def Obligations.PackResult : Prop :=
  ∀ s : State, FieldsFit s.regs.q →
    ∃ cw' : Word32, exec .pack s = .next { s with regs := { s.regs with cw := cw' } } ∧
      cw'.toNat = s.regs.q.a.toNat * 2 ^ 23 + s.regs.q.b.toNat % 32 * 2 ^ 18 + s.regs.q.c.toNat % 32 * 2 ^ 13 +
        s.regs.q.d.toNat % 32 * 2 ^ 8 + s.regs.q.pb.toNat * 2 ^ 4 + s.regs.q.pr.toNat

/-- R190, R192: UNPACK in every state: each field of the codeword, the signed ones sign-extended. -/
def Obligations.UnpackResult : Prop :=
  ∀ s : State, ∃ q' : Quantized, exec .unpack s = .next { s with regs := { s.regs with q := q' } } ∧
    q'.a.toNat = s.regs.cw.toNat / 2 ^ 23 ∧
    q'.b.toInt = signedValue (s.regs.cw.toNat / 2 ^ 18) 5 ∧
    q'.c.toInt = signedValue (s.regs.cw.toNat / 2 ^ 13) 5 ∧
    q'.d.toInt = signedValue (s.regs.cw.toNat / 2 ^ 8) 5 ∧
    q'.pb.toNat = s.regs.cw.toNat / 2 ^ 4 % 16 ∧
    q'.pr.toNat = s.regs.cw.toNat % 16

/-- R193: PACK then UNPACK restores the Q registers of every block that passes PACK's checks, and UNPACK then PACK
restores every codeword; all four complete, changing nothing else. -/
def Obligations.PackingIsBijective : Prop :=
  (∀ s : State, FieldsFit s.regs.q → ∃ cw' : Word32,
    exec .pack s = .next { s with regs := { s.regs with cw := cw' } } ∧
    exec .unpack { s with regs := { s.regs with cw := cw' } } =
      .next { s with regs := { s.regs with cw := cw', q := s.regs.q } }) ∧
  (∀ s : State, ∃ q' : Quantized,
    exec .unpack s = .next { s with regs := { s.regs with q := q' } } ∧
    exec .pack { s with regs := { s.regs with q := q' } } =
      .next { s with regs := { s.regs with q := q', cw := s.regs.cw } })

/-! ## All commands -/

/-- R245, R213: no command changes a register outside its destination set, but for STATUS and FAULT_CMD, and those only
by faulting; the host's transactions and the response are never a command's to change, nor, but for FWDXF, the counter
of free NaN patterns. -/
def Obligations.CommandsWriteOnlyDestinations : Prop :=
  ∀ (i : Instr) (s t : State), exec i s = .next t →
    (∀ r : RegName, writesReg i r = false → r ≠ .status → r ≠ .faultCmd → t.regs.read r = s.regs.read r) ∧
    (s.regs.fault = false → t.regs.fault = false →
      t.regs.read .status = s.regs.read .status ∧ t.regs.read .faultCmd = s.regs.read .faultCmd) ∧
    t.pending = s.pending ∧ t.response = s.response ∧ (i ≠ .fwdxf → t.nanCount = s.nanCount)

/-- R34, R35, R105 to R115, R245: what a command does is decided by its source registers (and the chroma table): from two states that agree
on them it faults in both with one cause or in neither, and leaves the same values in its destination registers. R245
names BW and BV for all BitField commands; here, by R34 and each command's own rule, a fits reads BV only and a get BW
only. -/
def Obligations.CommandsDependOnlyOnSources : Prop :=
  ∀ (i : Instr) (s s' t t' : State), s.regs.fault = false → s'.regs.fault = false →
    (∀ r : RegName, readsReg i r = true → s.regs.read r = s'.regs.read r) →
    exec i s = .next t → exec i s' = .next t' →
      t.regs.fault = t'.regs.fault ∧
      (t.regs.fault = true → t.regs.cause = t'.regs.cause ∧ t.regs.faultCmd = t'.regs.faultCmd) ∧
      (t.regs.fault = false → ∀ r : RegName, writesReg i r = true →
        SameValue r (t.regs.read r) (t'.regs.read r))

/-- R243: a host that compresses a block of valid pixels with RGB2CV, FWDXF, QUANT and PACK meets no fault. -/
def Obligations.ValidBlockCompresses : Prop :=
  ∀ s : State, s.regs.fault = false → ValidPixels s.regs →
    ∃ t : State, RunsTo 4 { s with pending := cmdWrites [.rgb2cv, .fwdxf, .quant, .pack] } t ∧
      t.regs.fault = false ∧ t.pending = [] ∧ t.regs.pix = s.regs.pix ∧ t.regs.den = s.regs.den

/-- R243: every codeword decompresses with UNPACK, DEQUANT, INVXF and CV2RGB without a fault when DEN is not 0, whatever
the chroma table, and each channel it leaves is at most DEN. -/
def Obligations.EveryCodewordDecompresses : Prop :=
  ∀ s : State, s.regs.fault = false → s.regs.den ≠ 0 →
    ∃ t : State, RunsTo 4 { s with pending := cmdWrites [.unpack, .dequant, .invxf, .cv2rgb] } t ∧
      t.regs.fault = false ∧ t.pending = [] ∧ t.regs.cw = s.regs.cw ∧ ValidPixels t.regs
end

