-- ==== Sys2Proof/Laws/State.lean ====
section
/-! SUPPORT. One lemma per field and update, so that no later proof unfolds a record update. -/

namespace Sys2Proof.Machine

/-! ## Taking a fault -/

@[simp] theorem Regs.faultEntry_fault (g : Regs) (c : Cause) (v : Word) : (g.faultEntry c v).fault = true := rfl
@[simp] theorem Regs.faultEntry_cause (g : Regs) (c : Cause) (v : Word) : (g.faultEntry c v).cause = c.code := rfl
@[simp] theorem Regs.faultEntry_faultCmd (g : Regs) (c : Cause) (v : Word) : (g.faultEntry c v).faultCmd = v := rfl
@[simp] theorem Regs.faultEntry_den (g : Regs) (c : Cause) (v : Word) : (g.faultEntry c v).den = g.den := rfl
@[simp] theorem Regs.faultEntry_pix (g : Regs) (c : Cause) (v : Word) : (g.faultEntry c v).pix = g.pix := rfl
@[simp] theorem Regs.faultEntry_cv (g : Regs) (c : Cause) (v : Word) : (g.faultEntry c v).cv = g.cv := rfl
@[simp] theorem Regs.faultEntry_co (g : Regs) (c : Cause) (v : Word) : (g.faultEntry c v).co = g.co := rfl
@[simp] theorem Regs.faultEntry_q (g : Regs) (c : Cause) (v : Word) : (g.faultEntry c v).q = g.q := rfl
@[simp] theorem Regs.faultEntry_cw (g : Regs) (c : Cause) (v : Word) : (g.faultEntry c v).cw = g.cw := rfl
@[simp] theorem Regs.faultEntry_bw (g : Regs) (c : Cause) (v : Word) : (g.faultEntry c v).bw = g.bw := rfl
@[simp] theorem Regs.faultEntry_bv (g : Regs) (c : Cause) (v : Word) : (g.faultEntry c v).bv = g.bv := rfl
@[simp] theorem Regs.faultEntry_br (g : Regs) (c : Cause) (v : Word) : (g.faultEntry c v).br = g.br := rfl

@[simp] theorem State.takeFault_regs (s : State) (c : Cause) (v : Word) :
    (s.takeFault c v).regs = s.regs.faultEntry c v := rfl
@[simp] theorem State.takeFault_pending (s : State) (c : Cause) (v : Word) : (s.takeFault c v).pending = s.pending := rfl
@[simp] theorem State.takeFault_response (s : State) (c : Cause) (v : Word) :
    (s.takeFault c v).response = s.response := rfl
@[simp] theorem State.takeFault_nanCount (s : State) (c : Cause) (v : Word) :
    (s.takeFault c v).nanCount = s.nanCount := rfl

/-! ## Reset, answers, the host's next transaction -/

@[simp] theorem State.resetUnit_regs (s : State) : s.resetUnit.regs = Regs.reset := rfl
@[simp] theorem State.resetUnit_pending (s : State) : s.resetUnit.pending = s.pending := rfl
@[simp] theorem State.resetUnit_response (s : State) : s.resetUnit.response = s.response := rfl
@[simp] theorem State.resetUnit_nanCount (s : State) : s.resetUnit.nanCount = s.nanCount := rfl

@[simp] theorem State.answer_regs (s : State) (r : BusResponse) : (s.answer r).regs = s.regs := rfl
@[simp] theorem State.answer_pending (s : State) (r : BusResponse) : (s.answer r).pending = s.pending := rfl
@[simp] theorem State.answer_response (s : State) (r : BusResponse) : (s.answer r).response = some r := rfl
@[simp] theorem State.answer_nanCount (s : State) (r : BusResponse) : (s.answer r).nanCount = s.nanCount := rfl

@[simp] theorem State.issuing_regs (s : State) (t : HostTxn) : (s.issuing t).regs = s.regs := rfl
@[simp] theorem State.issuing_pending (s : State) (t : HostTxn) : (s.issuing t).pending = t :: s.pending := rfl
@[simp] theorem State.issuing_response (s : State) (t : HostTxn) : (s.issuing t).response = s.response := rfl
@[simp] theorem State.issuing_nanCount (s : State) (t : HostTxn) : (s.issuing t).nanCount = s.nanCount := rfl

@[simp] theorem State.withCommand_fault (s : State) (v : Word) : (s.withCommand v).regs.fault = false := rfl
@[simp] theorem State.withCommand_pending (s : State) (v : Word) :
    (s.withCommand v).pending = .write 0x020 8 v :: s.pending := rfl

@[simp] theorem State.reset_regs : State.reset.regs = Regs.reset := rfl
@[simp] theorem Regs.reset_fault : Regs.reset.fault = false := rfl
@[simp] theorem Regs.reset_cause : Regs.reset.cause = 0 := rfl
@[simp] theorem Regs.reset_faultCmd : Regs.reset.faultCmd = 0 := rfl
@[simp] theorem Regs.reset_den : Regs.reset.den = 255 := rfl

/-! ## Lanes and fields -/

@[simp] theorem Quad.get_zero {α : Type} (x : Quad α) : x.get 0 = x.l0 := rfl
@[simp] theorem Quad.get_one {α : Type} (x : Quad α) : x.get 1 = x.l1 := rfl
@[simp] theorem Quad.get_two {α : Type} (x : Quad α) : x.get 2 = x.l2 := rfl
@[simp] theorem Quad.get_three {α : Type} (x : Quad α) : x.get 3 = x.l3 := rfl

/-- A statement about every lane is four statements. -/
theorem forall_lane {p : Lane → Prop} : (∀ k, p k) ↔ p 0 ∧ p 1 ∧ p 2 ∧ p 3 := by
  constructor
  · intro h; exact ⟨h 0, h 1, h 2, h 3⟩
  · rintro ⟨h0, h1, h2, h3⟩ k
    match k with
    | 0 => exact h0
    | 1 => exact h1
    | 2 => exact h2
    | 3 => exact h3

/-- A statement about some lane is one of four. -/
theorem exists_lane {p : Lane → Prop} : (∃ k, p k) ↔ p 0 ∨ p 1 ∨ p 2 ∨ p 3 := by
  constructor
  · rintro ⟨k, h⟩
    match k, h with
    | 0, h => exact .inl h
    | 1, h => exact .inr (.inl h)
    | 2, h => exact .inr (.inr (.inl h))
    | 3, h => exact .inr (.inr (.inr h))
  · rintro (h | h | h | h)
    · exact ⟨0, h⟩
    · exact ⟨1, h⟩
    · exact ⟨2, h⟩
    · exact ⟨3, h⟩

@[simp] theorem Quad.get_map {α β : Type} (f : α → β) (x : Quad α) (k : Lane) : (x.map f).get k = f (x.get k) := by
  match k with
  | 0 => rfl
  | 1 => rfl
  | 2 => rfl
  | 3 => rfl

@[simp] theorem Quad.get_set_same {α : Type} (x : Quad α) (v : α) (k : Lane) : (x.set v k).get k = v := by
  match k with
  | 0 => rfl
  | 1 => rfl
  | 2 => rfl
  | 3 => rfl

theorem Quad.get_set_other {α : Type} (x : Quad α) (v : α) (k j : Lane) (h : j ≠ k) : (x.set v k).get j = x.get j := by
  match k, j with
  | 0, 0 => exact absurd rfl h
  | 0, 1 => rfl
  | 0, 2 => rfl
  | 0, 3 => rfl
  | 1, 0 => rfl
  | 1, 1 => exact absurd rfl h
  | 1, 2 => rfl
  | 1, 3 => rfl
  | 2, 0 => rfl
  | 2, 1 => rfl
  | 2, 2 => exact absurd rfl h
  | 2, 3 => rfl
  | 3, 0 => rfl
  | 3, 1 => rfl
  | 3, 2 => rfl
  | 3, 3 => exact absurd rfl h

/-- `all` is a statement about every lane. -/
theorem Quad.all_eq_true {α : Type} (p : α → Bool) (x : Quad α) : x.all p = true ↔ ∀ k, p (x.get k) = true := by
  simp [Quad.all, forall_lane, and_assoc]

@[simp] theorem ComponentVideo.get_set_same (v : ComponentVideo) (w : Word) (m : Component) : (v.set w m).get m = w := by
  cases m <;> rfl

theorem ComponentVideo.get_set_other (v : ComponentVideo) (w : Word) (m n : Component) (h : n ≠ m) :
    (v.set w m).get n = v.get n := by
  cases m <;> cases n <;> first | rfl | exact absurd rfl h

@[simp] theorem Coefficients.get_set_same (x : Coefficients) (w : Word) (f : BlockField) : (x.set w f).get f = w := by
  cases f <;> rfl

theorem Coefficients.get_set_other (x : Coefficients) (w : Word) (f e : BlockField) (h : e ≠ f) :
    (x.set w f).get e = x.get e := by
  cases f <;> cases e <;> first | rfl | exact absurd rfl h

@[simp] theorem Quantized.get_set_same (x : Quantized) (w : Word) (f : BlockField) : (x.set w f).get f = w := by
  cases f <;> rfl

theorem Quantized.get_set_other (x : Quantized) (w : Word) (f e : BlockField) (h : e ≠ f) :
    (x.set w f).get e = x.get e := by
  cases f <;> cases e <;> first | rfl | exact absurd rfl h

/-- The four lane results of a checked map, if all lanes pass. -/
theorem Quad.mapCheck_eq_ok {α β : Type} (f : α → Except Cause β) (x : Quad α) (y : Quad β) :
    x.mapCheck f = .ok y ↔ ∀ k, f (x.get k) = .ok (y.get k) := by
  simp only [forall_lane, Quad.get_zero, Quad.get_one, Quad.get_two, Quad.get_three]
  unfold Quad.mapCheck
  cases f x.l0 <;> cases f x.l1 <;> cases f x.l2 <;> cases f x.l3 <;>
    simp [Quad.ext_iff]

/-- A checked map fails where some lane fails, with that lane's cause. -/
theorem Quad.mapCheck_eq_error {α β : Type} (f : α → Except Cause β) (x : Quad α) (c : Cause) :
    x.mapCheck f = .error c → ∃ k, f (x.get k) = .error c := by
  simp only [exists_lane, Quad.get_zero, Quad.get_one, Quad.get_two, Quad.get_three]
  unfold Quad.mapCheck
  cases f x.l0 <;> cases f x.l1 <;> cases f x.l2 <;> cases f x.l3 <;> simp <;> intro h <;> simp [h]

end Sys2Proof.Machine
end

