-- ==== Sys2Proof/Laws/Ops.lean ====
section
/-! SUPPORT. What each shared operation can do, said once: checks in sequence, the shape of a command (`finish`), the
register map, and the transactions. -/

namespace Sys2Proof.Machine

/-! ## Checks -/

@[simp] theorem andThen_ok {α β : Type} (a : α) (f : α → Except Cause β) : andThen (.ok a) f = f a := rfl
@[simp] theorem andThen_error {α β : Type} (c : Cause) (f : α → Except Cause β) : andThen (.error c) f = .error c := rfl

theorem andThen_eq_ok {α β : Type} (x : Except Cause α) (f : α → Except Cause β) (b : β) :
    andThen x f = .ok b ↔ ∃ a, x = .ok a ∧ f a = .ok b := by
  cases x <;> simp [andThen]

theorem andThen_eq_error {α β : Type} (x : Except Cause α) (f : α → Except Cause β) (c : Cause) :
    andThen x f = .error c ↔ x = .error c ∨ ∃ a, x = .ok a ∧ f a = .error c := by
  cases x <;> simp [andThen]

@[simp] theorem require_true (c : Cause) : require true c = .ok () := rfl
@[simp] theorem require_false (c : Cause) : require false c = .error c := rfl

theorem require_eq_ok (ok : Bool) (c : Cause) (u : Unit) : require ok c = .ok u ↔ ok = true := by
  cases ok <;> simp [require]

theorem require_eq_error (ok : Bool) (c d : Cause) : require ok c = .error d ↔ ok = false ∧ c = d := by
  cases ok <;> simp [require]

theorem checkWidth_eq_ok (width limit : Nat) (u : Unit) : checkWidth width limit = .ok u ↔ width ≤ limit := by
  simp [checkWidth]

theorem checkWidth_of_le {width limit : Nat} (h : width ≤ limit) : checkWidth width limit = .ok () := by
  simp [checkWidth, Nat.not_lt.mpr h]

theorem checkWidth_of_lt {width limit : Nat} (h : limit < width) : checkWidth width limit = .error .badWidth := by
  simp [checkWidth, h]

theorem checkField_eq_ok (width lsb limit : Nat) (u : Unit) :
    checkField width lsb limit = .ok u ↔ width + lsb ≤ limit := by
  unfold checkField
  split
  · simp; omega
  · split <;> simp <;> omega

theorem checkField_of_le {width lsb limit : Nat} (h : width + lsb ≤ limit) : checkField width lsb limit = .ok () :=
  (checkField_eq_ok ..).mpr h

theorem checkField_of_width {width lsb limit : Nat} (h : limit < width) :
    checkField width lsb limit = .error .badWidth := by
  simp [checkField, h]

theorem checkField_of_lsb {width lsb limit : Nat} (h : width ≤ limit) (h' : limit < width + lsb) :
    checkField width lsb limit = .error .badLsb := by
  simp [checkField, Nat.not_lt.mpr h, h']

/-- The three things a field check can answer (R102). -/
theorem checkField_cases (width lsb limit : Nat) :
    (limit < width ∧ checkField width lsb limit = .error .badWidth) ∨
    (width ≤ limit ∧ limit < width + lsb ∧ checkField width lsb limit = .error .badLsb) ∨
    (width + lsb ≤ limit ∧ checkField width lsb limit = .ok ()) := by
  by_cases h : limit < width
  · exact .inl ⟨h, checkField_of_width h⟩
  · by_cases h' : limit < width + lsb
    · exact .inr (.inl ⟨by omega, h', checkField_of_lsb (by omega) h'⟩)
    · exact .inr (.inr ⟨by omega, checkField_of_le (by omega)⟩)

/-! ## The shape of a command -/

@[simp] theorem finish_ok (v : Word) (g : Regs) (s : State) : finish v (.ok g) s = .next { s with regs := g } := rfl
@[simp] theorem finish_error (v : Word) (c : Cause) (s : State) :
    finish v (.error c) s = .next (s.takeFault c v) := rfl

/-- Everything `finish` can do: take a fault, or leave the registers the command computed. -/
theorem finish_eq_next (v : Word) (o : Except Cause Regs) (s t : State) :
    finish v o s = .next t ↔
      (∃ c, o = .error c ∧ t = s.takeFault c v) ∨ (∃ g, o = .ok g ∧ t = { s with regs := g }) := by
  cases o <;> simp [eq_comm]

/-! ## The register map -/

theorem regAt_id : regAt 0x000 = some .id := rfl
theorem regAt_ctrl : regAt 0x008 = some .ctrl := rfl
theorem regAt_status : regAt 0x010 = some .status := rfl
theorem regAt_faultCmd : regAt 0x018 = some .faultCmd := rfl
theorem regAt_cmd : regAt 0x020 = some .cmd := rfl

/-- Every register is in the table of R22. -/
theorem mem_allRegs (r : RegName) : r ∈ allRegs := by
  cases r with
  | pix k => match k with
    | 0 | 1 | 2 | 3 => decide
  | cv k m => match k with
    | 0 | 1 | 2 | 3 => cases m <;> decide
  | co f => cases f <;> decide
  | q f => cases f <;> decide
  | _ => decide

/-- A statement about every register is a statement about the table of R22. -/
theorem forall_reg {p : RegName → Prop} (h : ∀ r ∈ allRegs, p r) (r : RegName) : p r := h r (mem_allRegs r)

/-- A register found at an offset has that offset. -/
theorem offset_of_regAt {off : Nat} {r : RegName} (h : regAt off = some r) : r.offset = off := by
  have := List.find?_some h
  simpa using this

/-! ## Stores leave the record alone -/

@[simp] theorem Regs.store_fault (g : Regs) (v : Word) (r : RegName) : (g.store v r).fault = g.fault := by
  cases r <;> rfl
@[simp] theorem Regs.store_cause (g : Regs) (v : Word) (r : RegName) : (g.store v r).cause = g.cause := by
  cases r <;> rfl
@[simp] theorem Regs.store_faultCmd (g : Regs) (v : Word) (r : RegName) : (g.store v r).faultCmd = g.faultCmd := by
  cases r <;> rfl

/-! ## Transactions -/

theorem step_idle {s : State} (h : s.pending = []) : step s = .next s := by
  simp [step, performNext, h]

theorem step_txn {s : State} {t : HostTxn} {rest : List HostTxn} (h : s.pending = t :: rest) :
    step s = performTxn exec t { s with pending := rest } := by
  simp [step, performNext, h]

@[simp] theorem step_issuing (s : State) (t : HostTxn) : step (s.issuing t) = performTxn exec t s := rfl

@[simp] theorem performTxn_read (p : Instr → State → Out) (off size : Nat) (s : State) :
    performTxn p (.read off size) s = .next (s.answer (busRead s.regs off size)) := rfl

@[simp] theorem performTxn_hardReset (p : Instr → State → Out) (s : State) :
    performTxn p .hardReset s = .next { s.resetUnit with response := none } := rfl

/-- A write of the bus's width at a mapped offset is the register's write, its response already given. -/
theorem performTxn_write {p : Instr → State → Out} {off : Nat} {v : Word} {s : State} {r : RegName}
    (hl : legalAccess off 8 = true) (h : regAt off = some r) :
    performTxn p (.write off 8 v) s = writeReg p r v (s.answer (.ofWrite .ok)) := by
  simp [performTxn, h, hl]

theorem performTxn_writeCmd (p : Instr → State → Out) (v : Word) (s : State) :
    performTxn p (.write 0x020 8 v) s = writeCmd p v (s.answer (.ofWrite .ok)) := rfl

theorem performTxn_writeCtrl (p : Instr → State → Out) (v : Word) (s : State) :
    performTxn p (.write 0x008 8 v) s = .next (writeCtrl v (s.answer (.ofWrite .ok))) := rfl

theorem writeCmd_faulted (p : Instr → State → Out) (v : Word) {s : State} (h : s.regs.fault = true) :
    writeCmd p v s = .next s := by
  simp [writeCmd, h]

theorem writeCmd_ok (p : Instr → State → Out) {v : Word} {i : Instr} {s : State} (h : s.regs.fault = false)
    (hd : decode v = .ok i) : writeCmd p v s = p i s := by
  simp [writeCmd, h, hd]

theorem writeCmd_illegal (p : Instr → State → Out) {v : Word} {e : Reject} {s : State} (h : s.regs.fault = false)
    (hd : decode v = .error e) : writeCmd p v s = .next (s.takeFault .illegalCmd v) := by
  simp [writeCmd, h, hd]

/-- Everything a transaction can do: answer without touching a register; reset; store a word in an RW register; or write
CMD. -/
theorem performTxn_cases (p : Instr → State → Out) (t : HostTxn) (s : State) :
    (∃ a, performTxn p t s = .next { s with response := a }) ∨
    ((t = .hardReset ∨ ∃ v : Word, t = .write 0x008 8 v ∧ v.getLsbD 0 = true) ∧
      ∃ a, performTxn p t s = .next { s with regs := Regs.reset, response := a }) ∨
    (∃ r v, performTxn p t s = .next { s with regs := s.regs.store v r, response := some (.ofWrite .ok) }) ∨
    (∃ v, t = .write 0x020 8 v ∧ performTxn p t s = writeCmd p v (s.answer (.ofWrite .ok))) := by
  cases t with
  | read off size => exact .inl ⟨_, rfl⟩
  | hardReset => exact .inr (.inl ⟨.inl rfl, none, rfl⟩)
  | write off size v =>
    by_cases hl : legalAccess off size = true
    · have hs : size = 8 := by simp [legalAccess] at hl; exact hl.2
      subst hs
      cases hr : regAt off with
      | none => exact .inl ⟨some (.ofWrite .busError), by simp [performTxn, hr, hl, State.answer]⟩
      | some r =>
        rw [performTxn_write hl hr]
        have ho := offset_of_regAt hr
        cases r with
        | cmd => exact .inr (.inr (.inr ⟨v, by rw [← ho]; rfl, rfl⟩))
        | ctrl =>
          by_cases hv : v.getLsbD 0 = true
          · exact .inr (.inl ⟨.inr ⟨v, by rw [← ho]; rfl, hv⟩, some (.ofWrite .ok), by
              rw [writeReg, writeCtrl, if_pos hv, State.answer, State.resetUnit]⟩)
          · exact .inl ⟨some (.ofWrite .ok), by rw [writeReg, writeCtrl, if_neg hv, State.answer]⟩
        | id => exact .inr (.inr (.inl ⟨.id, v, rfl⟩))
        | status => exact .inr (.inr (.inl ⟨.status, v, rfl⟩))
        | faultCmd => exact .inr (.inr (.inl ⟨.faultCmd, v, rfl⟩))
        | den => exact .inr (.inr (.inl ⟨.den, v, rfl⟩))
        | pix k => exact .inr (.inr (.inl ⟨.pix k, v, rfl⟩))
        | cv k m => exact .inr (.inr (.inl ⟨.cv k m, v, rfl⟩))
        | co f => exact .inr (.inr (.inl ⟨.co f, v, rfl⟩))
        | q f => exact .inr (.inr (.inl ⟨.q f, v, rfl⟩))
        | cw => exact .inr (.inr (.inl ⟨.cw, v, rfl⟩))
        | bw => exact .inr (.inr (.inl ⟨.bw, v, rfl⟩))
        | bv => exact .inr (.inr (.inl ⟨.bv, v, rfl⟩))
        | br => exact .inr (.inr (.inl ⟨.br, v, rfl⟩))
    · exact .inl ⟨some (.ofWrite .busError), by simp [performTxn, hl, State.answer]⟩

end Sys2Proof.Machine
end

