-- ==== Sys2Proof/Laws/BitField.lean ====
section
/-! SUPPORT. The BitField functions, bit by bit and as numbers. -/

namespace Sys2Proof.Machine

theorem mask_getLsbD (n w j : Nat) : (mask n w).getLsbD j = (decide (j < n) && decide (j < w)) := by
  rw [mask, BitVec.getLsbD_ofNat, Nat.testBit_two_pow_sub_one]

/-- R103 bit by bit. -/
theorem extractField_getLsbD (word : Word) (width lsb j : Nat) :
    (extractField word width lsb).getLsbD j = (decide (j < width) && word.getLsbD (lsb + j)) := by
  rw [extractField, BitVec.getLsbD_and, mask_getLsbD, BitVec.getLsbD_ushiftRight]
  by_cases h : j < 64
  · simp [h, Bool.and_comm]
  · simp [h, BitVec.getLsbD_of_ge word (lsb + j) (by omega)]

/-- R103 as a number. -/
theorem extractField_toNat (word : Word) (width lsb : Nat) :
    (extractField word width lsb).toNat = word.toNat / 2 ^ lsb % 2 ^ width := by
  apply Nat.eq_of_testBit_eq
  intro j
  rw [← BitVec.getLsbD, extractField_getLsbD, Nat.testBit_mod_two_pow, Nat.testBit_div_two_pow, BitVec.getLsbD,
    Nat.add_comm]

/-- R104 bit by bit, for a value that fits its field. -/
theorem insertField_getLsbD {n : Nat} (word value : BitVec n) {width : Nat} (lsb j : Nat)
    (h : value.toNat < 2 ^ width) :
    (insertField word width lsb value).getLsbD j =
      (decide (j < n) &&
        if lsb ≤ j ∧ j < lsb + width then value.getLsbD (j - lsb) else word.getLsbD j) := by
  have hv : ∀ i, width ≤ i → value.getLsbD i = false := by
    intro i hi
    rw [BitVec.getLsbD]
    exact Nat.testBit_lt_two_pow (lt_of_lt_of_le h (Nat.pow_le_pow_right (by norm_num) hi))
  rw [insertField, BitVec.getLsbD_or, BitVec.getLsbD_and, BitVec.getLsbD_not, BitVec.getLsbD_shiftLeft,
    BitVec.getLsbD_shiftLeft, mask_getLsbD]
  by_cases hn : j < n
  · by_cases h1 : j < lsb
    · simp [hn, h1, Nat.not_le.mpr h1]
    · by_cases h2 : j < lsb + width
      · have h3 : j - lsb < n := by omega
        have h4 : j - lsb < width := by omega
        simp [hn, h1, h2, h3, h4, Nat.le_of_not_lt h1]
      · have h4 : ¬ j - lsb < width := by omega
        simp [hn, h1, h2, h4, hv (j - lsb) (by omega)]
  · simp [hn, BitVec.getLsbD_of_ge word j (by omega)]

/-! ## Range checks -/

/-- R100: at width 64 every u64 fits. -/
theorem fitsUnsigned_iff (v : Word) (width : Nat) : fitsUnsigned v width = true ↔ v.toNat < 2 ^ width := by
  have := v.isLt
  simp only [fitsUnsigned, Bool.or_eq_true, beq_iff_eq, decide_eq_true_eq]
  constructor
  · rintro (rfl | h)
    · exact this
    · exact h
  · exact .inr

/-- R101 for an i64: at width 64 every i64 fits, at width 0 none does. -/
theorem fitsSigned_iff (v : Word) (width : Nat) : fitsSigned (asI64 v) width = true ↔ InSignedRange v.toInt width := by
  have h1 := BitVec.le_toInt v
  have h2 := @BitVec.toInt_lt 64 v
  unfold fitsSigned InSignedRange asI64
  by_cases h0 : width = 0
  · simp [h0]
  · by_cases h64 : width = 64
    · subst h64
      simp only [Nat.reduceSub] at *
      simp
      omega
    · simp only [h0, h64, if_false, Bool.and_eq_true, decide_eq_true_eq]
      exact ⟨fun ⟨a, b⟩ => ⟨by omega, a, b⟩, fun ⟨_, a, b⟩ => ⟨a, b⟩⟩

/-- R103, signed, as a number. -/
theorem extractSigned_eq (word : Word) (width lsb : Nat) :
    extractSigned word width lsb = signedValue (word.toNat / 2 ^ lsb) width := by
  unfold extractSigned signedValue
  simp only [extractField_toNat]
  by_cases h0 : width = 0
  · subst h0
    simp [Nat.mod_one]
  · have hbit : (extractField word width lsb).getLsbD (width - 1) =
        decide (2 ^ (width - 1) ≤ word.toNat / 2 ^ lsb % 2 ^ width) := by
      rw [BitVec.getLsbD, extractField_toNat, Nat.testBit_eq_decide_div_mod_eq]
      have hlt : word.toNat / 2 ^ lsb % 2 ^ width < 2 ^ width := Nat.mod_lt _ (by positivity)
      have hw : 2 ^ width = 2 * 2 ^ (width - 1) := by
        rw [← pow_succ']; congr 1; omega
      congr 1
      apply propext
      generalize word.toNat / 2 ^ lsb % 2 ^ width = x at *
      have hpos : 0 < 2 ^ (width - 1) := by positivity
      constructor
      · intro h
        by_contra hc
        rw [Nat.div_eq_of_lt (by omega)] at h
        omega
      · intro h
        have : x / 2 ^ (width - 1) = 1 := by
          apply Nat.div_eq_of_lt_le <;> omega
        rw [this]
    rw [hbit]
    by_cases hge : 2 ^ (width - 1) ≤ word.toNat / 2 ^ lsb % 2 ^ width
    · simp [h0, hge, Nat.not_lt.mpr hge, Nat.pos_of_ne_zero h0]
    · simp [h0, hge, Nat.lt_of_not_le hge]

/-- The value of a field of at most 64 bits is an i64. -/
theorem signedValue_bounds (u : Nat) {width : Nat} (h : width ≤ 64) :
    -(2 : Int) ^ 63 ≤ signedValue u width ∧ signedValue u width < (2 : Int) ^ 63 := by
  unfold signedValue
  split
  · norm_num
  · have hlt : u % 2 ^ width < 2 ^ width := Nat.mod_lt _ (by positivity)
    have hw : 2 ^ width = 2 * 2 ^ (width - 1) := by
      rw [← pow_succ']; congr 1; omega
    have hle : 2 ^ (width - 1) ≤ 2 ^ 63 := Nat.pow_le_pow_right (by norm_num) (by omega)
    have hc : ((2 : Int) ^ width) = ((2 ^ width : Nat) : Int) := by push_cast; ring
    rw [hc]
    generalize u % 2 ^ width = x at *
    generalize 2 ^ (width - 1) = y at *
    split <;> constructor <;> omega

/-- Storing an i64 and reading it back. -/
theorem toInt_asU64 {x : Int} (h1 : -(2 : Int) ^ 63 ≤ x) (h2 : x < (2 : Int) ^ 63) : (asU64 x).toInt = x := by
  rw [asU64, BitVec.toInt_ofInt]
  apply Int.bmod_eq_of_le <;> norm_num at * <;> omega

theorem asU64_asI64 (u : Word) : asU64 (asI64 u) = u := by
  rw [asU64, asI64, BitVec.ofInt_toInt]

end Sys2Proof.Machine
end

