-- ==== Sys2Proof/Laws/Commands.lean ====
section
/-! SUPPORT. What a command can do, said once for all of them: take a fault that its row of R211 allows, or leave registers
that differ from the old ones in its destination set only (R213, R245). -/

namespace Sys2Proof.Machine

/-- `g'` differs from `g` at most in the destination registers of `i`; the fault record is the same. -/
structure OnlyDestination (i : Instr) (g g' : Regs) : Prop where
  fault : g'.fault = g.fault
  cause : g'.cause = g.cause
  faultCmd : g'.faultCmd = g.faultCmd
  others : ∀ r : RegName, writesReg i r = false → g'.read r = g.read r

/-- A command that ends in `finish` takes the cause its checks give, or leaves the registers they give. -/
theorem finish_cases {i : Instr} {o : Except Cause Regs} {s : State} (hc : ∀ c, o = .error c → MayRaise c i)
    (hg : ∀ g, o = .ok g → OnlyDestination i s.regs g) :
    (∃ c, MayRaise c i ∧ finish (encode i) o s = .next (s.takeFault c (encode i))) ∨
    (∃ g, OnlyDestination i s.regs g ∧ finish (encode i) o s = .next { s with regs := g }) := by
  cases o with
  | error c => exact .inl ⟨c, hc c rfl, rfl⟩
  | ok g => exact .inr ⟨g, hg g rfl, rfl⟩

theorem onlyDestination_br (i : Instr) (h : ∀ r, writesReg i r = false → r ≠ .br) (g : Regs) (x : Word) :
    OnlyDestination i g { g with br := x } := by
  refine ⟨rfl, rfl, rfl, fun r hr => ?_⟩
  have := h r hr
  cases r <;> first | exact absurd rfl this | rfl

theorem onlyDestination_cv (i : Instr) (h : ∀ k m, writesReg i (.cv k m) = true) (g : Regs) (x : Quad ComponentVideo) :
    OnlyDestination i g { g with cv := x } := by
  refine ⟨rfl, rfl, rfl, fun r hr => ?_⟩
  cases r with
  | cv k m => rw [h] at hr; cases hr
  | _ => rfl

theorem onlyDestination_pix (i : Instr) (h : ∀ k, writesReg i (.pix k) = true) (g : Regs) (x : Quad Pixel) :
    OnlyDestination i g { g with pix := x } := by
  refine ⟨rfl, rfl, rfl, fun r hr => ?_⟩
  cases r with
  | pix k => rw [h] at hr; cases hr
  | _ => rfl

theorem onlyDestination_co (i : Instr) (h : ∀ f, writesReg i (.co f) = true) (g : Regs) (x : Coefficients) :
    OnlyDestination i g { g with co := x } := by
  refine ⟨rfl, rfl, rfl, fun r hr => ?_⟩
  cases r with
  | co f => rw [h] at hr; cases hr
  | _ => rfl

theorem onlyDestination_q (i : Instr) (h : ∀ f, writesReg i (.q f) = true) (g : Regs) (x : Quantized) :
    OnlyDestination i g { g with q := x } := by
  refine ⟨rfl, rfl, rfl, fun r hr => ?_⟩
  cases r with
  | q f => rw [h] at hr; cases hr
  | _ => rfl

theorem onlyDestination_cw (i : Instr) (h : writesReg i .cw = true) (g : Regs) (x : Word32) :
    OnlyDestination i g { g with cw := x } := by
  refine ⟨rfl, rfl, rfl, fun r hr => ?_⟩
  cases r with
  | cw => rw [h] at hr; cases hr
  | _ => rfl

/-! ## The causes of the checks -/

theorem clamp_error {x lo hi : Binary64} {c : Cause} (h : clamp x lo hi = .error c) : c = .nanOperand := by
  unfold clamp at h
  split at h
  · exact (Except.error.inj h).symm
  · split at h
    · cases h
    · split at h <;> cases h

theorem clampLo0_error {x : Binary64} {c : Cause} (h : clampLo0 x = .error c) : c = .nanOperand := by
  unfold clampLo0 at h
  split at h
  · exact (Except.error.inj h).symm
  · split at h <;> cases h

theorem cvToRgb_error {den : BitVec 16} {v : ComponentVideo} {c : Cause} (h : cvToRgb den v = .error c) :
    c = .nanOperand := by
  simp only [cvToRgb, channelOf, andThen_eq_error] at h
  rcases h with (h | ⟨_, _, h⟩) | ⟨_, _, (h | ⟨_, _, h⟩) | ⟨_, _, (h | ⟨_, _, h⟩) | ⟨_, _, h⟩⟩⟩ <;>
    first | exact clamp_error h | cases h

theorem quantizeBlock_error {lut : Fin 16 → Word} {co : Coefficients} {c : Cause}
    (h : quantizeBlock lut co = .error c) : c = .nanOperand := by
  have hi : ∀ x, indexOfChroma lut x = .error c → c = .nanOperand := by
    intro x h
    unfold indexOfChroma at h
    split at h
    · exact (Except.error.inj h).symm
    · cases h
  simp only [quantizeBlock, quantizeA, quantizeBcd, andThen_eq_error] at h
  rcases h with (h | ⟨_, _, h⟩) | ⟨_, _, (h | ⟨_, _, h⟩) | ⟨_, _, (h | ⟨_, _, h⟩) | ⟨_, _, (h | ⟨_, _, h⟩) |
    ⟨_, _, h | ⟨_, _, h | ⟨_, _, h⟩⟩⟩⟩⟩⟩ <;> first | exact clamp_error h | exact hi _ h | cases h

theorem fieldCheck_error {q : Quantized} {c : Cause} (h : fieldCheck q = .error c) : c = .valueNotFit := by
  simp only [fieldCheck, andThen_eq_error, require_eq_error] at h
  rcases h with h | ⟨_, _, h | ⟨_, _, h | ⟨_, _, h | ⟨_, _, h | ⟨_, _, h⟩⟩⟩⟩⟩ <;> exact h.2.symm

/-- The causes of a get: the width before the position (R102). -/
theorem get_cases {i : Instr} {limit : Nat} {o : Except Cause Regs} (hl : bitLimit i = some limit)
    (hp : hasPosition i = true) {c : Cause}
    (h : andThen (checkField i.width i.lsb limit) (fun _ => o) = .error c) :
    MayRaise c i ∨ (i.width + i.lsb ≤ limit ∧ o = .error c) := by
  rcases checkField_cases i.width i.lsb limit with ⟨hw, e⟩ | ⟨hw, hs, e⟩ | ⟨hw, e⟩ <;> rw [e] at h
  · obtain rfl := Except.error.inj h; exact .inl ⟨limit, hl, hw⟩
  · obtain rfl := Except.error.inj h; exact .inl ⟨limit, hl, hp, hw, hs⟩
  · exact .inr ⟨hw, h⟩

/-- The causes of a set: those of a get, then the value's (R102, R109). -/
theorem set_cases {i : Instr} {limit : Nat} {ok : Bool} {g : Regs} (hl : bitLimit i = some limit)
    (hp : hasPosition i = true) (hs : isSet i = true) {c : Cause}
    (h : andThen (checkField i.width i.lsb limit)
      (fun _ => andThen (require ok .valueNotFit) fun _ => .ok g) = .error c) : MayRaise c i := by
  rcases get_cases hl hp h with h | ⟨hw, h⟩
  · exact h
  · cases ok
    · obtain rfl := Except.error.inj h; exact .inl ⟨limit, hl, hs, hw⟩
    · cases h

/-- What a checked command leaves is what its last line says. -/
theorem get_ok {width lsb limit : Nat} {g g' : Regs}
    (h : andThen (checkField width lsb limit) (fun _ => .ok g) = .ok g') : g' = g := by
  obtain ⟨_, _, h⟩ := (andThen_eq_ok ..).mp h
  exact (Except.ok.inj h).symm

theorem set_ok {width lsb limit : Nat} {ok : Bool} {c : Cause} {g g' : Regs}
    (h : andThen (checkField width lsb limit) (fun _ => andThen (require ok c) fun _ => .ok g) = .ok g') : g' = g := by
  obtain ⟨_, _, h⟩ := (andThen_eq_ok ..).mp h
  obtain ⟨_, _, h⟩ := (andThen_eq_ok ..).mp h
  exact (Except.ok.inj h).symm

theorem fits_ok {width limit : Nat} {g g' : Regs}
    (h : andThen (checkWidth width limit) (fun _ => .ok g) = .ok g') : g' = g := by
  obtain ⟨_, _, h⟩ := (andThen_eq_ok ..).mp h
  exact (Except.ok.inj h).symm

theorem fits_cases {i : Instr} {limit : Nat} {g : Regs} (hl : bitLimit i = some limit) {c : Cause}
    (h : andThen (checkWidth i.width limit) (fun _ => (.ok g : Except Cause Regs)) = .error c) : MayRaise c i := by
  by_cases hw : limit < i.width
  · rw [checkWidth_of_lt hw] at h
    obtain rfl := Except.error.inj h
    exact ⟨limit, hl, hw⟩
  · rw [checkWidth_of_le (by omega)] at h
    cases h

/-- What any command can do. Only FWDXF uses free NaN patterns. -/
theorem exec_cases (i : Instr) (s : State) :
    (∃ c, MayRaise c i ∧ exec i s = .next (s.takeFault c (encode i))) ∨
    (∃ g, OnlyDestination i s.regs g ∧
      (exec i s = .next { s with regs := g } ∨
       (i = .fwdxf ∧ exec i s = .next { s with regs := g, nanCount := s.nanCount + 6 }))) := by
  have lift : ∀ {i : Instr} {s : State}, (∃ c, MayRaise c i ∧ exec i s = .next (s.takeFault c (encode i))) ∨
      (∃ g, OnlyDestination i s.regs g ∧ exec i s = .next { s with regs := g }) →
      (∃ c, MayRaise c i ∧ exec i s = .next (s.takeFault c (encode i))) ∨
      (∃ g, OnlyDestination i s.regs g ∧
        (exec i s = .next { s with regs := g } ∨
         (i = .fwdxf ∧ exec i s = .next { s with regs := g, nanCount := s.nanCount + 6 }))) := by
    rintro i s (h | ⟨g, h1, h2⟩)
    · exact .inl h
    · exact .inr ⟨g, h1, .inl h2⟩
  have br : ∀ {i : Instr}, (∀ r, writesReg i r = (r == .br)) → ∀ r, writesReg i r = false → r ≠ .br := by
    intro i h r hr hb
    subst hb
    rw [h] at hr
    cases hr
  cases i with
  | fitsu w => exact lift (finish_cases (fun _ h => fits_cases (i := .fitsu w) rfl h)
      fun _ h => fits_ok h ▸ onlyDestination_br _ (br fun _ => rfl) _ _)
  | fitss w => exact lift (finish_cases (fun _ h => fits_cases (i := .fitss w) rfl h)
      fun _ h => fits_ok h ▸ onlyDestination_br _ (br fun _ => rfl) _ _)
  | getu w l => exact lift (finish_cases
      (fun _ h => (get_cases (i := .getu w l) rfl rfl h).resolve_right fun h => by cases h.2)
      fun _ h => get_ok h ▸ onlyDestination_br _ (br fun _ => rfl) _ _)
  | gets w l => exact lift (finish_cases
      (fun _ h => (get_cases (i := .gets w l) rfl rfl h).resolve_right fun h => by cases h.2)
      fun _ h => get_ok h ▸ onlyDestination_br _ (br fun _ => rfl) _ _)
  | setu w l => exact lift (finish_cases (fun _ h => set_cases (i := .setu w l) rfl rfl rfl h)
      fun _ h => set_ok h ▸ onlyDestination_br _ (br fun _ => rfl) _ _)
  | sets w l => exact lift (finish_cases (fun _ h => set_cases (i := .sets w l) rfl rfl rfl h)
      fun _ h => set_ok h ▸ onlyDestination_br _ (br fun _ => rfl) _ _)
  | getu32 w l => exact lift (finish_cases
      (fun _ h => (get_cases (i := .getu32 w l) rfl rfl h).resolve_right fun h => by cases h.2)
      fun _ h => get_ok h ▸ onlyDestination_br _ (br fun _ => rfl) _ _)
  | gets32 w l => exact lift (finish_cases
      (fun _ h => (get_cases (i := .gets32 w l) rfl rfl h).resolve_right fun h => by cases h.2)
      fun _ h => get_ok h ▸ onlyDestination_br _ (br fun _ => rfl) _ _)
  | setu32 w l => exact lift (finish_cases (fun _ h => set_cases (i := .setu32 w l) rfl rfl rfl h)
      fun _ h => set_ok h ▸ onlyDestination_br _ (br fun _ => rfl) _ _)
  | sets32 w l => exact lift (finish_cases (fun _ h => set_cases (i := .sets32 w l) rfl rfl rfl h)
      fun _ h => set_ok h ▸ onlyDestination_br _ (br fun _ => rfl) _ _)
  | rgb2cv =>
    refine lift (finish_cases (fun c h => ?_) fun g h => ?_)
    · simp only [pixelCheck, denCheck, andThen_eq_error, require_eq_error] at h
      rcases h with (h | ⟨_, _, h⟩) | ⟨_, _, h⟩
      · exact h.2 ▸ .inl rfl
      · exact h.2 ▸ .inl rfl
      · cases h
    · obtain ⟨_, _, h⟩ := (andThen_eq_ok ..).mp h
      exact Except.ok.inj h ▸ onlyDestination_cv _ (fun _ _ => rfl) _ _
  | cv2rgb =>
    refine lift (finish_cases (fun c h => ?_) fun g h => ?_)
    · simp only [denCheck, andThen_eq_error, require_eq_error] at h
      rcases h with h | ⟨_, _, h | ⟨_, _, h⟩⟩
      · exact h.2 ▸ .inr rfl
      · obtain ⟨k, h⟩ := Quad.mapCheck_eq_error _ _ _ h
        exact cvToRgb_error h ▸ .inl rfl
      · cases h
    · obtain ⟨_, _, h⟩ := (andThen_eq_ok ..).mp h
      obtain ⟨_, _, h⟩ := (andThen_eq_ok ..).mp h
      exact Except.ok.inj h ▸ onlyDestination_pix _ (fun _ => rfl) _ _
  | fwdxf => exact .inr ⟨_, onlyDestination_co .fwdxf (fun _ => rfl) s.regs _, .inr ⟨rfl, rfl⟩⟩
  | invxf =>
    refine lift (finish_cases (fun c h => ?_) fun g h => ?_)
    · simp only [inverseLuma, andThen_eq_error] at h
      rcases h with h | ⟨_, _, h⟩
      · obtain ⟨k, h⟩ := Quad.mapCheck_eq_error _ _ _ h
        exact clampLo0_error h ▸ .inr (.inl rfl)
      · cases h
    · obtain ⟨_, _, h⟩ := (andThen_eq_ok ..).mp h
      exact Except.ok.inj h ▸ onlyDestination_cv _ (fun _ _ => rfl) _ _
  | quant =>
    refine lift (finish_cases (fun c h => ?_) fun g h => ?_)
    · rcases (andThen_eq_error ..).mp h with h | ⟨_, _, h⟩
      · exact quantizeBlock_error h ▸ .inr (.inr rfl)
      · cases h
    · obtain ⟨_, _, h⟩ := (andThen_eq_ok ..).mp h
      exact Except.ok.inj h ▸ onlyDestination_q _ (fun _ => rfl) _ _
  | dequant =>
    refine lift (finish_cases (fun c h => ?_) fun g h => ?_)
    · rcases (andThen_eq_error ..).mp h with h | ⟨_, _, h⟩
      · exact fieldCheck_error h ▸ .inr (.inr rfl)
      · cases h
    · obtain ⟨_, _, h⟩ := (andThen_eq_ok ..).mp h
      exact Except.ok.inj h ▸ onlyDestination_co _ (fun _ => rfl) _ _
  | pack =>
    refine lift (finish_cases (fun c h => ?_) fun g h => ?_)
    · rcases (andThen_eq_error ..).mp h with h | ⟨_, _, h⟩
      · exact fieldCheck_error h ▸ .inr (.inl rfl)
      · cases h
    · obtain ⟨_, _, h⟩ := (andThen_eq_ok ..).mp h
      exact Except.ok.inj h ▸ onlyDestination_cw _ rfl _ _
  | unpack => exact .inr ⟨_, onlyDestination_q .unpack (fun _ => rfl) s.regs _, .inl rfl⟩

end Sys2Proof.Machine
end

