-- ==== Sys2Proof/Laws/Float.lean ====
section
/-! SUPPORT. Binary64: what the rounding gives, bounds of a rounded result, and the encoding of a representable number. -/

namespace Sys2Proof.Machine

theorem oneUnits_eq : oneUnits = 2 ^ 1074 := by
  rw [oneUnits]; exact Nat.one_shiftLeft 1074
theorem overflowUnits_eq : overflowUnits = 2 ^ 2098 := by
  rw [overflowUnits]; exact Nat.one_shiftLeft 2098
theorem oneUnits_pos : 0 < oneUnits := by rw [oneUnits_eq]; exact Nat.two_pow_pos _

/-! ## The significand's place -/

theorem lt_pow_excessBits (u : Nat) : u < 2 ^ (53 + excessBits u) := by
  have h := @Nat.lt_log2_self u
  exact lt_of_lt_of_le h (Nat.pow_le_pow_right (by norm_num) (by unfold excessBits; omega))

theorem pow_le_of_excessBits {u : Nat} (h : excessBits u ≠ 0) : 2 ^ (52 + excessBits u) ≤ u := by
  have hu : u ≠ 0 := by rintro rfl; simp [excessBits] at h
  have := Nat.log2_self_le hu
  exact le_trans (Nat.pow_le_pow_right (by norm_num) (by unfold excessBits at *; omega)) this

theorem excessBits_of_lt {u : Nat} (h : u < 2 ^ 53) : excessBits u = 0 := by
  by_contra hne
  have h1 := pow_le_of_excessBits hne
  have h2 : 2 ^ 53 ≤ 2 ^ (52 + excessBits u) := Nat.pow_le_pow_right (by norm_num) (by omega)
  omega

/-- A significand of 53 bits at place `e` has that place. -/
theorem excessBits_mul_pow {c e : Nat} (h : 2 ^ 52 ≤ c) (h' : c < 2 ^ 53) : excessBits (c * 2 ^ e) = e := by
  have hlog : (c * 2 ^ e).log2 = 52 + e := by
    rw [Nat.log2_eq_iff (by positivity)]
    constructor
    · rw [pow_add]; exact Nat.mul_le_mul_right _ h
    · rw [show 52 + e + 1 = 53 + e by omega, pow_add]; exact Nat.mul_lt_mul_of_pos_right h' (by positivity)
  simp [excessBits, hlog]

/-! ## Representable magnitudes -/

/-- A representable magnitude in its normal form: a full significand, or a subnormal at place 0. -/
theorem Representable.normal {mag : Nat} (h : Representable mag) :
    ∃ c e, mag = c * 2 ^ e ∧ c < 2 ^ 53 ∧ (e = 0 ∨ 2 ^ 52 ≤ c) := by
  obtain ⟨c, e, rfl, hc⟩ := h
  induction e generalizing c with
  | zero => exact ⟨c, 0, rfl, hc, .inl rfl⟩
  | succ e ih =>
    by_cases hb : 2 ^ 52 ≤ c
    · exact ⟨c, e + 1, rfl, hc, .inr hb⟩
    · obtain ⟨c', e', h1, h2, h3⟩ := ih (2 * c) (by omega)
      exact ⟨c', e', by rw [← h1]; ring, h2, h3⟩

theorem representable_mul_pow {c : Nat} (e : Nat) (h : c < 2 ^ 53) : Representable (c * 2 ^ e) := ⟨c, e, rfl, h⟩

theorem representable_zero : Representable 0 := ⟨0, 0, rfl, by norm_num⟩

theorem representable_pow (e : Nat) : Representable (2 ^ e) := ⟨1, e, by simp, by norm_num⟩

theorem representable_oneUnits_mul {n : Nat} (h : n < 2 ^ 53) : Representable (n * oneUnits) :=
  ⟨n, 1074, by rw [oneUnits_eq], h⟩

/-- Above a representable magnitude `m * 2^e` with a full significand, the next representable is one place on. -/
theorem next_representable {m e g : Nat} (hm : e = 0 ∨ 2 ^ 52 ≤ m) (hg : Representable g) (h : m * 2 ^ e < g) :
    (m + 1) * 2 ^ e ≤ g := by
  rcases hm with rfl | hm
  · omega
  · obtain ⟨c, f, rfl, hc⟩ := hg
    have hlt : 2 ^ (52 + e) < 2 ^ (53 + f) := by
      calc 2 ^ (52 + e) = 2 ^ 52 * 2 ^ e := pow_add ..
        _ ≤ m * 2 ^ e := Nat.mul_le_mul_right _ hm
        _ < c * 2 ^ f := h
        _ ≤ 2 ^ 53 * 2 ^ f := Nat.mul_le_mul_right _ hc.le
        _ = 2 ^ (53 + f) := (pow_add ..).symm
    have hef : e ≤ f := by
      have := (Nat.pow_lt_pow_iff_right (by norm_num : 1 < 2)).mp hlt
      omega
    obtain ⟨k, rfl⟩ := Nat.exists_eq_add_of_le hef
    have hfac : c * 2 ^ (e + k) = c * 2 ^ k * 2 ^ e := by rw [pow_add]; ring
    rw [hfac] at h ⊢
    exact Nat.mul_le_mul_right _ (Nat.lt_of_mul_lt_mul_right h)

/-! ## Rounding -/

/-- What the quotient and the remainder are at the significand's place. -/
theorem quotient_place (p q : Nat) :
    p / (q * 2 ^ excessBits (p / q)) < 2 ^ 53 ∧
    (excessBits (p / q) = 0 ∨ 2 ^ 52 ≤ p / (q * 2 ^ excessBits (p / q))) := by
  set e := excessBits (p / q) with he
  have hd : p / (q * 2 ^ e) = p / q / 2 ^ e := (Nat.div_div_eq_div_mul ..).symm
  rw [hd]
  constructor
  · rw [Nat.div_lt_iff_lt_mul (by positivity), ← pow_add]
    exact lt_pow_excessBits _
  · by_cases h0 : e = 0
    · exact .inl h0
    · right
      rw [Nat.le_div_iff_mul_le (by positivity), ← pow_add]
      exact pow_le_of_excessBits h0

/-- The rounded magnitude is nearest, ties to even (R11). -/
theorem nearestMagnitude_spec (p : Nat) {q : Nat} (hq : 0 < q) : NearestEven p q (nearestMagnitude p q) := by
  obtain ⟨hm53, hm52⟩ := quotient_place p q
  unfold nearestMagnitude
  simp only [Nat.shiftLeft_eq]
  set e := excessBits (p / q) with he
  set d := q * 2 ^ e with hd
  set m := p / d with hm
  set r := p % d with hr
  have hdpos : 0 < d := by positivity
  have hrd : r < d := Nat.mod_lt _ hdpos
  have hp : d * m + r = p := Nat.div_add_mod p d
  have hlow : m * 2 ^ e * q = d * m := by rw [hd]; ring
  have hupp : (m + 1) * 2 ^ e * q = d * m + d := by rw [hd]; ring
  -- how far any representable magnitude is
  have hfar : ∀ g, Representable g → (g * q ≤ d * m ∧ (g * q = d * m → g = m * 2 ^ e)) ∨
      (d * m + d ≤ g * q ∧ (g * q = d * m + d → g = (m + 1) * 2 ^ e)) := by
    intro g hg
    by_cases h : g ≤ m * 2 ^ e
    · refine .inl ⟨by rw [← hlow]; exact Nat.mul_le_mul_right _ h, fun h' => ?_⟩
      rw [← hlow] at h'; exact Nat.eq_of_mul_eq_mul_right hq h'
    · refine .inr ⟨?_, fun h' => ?_⟩
      · rw [← hupp]; exact Nat.mul_le_mul_right _ (next_representable hm52 hg (by omega))
      · rw [← hupp] at h'; exact Nat.eq_of_mul_eq_mul_right hq h'
  by_cases hup : d < 2 * r ∨ (2 * r = d ∧ m % 2 = 1)
  · -- up
    have hif : (decide (d < 2 * r) || (2 * r == d && m % 2 == 1)) = true := by simpa using hup
    rw [if_pos (by simpa using hup)]
    refine ⟨?_, fun g hg => ?_⟩
    · by_cases hc : m + 1 < 2 ^ 53
      · exact representable_mul_pow e hc
      · have : m + 1 = 2 ^ 53 := by omega
        rw [this, ← pow_add]; exact representable_pow _
    · have hcast : (((m + 1) * 2 ^ e : Nat) * q : Int) = ((d * m + d : Nat) : Int) := by
        rw [← hupp]; push_cast; ring
      rw [hcast]
      have hgq : ((g : Int) * q) = ((g * q : Nat) : Int) := by push_cast; ring
      rw [hgq]
      rcases hfar g hg with ⟨h1, h2⟩ | ⟨h1, h2⟩
      · refine ⟨by omega, fun hne heq => ?_⟩
        have hodd : 2 * r = d ∧ m % 2 = 1 := by omega
        by_cases hc : m + 1 < 2 ^ 53
        · refine ⟨(m + 1) / 2, e, ?_, by omega, ?_⟩
          · rw [show 2 * ((m + 1) / 2) = m + 1 by omega]
          · rcases hm52 with h | h
            · exact .inl h
            · exact .inr (by omega)
        · refine ⟨2 ^ 51, e + 1, ?_, by norm_num, .inr (by norm_num)⟩
          rw [show m + 1 = 2 ^ 53 by omega]; ring
      · exact ⟨by omega, fun hne heq => absurd (h2 (by omega)) hne⟩
  · -- down
    rw [if_neg (by simpa using hup)]
    refine ⟨representable_mul_pow e hm53, fun g hg => ?_⟩
    have hcast : ((m * 2 ^ e : Nat) * q : Int) = ((d * m : Nat) : Int) := by
      rw [← hlow]; push_cast; ring
    rw [hcast]
    have hgq : ((g : Int) * q) = ((g * q : Nat) : Int) := by push_cast; ring
    rw [hgq]
    rcases hfar g hg with ⟨h1, h2⟩ | ⟨h1, h2⟩
    · exact ⟨by omega, fun hne heq => absurd (h2 (by omega)) hne⟩
    · refine ⟨by omega, fun hne heq => ?_⟩
      have heven : m % 2 = 0 := by omega
      refine ⟨m / 2, e, ?_, by omega, ?_⟩
      · rw [show 2 * (m / 2) = m by omega]
      · rcases hm52 with h | h
        · exact .inl h
        · exact .inr (by omega)

theorem nearestMagnitude_representable (p : Nat) {q : Nat} (hq : 0 < q) : Representable (nearestMagnitude p q) :=
  (nearestMagnitude_spec p hq).1

/-- Rounding does not pass a representable bound from below. -/
theorem nearestMagnitude_le {p q M : Nat} (hq : 0 < q) (hM : Representable M) (h : p ≤ M * q) :
    nearestMagnitude p q ≤ M := by
  by_contra hlt
  have hn := ((nearestMagnitude_spec p hq).2 M hM).1
  have h1 : (M + 1) * q ≤ nearestMagnitude p q * q := Nat.mul_le_mul_right _ (by omega)
  have h2 : (M + 1) * q = M * q + q := by ring
  have e1 : ((nearestMagnitude p q : Int) * q) = ((nearestMagnitude p q * q : Nat) : Int) := by push_cast; ring
  have e2 : ((M : Int) * q) = ((M * q : Nat) : Int) := by push_cast; ring
  rw [e1, e2] at hn
  omega

/-- Rounding does not pass a representable bound from above. -/
theorem le_nearestMagnitude {p q M : Nat} (hq : 0 < q) (hM : Representable M) (h : M * q ≤ p) :
    M ≤ nearestMagnitude p q := by
  by_contra hlt
  have hn := ((nearestMagnitude_spec p hq).2 M hM).1
  have h1 : (nearestMagnitude p q + 1) * q ≤ M * q := Nat.mul_le_mul_right _ (by omega)
  have h2 : (nearestMagnitude p q + 1) * q = nearestMagnitude p q * q + q := by ring
  have e1 : ((nearestMagnitude p q : Int) * q) = ((nearestMagnitude p q * q : Nat) : Int) := by push_cast; ring
  have e2 : ((M : Int) * q) = ((M * q : Nat) : Int) := by push_cast; ring
  rw [e1, e2] at hn
  omega

/-- An exact representable quotient is its own rounding. -/
theorem nearestMagnitude_exact {q M : Nat} (hq : 0 < q) (hM : Representable M) : nearestMagnitude (M * q) q = M :=
  le_antisymm (nearestMagnitude_le hq hM le_rfl) (le_nearestMagnitude hq hM le_rfl)

@[simp] theorem nearestMagnitude_zero (q : Nat) : nearestMagnitude 0 q = 0 := by
  simp [nearestMagnitude, excessBits]

/-- Everything rounding can answer. -/
theorem roundQuot_cases (neg : Bool) (p q : Nat) :
    (nearestMagnitude p q < 2 ^ 2098 ∧ roundQuot neg p q = .num neg (nearestMagnitude p q)) ∨
    (2 ^ 2098 ≤ nearestMagnitude p q ∧ roundQuot neg p q = .inf neg) := by
  unfold roundQuot
  rw [overflowUnits_eq]
  by_cases h : nearestMagnitude p q < 2 ^ 2098
  · exact .inl ⟨h, if_pos h⟩
  · exact .inr ⟨Nat.le_of_not_lt h, if_neg h⟩

theorem roundQuot_isNaN (neg : Bool) (p q : Nat) : (roundQuot neg p q).isNaN = false := by
  rcases roundQuot_cases neg p q with ⟨_, h⟩ | ⟨_, h⟩ <;> rw [h] <;> rfl

/-- The rounding of an exact result, as the statements say it (R11). -/
theorem roundQuot_roundsTo (neg : Bool) (p : Nat) {q : Nat} (hq : 0 < q) : RoundsTo neg p q (roundQuot neg p q) := by
  refine ⟨nearestMagnitude p q, nearestMagnitude_spec p hq, ?_⟩
  unfold roundQuot
  rw [overflowUnits_eq]

/-- Below a representable bound that is finite, rounding gives a number below that bound. -/
theorem roundQuot_of_le {neg : Bool} {p q M : Nat} (hq : 0 < q) (hM : Representable M) (hfin : M < 2 ^ 2098)
    (h : p ≤ M * q) : roundQuot neg p q = .num neg (nearestMagnitude p q) ∧ nearestMagnitude p q ≤ M := by
  have hle := nearestMagnitude_le hq hM h
  rcases roundQuot_cases neg p q with ⟨_, h'⟩ | ⟨h', _⟩
  · exact ⟨h', hle⟩
  · omega

/-! ## Values a register can hold -/

/-- A value of binary64: a NaN, an infinity, or a representable magnitude below `2^1024`. -/
def Binary64.Proper : Binary64 → Prop
  | .num _ mag => Representable mag ∧ mag < 2 ^ 2098
  | _ => True

theorem roundQuot_proper (neg : Bool) (p : Nat) {q : Nat} (hq : 0 < q) : (roundQuot neg p q).Proper := by
  rcases roundQuot_cases neg p q with ⟨h', h⟩ | ⟨_, h⟩ <;> rw [h]
  · exact ⟨nearestMagnitude_representable p hq, h'⟩
  · trivial

theorem zero_proper (neg : Bool) : (Binary64.num neg 0).Proper := ⟨representable_zero, by positivity⟩

theorem neg_proper {x : Binary64} (h : x.Proper) : x.neg.Proper := by
  cases x <;> exact h

theorem fadd_proper (x y : Binary64) : (fadd x y).Proper := by
  cases x <;> cases y <;> simp only [fadd] <;> first | trivial | (split <;> first | trivial | exact zero_proper _ | exact roundQuot_proper _ _ Nat.one_pos)

theorem fsub_proper (x y : Binary64) : (fsub x y).Proper := fadd_proper _ _

theorem fmul_proper (x y : Binary64) : (fmul x y).Proper := by
  cases x <;> cases y <;> simp only [fmul] <;>
    first | trivial | exact roundQuot_proper _ _ oneUnits_pos | (split <;> trivial)

theorem fdiv_proper (x y : Binary64) : (fdiv x y).Proper := by
  cases x <;> cases y <;> simp only [fdiv] <;> try trivial
  · exact zero_proper _
  · rename_i n₁ m₁ n₂ m₂
    by_cases h : m₂ = 0
    · rw [if_pos h]; split <;> trivial
    · rw [if_neg h]; exact roundQuot_proper _ _ (by omega)

theorem ofInt_proper (n : Int) : (Binary64.ofInt n).Proper := roundQuot_proper _ _ Nat.one_pos

/-- `f64(n)` is exact below `2^53` (R11). -/
theorem ofInt_exact {n : Int} (h : n.natAbs < 2 ^ 53) :
    Binary64.ofInt n = .num (decide (n < 0)) (n.natAbs * oneUnits) := by
  have hrep := representable_oneUnits_mul h
  have hlt : n.natAbs * oneUnits < 2 ^ 2098 := by
    rw [oneUnits_eq]
    calc n.natAbs * 2 ^ 1074 < 2 ^ 53 * 2 ^ 1074 := Nat.mul_lt_mul_of_pos_right h (by positivity)
      _ ≤ 2 ^ 2098 := by rw [← pow_add]; exact Nat.pow_le_pow_right (by norm_num) (by norm_num)
  obtain ⟨h1, _⟩ := roundQuot_of_le (neg := decide (n < 0)) Nat.one_pos hrep hlt (le_of_eq (Nat.mul_one _).symm)
  have h2 := nearestMagnitude_exact Nat.one_pos hrep
  rw [Nat.mul_one] at h2
  rw [Binary64.ofInt, h1, h2]

/-! ## Encoding -/

/-- The encoding of a magnitude in normal form is `e * 2^52 + c`. -/
theorem magnitudeBits_normal {c e : Nat} (hc : c < 2 ^ 53) (he : e = 0 ∨ 2 ^ 52 ≤ c) :
    magnitudeBits (c * 2 ^ e) = e * 2 ^ 52 + c := by
  have hx : excessBits (c * 2 ^ e) = e := by
    rcases he with rfl | h
    · exact excessBits_of_lt (by simpa using hc)
    · exact excessBits_mul_pow h hc
  rw [magnitudeBits, hx, Nat.shiftLeft_eq, Nat.shiftRight_eq_div_pow, Nat.mul_div_cancel _ (by positivity)]

/-- A finite magnitude's place is at most 2045. -/
theorem place_le {c e : Nat} (he : e = 0 ∨ 2 ^ 52 ≤ c) (h : c * 2 ^ e < 2 ^ 2098) : e ≤ 2045 := by
  rcases he with rfl | hc
  · omega
  · have : 2 ^ (52 + e) < 2 ^ 2098 :=
      calc 2 ^ (52 + e) = 2 ^ 52 * 2 ^ e := pow_add ..
        _ ≤ c * 2 ^ e := Nat.mul_le_mul_right _ hc
        _ < 2 ^ 2098 := h
    have := (Nat.pow_lt_pow_iff_right (by norm_num : 1 < 2)).mp this
    omega

/-- What `ofBits` reads from the number `b` of a pattern. -/
theorem ofBits_ofNat {b : Nat} (hb : b < 2 ^ 64) :
    Binary64.ofBits (BitVec.ofNat 64 b) =
      if b / 2 ^ 52 % 2048 = 2047 then
        (if b % 2 ^ 52 = 0 then .inf (decide (b / 2 ^ 63 % 2 = 1)) else .nan)
      else if b / 2 ^ 52 % 2048 = 0 then .num (decide (b / 2 ^ 63 % 2 = 1)) (b % 2 ^ 52)
      else .num (decide (b / 2 ^ 63 % 2 = 1)) ((2 ^ 52 + b % 2 ^ 52) * 2 ^ (b / 2 ^ 52 % 2048 - 1)) := by
  have h1 : (BitVec.ofNat 64 b).getLsbD 63 = decide (b / 2 ^ 63 % 2 = 1) := by
    rw [BitVec.getLsbD_ofNat, Nat.testBit_eq_decide_div_mod_eq]; rfl
  have h2 : ((BitVec.ofNat 64 b).extractLsb' 52 11).toNat = b / 2 ^ 52 % 2048 := by
    rw [BitVec.extractLsb'_toNat, BitVec.toNat_ofNat, Nat.mod_eq_of_lt hb, Nat.shiftRight_eq_div_pow]
  have h3 : ((BitVec.ofNat 64 b).extractLsb' 0 52).toNat = b % 2 ^ 52 := by
    rw [BitVec.extractLsb'_toNat, BitVec.toNat_ofNat, Nat.mod_eq_of_lt hb, Nat.shiftRight_zero]
  simp only [Binary64.ofBits, h1, h2, h3, Nat.shiftLeft_eq]
  rfl

theorem signBit_eq (neg : Bool) : signBit neg = neg.toNat * 2 ^ 63 := by cases neg <;> rfl

/-- Storing a value and reading it back gives the value; a NaN gives what its pattern is. -/
theorem ofBits_toBits (nan : Word) {x : Binary64} (hx : x.Proper) (hn : x.isNaN = false) :
    Binary64.ofBits (x.toBits nan) = x := by
  cases x with
  | nan => cases hn
  | inf neg =>
    rw [Binary64.toBits, ofBits_ofNat (by cases neg <;> decide)]
    cases neg <;> norm_num [signBit]
  | num neg mag =>
    obtain ⟨hrep, hlt⟩ := hx
    obtain ⟨c, e, rfl, hc, he⟩ := hrep.normal
    have he' := place_le he hlt
    rw [Binary64.toBits, magnitudeBits_normal hc he, signBit_eq]
    have hneg : decide ((neg.toNat * 2 ^ 63 + (e * 2 ^ 52 + c)) / 2 ^ 63 % 2 = 1) = neg := by
      cases neg
      · simp only [Bool.toNat_false, decide_eq_false_iff_not]; omega
      · simp only [Bool.toNat_true, decide_eq_true_eq]; omega
    have hb : neg.toNat * 2 ^ 63 + (e * 2 ^ 52 + c) < 2 ^ 64 := by
      have := Bool.toNat_le neg
      omega
    rw [ofBits_ofNat hb, hneg]
    have hs := Bool.toNat_le neg
    by_cases hfull : 2 ^ 52 ≤ c
    · have h1 : (neg.toNat * 2 ^ 63 + (e * 2 ^ 52 + c)) / 2 ^ 52 % 2048 = e + 1 := by omega
      have h2 : (neg.toNat * 2 ^ 63 + (e * 2 ^ 52 + c)) % 2 ^ 52 = c - 2 ^ 52 := by omega
      rw [h1, h2, if_neg (by omega), if_neg (by omega)]
      rw [show 2 ^ 52 + (c - 2 ^ 52) = c by omega, Nat.add_sub_cancel]
    · have he0 : e = 0 := by omega
      subst he0
      have h1 : (neg.toNat * 2 ^ 63 + (0 * 2 ^ 52 + c)) / 2 ^ 52 % 2048 = 0 := by omega
      have h2 : (neg.toNat * 2 ^ 63 + (0 * 2 ^ 52 + c)) % 2 ^ 52 = c := by omega
      rw [h1, h2, if_neg (by omega), if_pos rfl, pow_zero, Nat.mul_one]

/-- What a register holds is a proper value. -/
theorem ofBits_proper (w : Word) : (Binary64.ofBits w).Proper := by
  have hw : w = BitVec.ofNat 64 w.toNat := by simp
  rw [hw, ofBits_ofNat w.isLt]
  split
  · split <;> trivial
  · split
    · refine ⟨⟨w.toNat % 2 ^ 52, 0, by simp, by omega⟩, ?_⟩
      have : w.toNat % 2 ^ 52 < 2 ^ 52 := Nat.mod_lt _ (by positivity)
      exact lt_of_lt_of_le this (Nat.pow_le_pow_right (by norm_num) (by norm_num))
    · refine ⟨⟨2 ^ 52 + w.toNat % 2 ^ 52, _, rfl, by omega⟩, ?_⟩
      have h1 : 2 ^ 52 + w.toNat % 2 ^ 52 < 2 ^ 53 := by omega
      calc (2 ^ 52 + w.toNat % 2 ^ 52) * 2 ^ (w.toNat / 2 ^ 52 % 2048 - 1)
          < 2 ^ 53 * 2 ^ (w.toNat / 2 ^ 52 % 2048 - 1) := Nat.mul_lt_mul_of_pos_right h1 (by positivity)
        _ = 2 ^ (53 + (w.toNat / 2 ^ 52 % 2048 - 1)) := (pow_add ..).symm
        _ ≤ 2 ^ 2098 := Nat.pow_le_pow_right (by norm_num) (by omega)

/-- A NaN pattern is a NaN, whatever its sign and fraction. -/
theorem ofBits_nanPattern (sign : BitVec 1) (fraction : BitVec 52) :
    Binary64.ofBits (nanPattern sign fraction) = .nan := by
  unfold nanPattern
  generalize hfr : (if fraction = 0#52 then 1#52 else fraction) = fr
  have hne : fr.toNat ≠ 0 := by
    intro h
    have h0 : fr = 0#52 := BitVec.eq_of_toNat_eq h
    rw [h0] at hfr
    split at hfr
    · exact absurd hfr (by decide)
    · contradiction
  have hval : (sign ++ 0x7FF#11 ++ fr).toNat = sign.toNat * 2 ^ 63 + (2047 * 2 ^ 52 + fr.toNat) := by
    have h1 := fr.isLt
    rw [BitVec.toNat_append, BitVec.toNat_append, ← Nat.shiftLeft_add_eq_or_of_lt h1,
      ← Nat.shiftLeft_add_eq_or_of_lt (0x7FF#11).isLt]
    simp only [Nat.shiftLeft_eq, BitVec.toNat_ofNat]
    omega
  have hs := sign.isLt
  have hf := fr.isLt
  have hw : sign ++ 0x7FF#11 ++ fr = BitVec.ofNat 64 (sign.toNat * 2 ^ 63 + (2047 * 2 ^ 52 + fr.toNat)) := by
    rw [← hval]; simp
  rw [hw, ofBits_ofNat (by omega), if_pos (by omega), if_neg (by omega)]

/-- A free NaN pattern is a NaN (93_implementation_defined.md item 21). -/
theorem ofBits_nanWord (n : Nat) : Binary64.ofBits (nanWord n) = .nan := ofBits_nanPattern _ _

/-- Reading back what a command stored gives the value it computed, NaN or not. -/
theorem ofBits_encodeFloat (s : State) (slot : Nat) {x : Binary64} (hx : x.Proper) :
    Binary64.ofBits (s.encodeFloat slot x) = x := by
  cases h : x.isNaN with
  | false => exact ofBits_toBits _ hx h
  | true =>
    cases x with
    | nan => exact ofBits_nanWord _
    | inf _ => cases h
    | num _ _ => cases h

end Sys2Proof.Machine
end

