-- ==== Sys2Proof/Laws/Codec.lean ====
section
/-! SUPPORT. The checks and the scalar functions of the codec commands, said once each: which blocks pass a check, when a
clamp answers and what, and how large a rounded result can be. -/

namespace Sys2Proof.Machine

/-! ## Checks -/

/-- R181, R191: the six field checks pass exactly on the blocks that fit. -/
theorem fieldCheck_eq_ok (q : Quantized) (u : Unit) : fieldCheck q = .ok u ↔ FieldsFit q := by
  simp only [fieldCheck, andThen_eq_ok, require_eq_ok, fitsUnsigned_iff, fitsSigned_iff, FieldsFit]
  constructor
  · rintro ⟨_, h1, _, h2, _, h3, _, h4, _, h5, h6⟩
    exact ⟨h1, h2, h3, h4, h5, h6⟩
  · rintro ⟨h1, h2, h3, h4, h5, h6⟩
    exact ⟨(), h1, (), h2, (), h3, (), h4, (), h5, h6⟩

theorem fieldCheck_of_not_fit {q : Quantized} (h : ¬ FieldsFit q) : fieldCheck q = .error .valueNotFit := by
  cases hc : fieldCheck q with
  | error c => rw [fieldCheck_error hc]
  | ok u => exact absurd ((fieldCheck_eq_ok q u).mp hc) h

/-- R130: the pixel check passes exactly on valid pixels. -/
theorem pixelCheck_eq_ok (g : Regs) (u : Unit) : pixelCheck g = .ok u ↔ ValidPixels g := by
  simp only [pixelCheck, denCheck, andThen_eq_ok, require_eq_ok, Quad.all_eq_true, ValidPixels, pixelWithin,
    Bool.and_eq_true, decide_eq_true_eq, bne_iff_ne]
  constructor
  · rintro ⟨_, h, h'⟩
    exact ⟨h, fun k => ⟨(h' k).1.1, (h' k).1.2, (h' k).2⟩⟩
  · rintro ⟨h, h'⟩
    exact ⟨(), h, fun k => ⟨⟨(h' k).1, (h' k).2.1⟩, (h' k).2.2⟩⟩

theorem pixelCheck_of_not_valid {g : Regs} (h : ¬ ValidPixels g) : pixelCheck g = .error .badPixel := by
  cases hc : pixelCheck g with
  | ok u => exact absurd ((pixelCheck_eq_ok g u).mp hc) h
  | error c =>
    simp only [pixelCheck, denCheck, andThen_eq_error, require_eq_error] at hc
    rcases hc with ⟨_, h⟩ | ⟨_, _, _, h⟩ <;> rw [h]

/-! ## Clamps (R13) -/

theorem isNaN_iff (x : Binary64) : x.isNaN = true ↔ x = .nan := by cases x <;> simp [Binary64.isNaN]

theorem isNaN_of_ne {x : Binary64} (h : x ≠ .nan) : x.isNaN = false := by
  rw [← Bool.not_eq_true, isNaN_iff]; exact h

@[simp] theorem clamp_nan (lo hi : Binary64) : clamp .nan lo hi = .error .nanOperand := rfl
@[simp] theorem clampLo0_nan : clampLo0 .nan = .error .nanOperand := rfl

theorem clamp_of_not_nan {x lo hi : Binary64} (h : x ≠ .nan) :
    clamp x lo hi = .ok (if x.lt lo then lo else if hi.lt x then hi else x) := by
  unfold clamp
  rw [isNaN_of_ne h]
  simp only [Bool.false_eq_true, if_false]
  split
  · rfl
  · split <;> rfl

theorem clampLo0_of_not_nan {x : Binary64} (h : x ≠ .nan) :
    clampLo0 x = .ok (if x.lt (.num false 0) then .num false 0 else x) := by
  unfold clampLo0
  rw [isNaN_of_ne h]
  simp only [Bool.false_eq_true, if_false]
  split <;> rfl

/-! ## Numbers within a bound -/

/-- A finite value of magnitude at most `M`, in units of `2^-1074`. -/
def FiniteWithin (x : Binary64) (M : Nat) : Prop := ∃ neg mag, x = .num neg mag ∧ mag ≤ M

theorem FiniteWithin.finite {x : Binary64} {M : Nat} (h : FiniteWithin x M) : x.Finite := by
  obtain ⟨_, _, rfl, _⟩ := h
  trivial

theorem FiniteWithin.ne_nan {x : Binary64} {M : Nat} (h : FiniteWithin x M) : x ≠ .nan := by
  obtain ⟨_, _, rfl, _⟩ := h
  exact Binary64.noConfusion

theorem FiniteWithin.mono {x : Binary64} {M N : Nat} (h : FiniteWithin x M) (hle : M ≤ N) : FiniteWithin x N := by
  obtain ⟨n, m, rfl, h⟩ := h
  exact ⟨n, m, rfl, h.trans hle⟩

theorem FiniteWithin.neg {x : Binary64} {M : Nat} (h : FiniteWithin x M) : FiniteWithin x.neg M := by
  obtain ⟨n, m, rfl, h⟩ := h
  exact ⟨!n, m, rfl, h⟩

/-- Numbers below `2^1024`: what every finite binary64 is. -/
theorem FiniteWithin.of_proper {x : Binary64} (hx : x.Proper) (hf : x.Finite) : FiniteWithin x (2 ^ 2098) := by
  cases x with
  | num n m => exact ⟨n, m, rfl, hx.2.le⟩
  | nan => exact hf.elim
  | inf _ => exact hf.elim

theorem natAbs_signedUnits (n : Bool) (m : Nat) : (signedUnits n m).natAbs = m := by cases n <;> simp [signedUnits]

theorem fadd_within {x y : Binary64} {A B M : Nat} (hx : FiniteWithin x A) (hy : FiniteWithin y B)
    (hM : Representable M) (h : A + B ≤ M) (hf : M < 2 ^ 2098) : FiniteWithin (fadd x y) M := by
  obtain ⟨n, m, rfl, hm⟩ := hx
  obtain ⟨n', m', rfl, hm'⟩ := hy
  simp only [fadd]
  split
  · exact ⟨_, 0, rfl, Nat.zero_le _⟩
  · have ha : (signedUnits n m + signedUnits n' m').natAbs ≤ M * 1 := by
      have := natAbs_signedUnits n m
      have := natAbs_signedUnits n' m'
      omega
    obtain ⟨e, hle⟩ := roundQuot_of_le (neg := decide (signedUnits n m + signedUnits n' m' < 0)) Nat.one_pos hM hf ha
    exact ⟨_, _, e, hle⟩

theorem fsub_within {x y : Binary64} {A B M : Nat} (hx : FiniteWithin x A) (hy : FiniteWithin y B)
    (hM : Representable M) (h : A + B ≤ M) (hf : M < 2 ^ 2098) : FiniteWithin (fsub x y) M :=
  fadd_within hx hy.neg hM h hf

theorem fmul_within {x y : Binary64} {A B M : Nat} (hx : FiniteWithin x A) (hy : FiniteWithin y B)
    (hM : Representable M) (h : A * B ≤ M * oneUnits) (hf : M < 2 ^ 2098) : FiniteWithin (fmul x y) M := by
  obtain ⟨n, m, rfl, hm⟩ := hx
  obtain ⟨n', m', rfl, hm'⟩ := hy
  obtain ⟨e, hle⟩ := roundQuot_of_le (neg := n ^^ n') oneUnits_pos hM hf (le_trans (Nat.mul_le_mul hm hm') h)
  exact ⟨_, _, e, hle⟩

theorem fdiv_within {x : Binary64} {n : Bool} {A b M : Nat} (hx : FiniteWithin x A) (hb : b ≠ 0)
    (hM : Representable M) (h : A * oneUnits ≤ M * b) (hf : M < 2 ^ 2098) :
    FiniteWithin (fdiv x (.num n b)) M := by
  obtain ⟨n', m, rfl, hm⟩ := hx
  simp only [fdiv, if_neg hb]
  obtain ⟨e, hle⟩ := roundQuot_of_le (neg := n' ^^ n) (Nat.pos_of_ne_zero hb) hM hf
    (le_trans (Nat.mul_le_mul_right _ hm) h)
  exact ⟨_, _, e, hle⟩

theorem oneUnits_mul_lt {k : Nat} (h : k < 2 ^ 53) : k * oneUnits < 2 ^ 2098 := by
  rw [oneUnits_eq]
  calc k * 2 ^ 1074 < 2 ^ 53 * 2 ^ 1074 := Nat.mul_lt_mul_of_pos_right h (by positivity)
    _ ≤ 2 ^ 2098 := by rw [← pow_add]; exact Nat.pow_le_pow_right (by norm_num) (by norm_num)

/-- Whole bounds add up. -/
theorem fadd_within_units {x y : Binary64} {a b : Nat} (hx : FiniteWithin x (a * oneUnits))
    (hy : FiniteWithin y (b * oneUnits)) (h : a + b < 2 ^ 53) : FiniteWithin (fadd x y) ((a + b) * oneUnits) :=
  fadd_within hx hy (representable_oneUnits_mul h) (by rw [Nat.add_mul]) (oneUnits_mul_lt h)

theorem fsub_within_units {x y : Binary64} {a b : Nat} (hx : FiniteWithin x (a * oneUnits))
    (hy : FiniteWithin y (b * oneUnits)) (h : a + b < 2 ^ 53) : FiniteWithin (fsub x y) ((a + b) * oneUnits) :=
  fadd_within_units hx hy.neg h

theorem fmul_within_units {x y : Binary64} {a b : Nat} (hx : FiniteWithin x (a * oneUnits))
    (hy : FiniteWithin y (b * oneUnits)) (h : a * b < 2 ^ 53) : FiniteWithin (fmul x y) (a * b * oneUnits) :=
  fmul_within hx hy (representable_oneUnits_mul h) (le_of_eq (by ring)) (oneUnits_mul_lt h)

theorem ofU16_eq (n : BitVec 16) : ofU16 n = .num false (n.toNat * oneUnits) := by
  have := n.isLt
  rw [ofU16, ofInt_exact (by simp; omega)]
  simp

/-- A channel over its denominator is at most 1 (R132). -/
theorem channel_ratio_within {c d : BitVec 16} (hd : d ≠ 0) (h : c.toNat ≤ d.toNat) :
    FiniteWithin (fdiv (ofU16 c) (ofU16 d)) (1 * oneUnits) := by
  have hd' : d.toNat ≠ 0 := fun h => hd (BitVec.eq_of_toNat_eq h)
  have hp := oneUnits_pos
  rw [ofU16_eq, ofU16_eq]
  exact fdiv_within ⟨_, _, rfl, le_rfl⟩ (Nat.mul_ne_zero hd' hp.ne') (representable_oneUnits_mul (by norm_num))
    (by calc _ = c.toNat * (oneUnits * oneUnits) := by ring
          _ ≤ d.toNat * (oneUnits * oneUnits) := Nat.mul_le_mul_right _ h
          _ = _ := by ring) (oneUnits_mul_lt (by norm_num))

/-- Every constant of R132 is at most 1. -/
theorem rgbConstants_within :
    FiniteWithin c0_299 (1 * oneUnits) ∧ FiniteWithin c0_587 (1 * oneUnits) ∧ FiniteWithin c0_114 (1 * oneUnits) ∧
    FiniteWithin c0_168736 (1 * oneUnits) ∧ FiniteWithin c0_331264 (1 * oneUnits) ∧ FiniteWithin c0_5 (1 * oneUnits) ∧
    FiniteWithin c0_418688 (1 * oneUnits) ∧ FiniteWithin c0_081312 (1 * oneUnits) := by
  refine ⟨⟨_, _, rfl, ?_⟩, ⟨_, _, rfl, ?_⟩, ⟨_, _, rfl, ?_⟩, ⟨_, _, rfl, ?_⟩, ⟨_, _, rfl, ?_⟩, ⟨_, _, rfl, ?_⟩,
    ⟨_, _, rfl, ?_⟩, ⟨_, _, rfl, ?_⟩⟩ <;> decide +kernel

/-- A valid pixel's video is small (R131, R132). -/
theorem rgbToCv_within {p : Pixel} {d : BitVec 16} (hd : d ≠ 0)
    (h : p.r.toNat ≤ d.toNat ∧ p.g.toNat ≤ d.toNat ∧ p.b.toNat ≤ d.toNat) :
    FiniteWithin (rgbToCv p d).y (3 * oneUnits) ∧ FiniteWithin (rgbToCv p d).pb (3 * oneUnits) ∧
      FiniteWithin (rgbToCv p d).pr (3 * oneUnits) := by
  obtain ⟨a1, a2, a3, a4, a5, a6, a7, a8⟩ := rgbConstants_within
  have r := channel_ratio_within hd h.1
  have g := channel_ratio_within hd h.2.1
  have b := channel_ratio_within hd h.2.2
  have mul : ∀ {x y}, FiniteWithin x (1 * oneUnits) → FiniteWithin y (1 * oneUnits) →
      FiniteWithin (fmul x y) (1 * oneUnits) := fun hx hy => fmul_within_units hx hy (by norm_num)
  exact ⟨fadd_within_units (a := 2) (fadd_within_units (a := 1) (mul a1 r) (mul a2 g) (by norm_num)) (mul a3 b)
      (by norm_num),
    fadd_within_units (a := 2) (fsub_within_units (a := 1) (mul a4.neg r) (mul a5 g) (by norm_num)) (mul a6 b)
      (by norm_num),
    fsub_within_units (a := 2) (fsub_within_units (a := 1) (mul a6 r) (mul a7 g) (by norm_num)) (mul a8 b)
      (by norm_num)⟩

/-! ## Rounding to an integer (R12) -/

/-- `halfUp` is within half a unit, and above the value when it is half a unit away. -/
theorem halfUp_spec (m : Nat) {u : Nat} (hu : 0 < u) :
    2 * (halfUp m u * u) ≤ 2 * m + u ∧ 2 * m < 2 * (halfUp m u * u) + u := by
  have h1 := Nat.div_add_mod (2 * m + u) (2 * u)
  have h2 := Nat.mod_lt (2 * m + u) (y := 2 * u) (by omega)
  have h3 : 2 * u * ((2 * m + u) / (2 * u)) = 2 * (halfUp m u * u) := by rw [halfUp]; ring
  omega

theorem halfUp_le {m D u : Nat} (hu : 0 < u) (h : m ≤ D * u) : halfUp m u ≤ D := by
  refine Nat.le_of_lt_succ ((Nat.div_lt_iff_lt_mul (by omega)).mpr ?_)
  nlinarith

theorem roundHaz_num (n : Bool) (m : Nat) :
    roundHaz (.num n m) = if n then -(halfUp m oneUnits : Int) else halfUp m oneUnits := rfl

theorem roundHaz_neg (n : Bool) (m : Nat) : roundHaz (.num (!n) m) = -roundHaz (.num n m) := by
  cases n <;> simp [roundHaz_num]

/-- A value of magnitude at most `D` rounds to an integer of magnitude at most `D`. -/
theorem roundHaz_natAbs_le {n : Bool} {m D : Nat} (h : m ≤ D * oneUnits) : (roundHaz (.num n m)).natAbs ≤ D := by
  have hle := halfUp_le oneUnits_pos h
  rw [roundHaz_num]
  cases n
  · rw [if_neg Bool.false_ne_true, Int.natAbs_natCast]
    exact hle
  · rw [if_pos rfl, Int.natAbs_neg, Int.natAbs_natCast]
    exact hle

end Sys2Proof.Machine
end

