-- ==== Sys2Proof/Laws/PerInstr.lean ====
section
/-! SUPPORT. Laws said once per command. `EncodingShape`: the reserved bits of a command's word are 0, its low byte is the
OP of R74, and the fields its class does not use are 0 (R70, R72). -/

namespace Sys2Proof.Laws.EncodingShape

/-- The shape of the word of `i`. -/
def Statement (i : Instr) : Prop :=
  (encode i).toNat < 2 ^ 24 ∧ (encode i).toNat % 2 ^ 8 = i.opcode.toNat ∧
  (i.fieldClass = .w → (encode i).toNat < 2 ^ 16) ∧ (i.fieldClass = .n → (encode i).toNat < 2 ^ 8)

/-- The word as a number (R70). -/
theorem encode_toNat (i : Instr) :
    (encode i).toNat = i.lsb % 256 * 65536 + (i.width % 256 * 256 + i.opcode.toNat) := by
  have ho := i.opcode.isLt
  rw [encode, BitVec.toNat_setWidth, BitVec.toNat_append, BitVec.toNat_append,
    ← Nat.shiftLeft_add_eq_or_of_lt ho, ← Nat.shiftLeft_add_eq_or_of_lt (BitVec.isLt _)]
  simp only [Nat.shiftLeft_eq, BitVec.toNat_ofNat]
  omega

/-- What decides the shape: the immediates a class does not use are 0. -/
theorem of_fields {i : Instr} (hw : i.fieldClass = .w → i.lsb = 0) (hn : i.fieldClass = .n → i.width = 0 ∧ i.lsb = 0) :
    Statement i := by
  have ho := i.opcode.isLt
  refine ⟨?_, ?_, fun h => ?_, fun h => ?_⟩ <;> rw [encode_toNat]
  · omega
  · omega
  · rw [hw h]; omega
  · rw [(hn h).1, (hn h).2]; omega

theorem fitsu (width : Nat) : Statement (.fitsu width) := of_fields (fun _ => rfl) (fun h => by cases h)
theorem fitss (width : Nat) : Statement (.fitss width) := of_fields (fun _ => rfl) (fun h => by cases h)
theorem getu (width lsb : Nat) : Statement (.getu width lsb) := of_fields (fun h => by cases h) (fun h => by cases h)
theorem gets (width lsb : Nat) : Statement (.gets width lsb) := of_fields (fun h => by cases h) (fun h => by cases h)
theorem setu (width lsb : Nat) : Statement (.setu width lsb) := of_fields (fun h => by cases h) (fun h => by cases h)
theorem sets (width lsb : Nat) : Statement (.sets width lsb) := of_fields (fun h => by cases h) (fun h => by cases h)
theorem getu32 (width lsb : Nat) : Statement (.getu32 width lsb) :=
  of_fields (fun h => by cases h) (fun h => by cases h)
theorem gets32 (width lsb : Nat) : Statement (.gets32 width lsb) :=
  of_fields (fun h => by cases h) (fun h => by cases h)
theorem setu32 (width lsb : Nat) : Statement (.setu32 width lsb) :=
  of_fields (fun h => by cases h) (fun h => by cases h)
theorem sets32 (width lsb : Nat) : Statement (.sets32 width lsb) :=
  of_fields (fun h => by cases h) (fun h => by cases h)
theorem rgb2cv : Statement .rgb2cv := of_fields (fun _ => rfl) (fun _ => ⟨rfl, rfl⟩)
theorem cv2rgb : Statement .cv2rgb := of_fields (fun _ => rfl) (fun _ => ⟨rfl, rfl⟩)
theorem fwdxf : Statement .fwdxf := of_fields (fun _ => rfl) (fun _ => ⟨rfl, rfl⟩)
theorem invxf : Statement .invxf := of_fields (fun _ => rfl) (fun _ => ⟨rfl, rfl⟩)
theorem quant : Statement .quant := of_fields (fun _ => rfl) (fun _ => ⟨rfl, rfl⟩)
theorem dequant : Statement .dequant := of_fields (fun _ => rfl) (fun _ => ⟨rfl, rfl⟩)
theorem pack : Statement .pack := of_fields (fun _ => rfl) (fun _ => ⟨rfl, rfl⟩)
theorem unpack : Statement .unpack := of_fields (fun _ => rfl) (fun _ => ⟨rfl, rfl⟩)

end Sys2Proof.Laws.EncodingShape
end

