-- ==== Sys2Proof/Laws/Rounding.lean ====
section
/-! SUPPORT. How far a rounded result can lie from the exact one, as rationals: what the round trip of R137 needs. -/

namespace Sys2Proof.Machine

/-- The number is within `ε` of the rational `v`. -/
def Near (x : Binary64) (v ε : ℚ) : Prop :=
  ∃ neg mag, x = .num neg mag ∧ |(signedUnits neg mag : ℚ) / oneUnits - v| ≤ ε

theorem oneUnits_cast_pos : (0 : ℚ) < oneUnits := Nat.cast_pos.mpr oneUnits_pos

theorem Near.mono {x : Binary64} {v ε ε' : ℚ} (h : Near x v ε) (hle : ε ≤ ε') : Near x v ε' := by
  obtain ⟨n, m, e, h⟩ := h
  exact ⟨n, m, e, h.trans hle⟩

theorem Near.congr {x : Binary64} {v v' ε : ℚ} (h : Near x v ε) (hv : v = v') : Near x v' ε := hv ▸ h

theorem Near.neg {x : Binary64} {v ε : ℚ} (h : Near x v ε) : Near x.neg (-v) ε := by
  obtain ⟨n, m, rfl, h⟩ := h
  refine ⟨!n, m, rfl, ?_⟩
  have : (signedUnits (!n) m : ℚ) = -(signedUnits n m : ℚ) := by cases n <;> simp [signedUnits]
  rw [this]
  calc _ = |-((signedUnits n m : ℚ) / oneUnits - v)| := by congr 1; ring
    _ ≤ ε := by rw [abs_neg]; exact h

theorem Near.abs_le {n : Bool} {m : Nat} {v ε B : ℚ} (h : |(signedUnits n m : ℚ) / oneUnits - v| ≤ ε)
    (hv : |v| ≤ B) : |(signedUnits n m : ℚ) / oneUnits| ≤ B + ε := by
  have := abs_sub_abs_le_abs_sub ((signedUnits n m : ℚ) / oneUnits) v
  linarith

/-- Below `16` a rounding moves the value by less than `2^-48`. -/
theorem nearestMagnitude_error {p q : Nat} (hq : 0 < q) (h : p ≤ 16 * oneUnits * q) :
    |(nearestMagnitude p q : ℚ) / oneUnits - (p : ℚ) / q / oneUnits| ≤ 1 / 2 ^ 48 := by
  obtain ⟨hm53, hm52⟩ := quotient_place p q
  set e := excessBits (p / q) with he
  set m := p / (q * 2 ^ e) with hm
  have hpos : 0 < q * 2 ^ e := Nat.mul_pos hq (by positivity)
  have hlo : m * (q * 2 ^ e) ≤ p := Nat.div_mul_le_self _ _
  have hhi : p < (m + 1) * (q * 2 ^ e) := Nat.lt_mul_of_div_lt (Nat.lt_succ_self _) hpos
  have hbest := ((nearestMagnitude_spec p hq).2 (m * 2 ^ e) ⟨m, e, rfl, hm53⟩).1
  have hd : ((nearestMagnitude p q * q : Int) - p).natAbs ≤ q * 2 ^ e := by
    refine hbest.trans ?_
    have : (((m * 2 ^ e : Nat) * q : Nat) : Int) = ((m * 2 ^ e : Nat) : Int) * q := by push_cast; ring
    rw [← this]
    have h1 : (m * 2 ^ e) * q = m * (q * 2 ^ e) := by ring
    have h2 : (m + 1) * (q * 2 ^ e) = m * (q * 2 ^ e) + q * 2 ^ e := by ring
    rw [h1]
    omega
  -- the place of the significand against the bound
  have hplace : 2 ^ e * 2 ^ 48 ≤ oneUnits := by
    rcases hm52 with h0 | h52
    · rw [h0, oneUnits_eq, ← pow_add]
      exact Nat.pow_le_pow_right (by norm_num) (by norm_num)
    · have h1 : 2 ^ 52 * (q * 2 ^ e) ≤ 16 * oneUnits * q :=
        (Nat.mul_le_mul_right _ h52).trans (hlo.trans h)
      have h2 : (2 ^ e * 2 ^ 48) * (16 * q) ≤ oneUnits * (16 * q) := by
        calc _ = 2 ^ 52 * (q * 2 ^ e) := by ring
          _ ≤ _ := h1
          _ = _ := by ring
      exact Nat.le_of_mul_le_mul_right h2 (by omega)
  have hqc : (0 : ℚ) < q := Nat.cast_pos.mpr hq
  have hu := oneUnits_cast_pos
  have hdq : |(nearestMagnitude p q : ℚ) * q - p| ≤ q * 2 ^ e := by
    have := (Nat.cast_le (α := ℚ)).mpr hd
    rw [Nat.cast_natAbs] at this
    push_cast at this
    exact this
  have heq : (nearestMagnitude p q : ℚ) / oneUnits - (p : ℚ) / q / oneUnits =
      ((nearestMagnitude p q : ℚ) * q - p) / (q * oneUnits) := by
    field_simp
  rw [heq, abs_div, abs_of_pos (mul_pos hqc hu), div_le_div_iff₀ (mul_pos hqc hu) (by positivity)]
  have hp' : (2 : ℚ) ^ e * 2 ^ 48 ≤ oneUnits := by exact_mod_cast hplace
  calc _ ≤ (q * 2 ^ e : ℚ) * 2 ^ 48 := mul_le_mul_of_nonneg_right hdq (by positivity)
    _ = q * (2 ^ e * 2 ^ 48) := by ring
    _ ≤ q * oneUnits := mul_le_mul_of_nonneg_left hp' hqc.le
    _ = _ := by ring

theorem roundQuot_near {neg : Bool} {p q : Nat} (hq : 0 < q) (h : p ≤ 16 * oneUnits * q) :
    Near (roundQuot neg p q) ((if neg then -1 else 1) * ((p : ℚ) / q / oneUnits)) (1 / 2 ^ 48) := by
  obtain ⟨e, _⟩ := roundQuot_of_le (neg := neg) hq (representable_oneUnits_mul (n := 16) (by norm_num))
    (oneUnits_mul_lt (by norm_num)) h
  refine ⟨neg, _, e, ?_⟩
  have := nearestMagnitude_error hq h
  cases neg
  · simpa [signedUnits] using this
  · simp only [signedUnits, if_true]
    push_cast
    rw [← abs_neg]
    convert this using 2
    ring

theorem signedUnits_le {n : Bool} {m : Nat} {B : ℚ} (h : |(signedUnits n m : ℚ) / oneUnits| ≤ B) :
    (m : ℚ) ≤ B * oneUnits := by
  have hu := oneUnits_cast_pos
  rw [abs_div, abs_of_pos hu, div_le_iff₀ hu] at h
  have : |(signedUnits n m : ℚ)| = m := by cases n <;> simp [signedUnits]
  rwa [this] at h

theorem fadd_near {x y : Binary64} {v w ε δ : ℚ} (hx : Near x v ε) (hy : Near y w δ)
    (hb : |v| + |w| + ε + δ ≤ 16) : Near (fadd x y) (v + w) (ε + δ + 1 / 2 ^ 48) := by
  obtain ⟨n, m, rfl, hx⟩ := hx
  obtain ⟨n', m', rfl, hy⟩ := hy
  have hu := oneUnits_cast_pos
  have hsum : |((signedUnits n m + signedUnits n' m' : Int) : ℚ) / oneUnits - (v + w)| ≤ ε + δ := by
    push_cast
    calc _ = |((signedUnits n m : ℚ) / oneUnits - v) + ((signedUnits n' m' : ℚ) / oneUnits - w)| := by
          congr 1; ring
      _ ≤ _ := (abs_add_le _ _).trans (add_le_add hx hy)
  simp only [fadd]
  split
  · rename_i h0
    refine ⟨_, 0, rfl, ?_⟩
    rw [h0] at hsum
    have : ((signedUnits (n && n') 0 : Int) : ℚ) = ((0 : Int) : ℚ) := by cases n <;> cases n' <;> simp [signedUnits]
    rw [this]
    exact hsum.trans (by simp)
  · set z := signedUnits n m + signedUnits n' m' with hz
    have habs : |((z : Int) : ℚ) / oneUnits| ≤ 16 := by
      have h1 := abs_sub_abs_le_abs_sub ((z : ℚ) / oneUnits) (v + w)
      have h2 := abs_add_le v w
      linarith
    have hle : z.natAbs ≤ 16 * oneUnits * 1 := by
      rw [abs_div, abs_of_pos hu, div_le_iff₀ hu] at habs
      have : ((z.natAbs : Nat) : ℚ) = |(z : ℚ)| := by rw [Nat.cast_natAbs]; push_cast; rfl
      rw [← this] at habs
      have : ((z.natAbs : Nat) : ℚ) ≤ ((16 * oneUnits * 1 : Nat) : ℚ) := by push_cast; linarith
      exact_mod_cast this
    obtain ⟨a, b, e, hr⟩ := roundQuot_near (neg := decide (z < 0)) Nat.one_pos hle
    refine ⟨a, b, e, ?_⟩
    have hs : (if decide (z < 0) = true then (-1 : ℚ) else 1) * ((z.natAbs : ℚ) / (1 : Nat) / oneUnits) = (z : ℚ) / oneUnits := by
      have : ((z.natAbs : Nat) : ℚ) = |(z : ℚ)| := by rw [Nat.cast_natAbs]; push_cast; rfl
      rw [this]
      by_cases hneg : z < 0
      · have : (z : ℚ) < 0 := by exact_mod_cast hneg
        simp only [hneg, decide_true, if_true, abs_of_neg this]; push_cast; ring
      · have : (0 : ℚ) ≤ z := by exact_mod_cast not_lt.mp hneg
        simp only [hneg, decide_false, Bool.false_eq_true, if_false, abs_of_nonneg this]; push_cast; ring
    rw [hs] at hr
    calc _ = |((signedUnits a b : ℚ) / oneUnits - (z : ℚ) / oneUnits) + ((z : ℚ) / oneUnits - (v + w))| := by
          congr 1; ring
      _ ≤ 1 / 2 ^ 48 + (ε + δ) := (abs_add_le _ _).trans (add_le_add hr hsum)
      _ = _ := by ring

theorem fsub_near {x y : Binary64} {v w ε δ : ℚ} (hx : Near x v ε) (hy : Near y w δ)
    (hb : |v| + |w| + ε + δ ≤ 16) : Near (fsub x y) (v - w) (ε + δ + 1 / 2 ^ 48) := by
  have := fadd_near hx hy.neg (by rwa [abs_neg])
  exact this.congr (by ring)

theorem fmul_near {x y : Binary64} {v w ε δ : ℚ} (hx : Near x v ε) (hy : Near y w δ)
    (hb : (|v| + ε) * (|w| + δ) ≤ 16) :
    Near (fmul x y) (v * w) (ε * (|w| + δ) + |v| * δ + 1 / 2 ^ 48) := by
  obtain ⟨n, m, rfl, hx⟩ := hx
  obtain ⟨n', m', rfl, hy⟩ := hy
  have hu := oneUnits_cast_pos
  have ax := Near.abs_le hx le_rfl
  have ay := Near.abs_le hy le_rfl
  have e0 : 0 ≤ |v| + ε := (abs_nonneg _).trans ax
  have hm := signedUnits_le ax
  have hm' := signedUnits_le ay
  have hle : m * m' ≤ 16 * oneUnits * oneUnits := by
    have h1 : (m : ℚ) * m' ≤ (|v| + ε) * oneUnits * ((|w| + δ) * oneUnits) :=
      mul_le_mul hm hm' (Nat.cast_nonneg _) (mul_nonneg e0 hu.le)
    have h2 : (m : ℚ) * m' ≤ 16 * oneUnits * oneUnits := by
      have := mul_le_mul_of_nonneg_right hb (mul_pos hu hu).le
      linarith
    exact_mod_cast h2
  obtain ⟨a, b, e, hr⟩ := roundQuot_near (neg := n ^^ n') oneUnits_pos hle
  refine ⟨a, b, e, ?_⟩
  set X : ℚ := (signedUnits n m : ℚ) / oneUnits with hX
  set Y : ℚ := (signedUnits n' m' : ℚ) / oneUnits with hY
  have hs : (if (n ^^ n') = true then (-1 : ℚ) else 1) * (((m * m' : Nat) : ℚ) / oneUnits / oneUnits) = X * Y := by
    rw [hX, hY]
    cases n <;> cases n' <;> simp [signedUnits] <;> field_simp
  rw [hs] at hr
  have hprod : |X * Y - v * w| ≤ ε * (|w| + δ) + |v| * δ := by
    calc _ = |(X - v) * Y + v * (Y - w)| := by congr 1; ring
      _ ≤ |(X - v) * Y| + |v * (Y - w)| := abs_add_le _ _
      _ = |X - v| * |Y| + |v| * |Y - w| := by rw [abs_mul, abs_mul]
      _ ≤ _ := add_le_add (mul_le_mul hx ay (abs_nonneg _) ((abs_nonneg _).trans hx))
          (mul_le_mul_of_nonneg_left hy (abs_nonneg _))
  calc _ = |((signedUnits a b : ℚ) / oneUnits - X * Y) + (X * Y - v * w)| := by congr 1; ring
    _ ≤ 1 / 2 ^ 48 + (ε * (|w| + δ) + |v| * δ) := (abs_add_le _ _).trans (add_le_add hr hprod)
    _ = _ := by ring

/-- An integer is itself. -/
theorem ofInt_near {n : Nat} (h : n < 2 ^ 53) : Near (.ofInt n) n 0 := by
  refine ⟨_, _, ofInt_exact (n := (n : Int)) (by simpa using h), ?_⟩
  have hu := oneUnits_cast_pos.ne'
  have : ¬ ((n : Int) < 0) := by omega
  simp [signedUnits, this, hu]

/-- A channel over its denominator is near the ratio (R132). -/
theorem channel_ratio_near {c d : BitVec 16} (hd : d ≠ 0) (h : c.toNat ≤ d.toNat) :
    Near (fdiv (ofU16 c) (ofU16 d)) ((c.toNat : ℚ) / d.toNat) (1 / 2 ^ 48) := by
  have hd' : d.toNat ≠ 0 := fun h => hd (BitVec.eq_of_toNat_eq h)
  have hp := oneUnits_pos
  have hu := oneUnits_cast_pos.ne'
  have hne := Nat.mul_ne_zero hd' hp.ne'
  rw [ofU16_eq, ofU16_eq]
  simp only [fdiv, if_neg hne]
  have hle : c.toNat * oneUnits * oneUnits ≤ 16 * oneUnits * (d.toNat * oneUnits) := by
    calc _ = c.toNat * (oneUnits * oneUnits) := by ring
      _ ≤ (16 * d.toNat) * (oneUnits * oneUnits) := Nat.mul_le_mul_right _ (by omega)
      _ = _ := by ring
  refine (roundQuot_near (neg := false ^^ false) (Nat.pos_of_ne_zero hne) hle).congr ?_
  have hdc : (d.toNat : ℚ) ≠ 0 := by exact_mod_cast hd'
  simp
  field_simp

/-- A decimal literal is near its decimal (R11). -/
theorem ofDecimal_near {digits scale : Nat} (h : digits ≤ 16 * 10 ^ scale) :
    Near (.ofDecimal false digits scale) ((digits : ℚ) / 10 ^ scale) (1 / 2 ^ 48) := by
  have hu := oneUnits_cast_pos.ne'
  have hle : digits * oneUnits ≤ 16 * oneUnits * 10 ^ scale := by
    calc _ ≤ (16 * 10 ^ scale) * oneUnits := Nat.mul_le_mul_right _ h
      _ = _ := by ring
  refine (roundQuot_near (neg := false) (by positivity) hle).congr ?_
  push_cast
  field_simp

/-- The clamp to [0, 1] moves a number no further from a value in [0, 1]. -/
theorem clampUnit_near {x : Binary64} {v ε : ℚ} (hx : Near x v ε) (h0 : 0 ≤ v) (h1 : v ≤ 1) :
    Near (clampUnit x) v ε := by
  obtain ⟨n, m, rfl, hx⟩ := hx
  have hu := oneUnits_cast_pos
  have hsf : ∀ j : Nat, signedUnits false j = j := fun _ => rfl
  have hone : Binary64.ofInt 1 = .num false oneUnits := by
    rw [ofInt_exact (by norm_num)]; simp
  have hlo : ∀ z : Int, z < 0 → (z : ℚ) / oneUnits < 0 := fun z hz =>
    div_neg_of_neg_of_pos (by exact_mod_cast hz) hu
  have hhi : ∀ z : Int, (oneUnits : Int) < z → 1 < (z : ℚ) / oneUnits := fun z hz => by
    rw [lt_div_iff₀ hu, one_mul]; exact_mod_cast hz
  rw [clampUnit, hone]
  simp only [Binary64.lt, decide_eq_true_eq]
  split
  · rename_i h
    rw [hsf] at h
    refine ⟨_, _, rfl, ?_⟩
    have := hlo _ h
    rw [abs_le] at hx ⊢
    rw [hsf, Nat.cast_zero, Int.cast_zero, zero_div]
    constructor <;> linarith
  · split
    · rename_i h
      rw [hsf] at h
      refine ⟨_, _, rfl, ?_⟩
      have := hhi _ h
      rw [abs_le] at hx ⊢
      rw [hsf, Int.cast_natCast, div_self hu.ne']
      constructor <;> linarith
    · exact ⟨_, _, rfl, hx⟩

/-- A number less than a half from an integer rounds to it (R12). -/
theorem roundHaz_of_near {x : Binary64} {k : Nat} {ε : ℚ} (hx : Near x k ε) (hε : ε < 1 / 2) : roundHaz x = k := by
  obtain ⟨n, m, rfl, hx⟩ := hx
  have hu := oneUnits_cast_pos
  have hx' := lt_of_le_of_lt hx hε
  rw [abs_lt, div_sub' hu.ne', lt_div_iff₀ hu, div_lt_iff₀ hu] at hx'
  obtain ⟨h1, h2⟩ := halfUp_spec m oneUnits_pos
  have h1' : (2 : ℚ) * (halfUp m oneUnits * oneUnits) ≤ 2 * m + oneUnits := by exact_mod_cast h1
  have h2' : (2 : ℚ) * m < 2 * (halfUp m oneUnits * oneUnits) + oneUnits := by exact_mod_cast h2
  rw [roundHaz_num]
  generalize halfUp m oneUnits = j at *
  generalize (oneUnits : ℚ) = u at *
  have hm : (0 : ℚ) ≤ m := Nat.cast_nonneg _
  have hk : (0 : ℚ) ≤ k := Nat.cast_nonneg _
  have hj : (0 : ℚ) ≤ j := Nat.cast_nonneg _
  cases n
  · simp only [signedUnits, Bool.false_eq_true, if_false] at *
    push_cast at hx'
    have a1 : (j : ℚ) < k + 1 := by
      by_contra hc
      have := mul_le_mul_of_nonneg_right (not_lt.mp hc) hu.le
      nlinarith
    have a2 : (k : ℚ) < j + 1 := by
      by_contra hc
      have := mul_le_mul_of_nonneg_right (not_lt.mp hc) hu.le
      nlinarith
    have a1' : j < k + 1 := by exact_mod_cast a1
    have a2' : k < j + 1 := by exact_mod_cast a2
    omega
  · simp only [signedUnits, if_true] at *
    push_cast at hx'
    have hku : (k : ℚ) * u < 1 / 2 * u := by nlinarith
    have hk0 : k = 0 := by
      by_contra hc
      have : (1 : ℚ) ≤ k := by exact_mod_cast Nat.one_le_iff_ne_zero.mpr hc
      nlinarith
    have hj0 : j = 0 := by
      by_contra hc
      have : (1 : ℚ) ≤ j := by exact_mod_cast Nat.one_le_iff_ne_zero.mpr hc
      subst hk0
      push_cast at hx'
      nlinarith
    simp [hk0, hj0]

end Sys2Proof.Machine
end

