-- ==== Sys2Proof/Tests/Slice0.lean ====
section
/-! SUPPORT. Tests of the model on single steps and single functions. Every expected value is the spec's: the ids B1.., C1..,
X1.., QA1.., E1.. are rows of 95_test_vectors.md, P5 and P6 its programs; the command words are written out from the format of
R70 and the OP column of R74. The second half shows, for every statement with hypotheses, a state and operands that meet
them. -/

namespace Sys2Proof.Tests

open Sys2Proof Sys2Proof.Machine

/-! ## Small states and what is read off a result -/

/-- Reset, with BW and BV written. -/
def bitState (bw bv : Word) : State := { State.reset with regs := { Regs.reset with bw := bw, bv := bv } }

/-- Reset, with DEN and the same pixel in every lane. -/
def pixState (den : BitVec 16) (p : Pixel) : State :=
  { State.reset with regs := { Regs.reset with den := den, pix := Quad.all4 p } }

/-- Reset, with the same component video in every lane. -/
def cvState (y pb pr : Word) : State := { State.reset with regs := { Regs.reset with cv := Quad.all4 ⟨y, pb, pr⟩ } }

/-- Reset, with the four lumas and no chroma. -/
def lumaState (y0 y1 y2 y3 : Word) : State :=
  { State.reset with regs := { Regs.reset with cv := ⟨⟨y0, 0, 0⟩, ⟨y1, 0, 0⟩, ⟨y2, 0, 0⟩, ⟨y3, 0, 0⟩⟩ } }

/-- Reset, with the coefficients. -/
def coState (a b c d pb pr : Word) : State := { State.reset with regs := { Regs.reset with co := ⟨a, b, c, d, pb, pr⟩ } }

/-- Reset, with the quantized fields. -/
def qState (a b c d pb pr : Word) : State := { State.reset with regs := { Regs.reset with q := ⟨a, b, c, d, pb, pr⟩ } }

/-- Reset, with the codeword. -/
def cwState (cw : Word32) : State := { State.reset with regs := { Regs.reset with cw := cw } }

/-- Reset, in the fault state. -/
def faultedState : State := State.reset.takeFault .illegalCmd 0

/-- BR after a command. -/
def brAfter (o : Out) : Option Word := (nextState o).map (·.regs.br)

/-- STATUS and FAULT_CMD after a command. -/
def recordAfter (o : Out) : Option (Word × Word) :=
  (nextState o).map fun s => (s.regs.read .status, s.regs.read .faultCmd)

/-- The video of a lane after a command. -/
def videoAfter (k : Lane) (o : Out) : Option (Word × Word × Word) :=
  (nextState o).map fun s => ((s.regs.cv.get k).y, (s.regs.cv.get k).pb, (s.regs.cv.get k).pr)

/-- The lumas after a command. -/
def lumasAfter (o : Out) : Option (List Word) :=
  (nextState o).map fun s => [s.regs.cv.l0.y, s.regs.cv.l1.y, s.regs.cv.l2.y, s.regs.cv.l3.y]

/-- The pixel of a lane after a command, as PIX reads. -/
def pixelAfter (k : Lane) (o : Out) : Option Word := (nextState o).map fun s => s.regs.read (.pix k)

/-- CO_A to CO_D after a command. -/
def lumaCoAfter (o : Out) : Option (List Word) := (nextState o).map fun s => [s.regs.co.a, s.regs.co.b, s.regs.co.c, s.regs.co.d]

/-! ## Well-formedness: one ill-formed term for each check -/

theorem test_width_above_255_is_ill_formed : ¬ (Instr.fitsu 256).WellFormed ∧ (Instr.fitsu 256).widthOk = false := by decide
theorem test_lsb_above_255_is_ill_formed : ¬ (Instr.getu 0 256).WellFormed ∧ (Instr.getu 0 256).lsbOk = false := by decide
theorem test_forbidden_width_is_well_formed : (Instr.getu32 255 255).WellFormed := by decide

/-! ## Decoding: a word of every command -/

theorem test_decode_fitsu : decode 0x0000000000001001#64 = .ok (.fitsu 16) := by decide
theorem test_decode_fitss : decode 0x0000000000001002#64 = .ok (.fitss 16) := by decide
theorem test_decode_getu : decode 0x0000000000141003#64 = .ok (.getu 16 20) := by decide
theorem test_decode_gets : decode 0x0000000000141004#64 = .ok (.gets 16 20) := by decide
theorem test_decode_setu : decode 0x0000000000141005#64 = .ok (.setu 16 20) := by decide
theorem test_decode_sets : decode 0x0000000000120506#64 = .ok (.sets 5 18) := by decide
theorem test_decode_getu32 : decode 0x00000000001F0113#64 = .ok (.getu32 1 31) := by decide
theorem test_decode_gets32 : decode 0x00000000001F0114#64 = .ok (.gets32 1 31) := by decide
theorem test_decode_setu32 : decode 0x0000000000180815#64 = .ok (.setu32 8 24) := by decide
theorem test_decode_sets32 : decode 0x00000000001C0416#64 = .ok (.sets32 4 28) := by decide
theorem test_decode_rgb2cv : decode 0x0000000000000020#64 = .ok .rgb2cv := by decide
theorem test_decode_cv2rgb : decode 0x0000000000000021#64 = .ok .cv2rgb := by decide
theorem test_decode_fwdxf : decode 0x0000000000000030#64 = .ok .fwdxf := by decide
theorem test_decode_invxf : decode 0x0000000000000031#64 = .ok .invxf := by decide
theorem test_decode_quant : decode 0x0000000000000040#64 = .ok .quant := by decide
theorem test_decode_dequant : decode 0x0000000000000041#64 = .ok .dequant := by decide
theorem test_decode_pack : decode 0x0000000000000050#64 = .ok .pack := by decide
theorem test_decode_unpack : decode 0x0000000000000051#64 = .ok .unpack := by decide

/-- E1 to E7. -/
theorem test_decode_rejects_by_name :
    decode 0x0000000000000000#64 = .error (.unlistedOp 0) ∧ decode 0x0000000000000007#64 = .error (.unlistedOp 7) ∧
    decode 0x00000000000000FF#64 = .error (.unlistedOp 255) ∧ decode 0x0000000001000003#64 = .error .reservedBits ∧
    decode 0x0000000000000120#64 = .error (.unusedField 0x20) ∧
    decode 0x0000000000010050#64 = .error (.unusedField 0x50) ∧
    decode 0x0000000000080801#64 = .error (.unusedField 1) := by decide

/-- R76's example, and an immediate the assembler rejects. -/
theorem test_assemble : assemble "SETS" [5, 18] = some 0x0000000000120506#64 ∧ assemble "FITSU" [256] = none ∧
    assemble "PACK" [1] = none := by decide

/-- R77 on lines of P5: WR with a decimal, CMD, RD, SRESET; an unknown name; WR at the ends of the 64-bit integers and
beyond them (the model's choice, assumption log 13); and WRF of -0.5. -/
theorem test_host_program :
    hostProgram [.wr "BV" 8, .cmd "SETU" [3, 0], .rd "STATUS", .sreset] =
      some [.write 0x120 8 8, .write 0x020 8 0x305, .read 0x010 8, .write 0x008 8 1] ∧
    hostProgram [.wr "BV" (-1), .wr "NOPE" 0] = none := by decide
theorem test_host_program_wr_range :
    (HostLine.wr "BV" (-2 ^ 63)).txn = some (.write 0x120 8 0x8000000000000000) ∧
    (HostLine.wr "BV" (2 ^ 64 - 1)).txn = some (.write 0x120 8 0xFFFFFFFFFFFFFFFF) ∧
    (HostLine.wr "BV" (-1)).txn = some (.write 0x120 8 0xFFFFFFFFFFFFFFFF) ∧
    (HostLine.wr "BV" (2 ^ 64)).txn = none ∧ (HostLine.wr "BV" (-2 ^ 63 - 1)).txn = none := by decide
theorem test_host_program_wrf : (HostLine.wrf "CO_A" ⟨true, 5, 1⟩).txn = some (.write 0x0B0 8 0xBFE0000000000000) := by
  decide +kernel

/-! ## The bus (section 7 of 95_test_vectors.md) -/

/-- The response and the registers after one transaction. -/
def busAfter (s : State) (t : HostTxn) : Option BusResponse := (nextState (step (s.issuing t))).bind (·.response)

theorem test_bus_reads : busAfter State.reset (.read 0x000 8) = some (.ofRead 0x4353343048573407#64 .ok) ∧
    busAfter State.reset (.read 0x028 8) = some (.ofRead 255 .ok) ∧
    busAfter State.reset (.read 0x020 8) = some (.ofRead 0 .ok) ∧
    busAfter State.reset (.read 0x130 8) = some (.ofRead 0 .busError) ∧
    busAfter State.reset (.read 0x004 8) = some (.ofRead 0 .busError) ∧
    busAfter State.reset (.write 0x110 4 0) = some (.ofWrite .busError) := by decide

/-- CW, DEN and PIX0 read back without their read-0 bits. -/
theorem test_bus_read_back :
    (Regs.reset.store 0xFFFFFFFFFFFFFFFF#64 .cw).read .cw = 0x00000000FFFFFFFF#64 ∧
    (Regs.reset.store 0x12345#64 .den).read .den = 0x2345#64 ∧
    (Regs.reset.store 0xFFFFFFFFFFFFFFFF#64 (.pix 0)).read (.pix 0) = 0x0000FFFFFFFFFFFF#64 := by decide

/-- E1, E8, E9, E13: the record of a CMD write; in the fault state it stays. -/
theorem test_fault_records :
    recordAfter (step (State.reset.issuing (.write 0x020 8 0))) = some (0x0101#64, 0) ∧
    recordAfter (step (State.reset.issuing (.write 0x020 8 0x4101))) = some (0x0201#64, 0x4101#64) ∧
    recordAfter (step (State.reset.issuing (.write 0x020 8 0x414103))) = some (0x0201#64, 0x414103#64) ∧
    recordAfter (step (faultedState.issuing (.write 0x020 8 0x4101))) = some (0x0101#64, 0) := by decide

/-- SRESET leaves the fault state (P5). -/
theorem test_soft_reset : (nextState (step (faultedState.issuing (.write 0x008 8 1)))).map (·.regs) = some Regs.reset := by
  decide

/-- R194. -/
theorem test_wire_bytes : wireBytes 0x4C80002F = [0x4C, 0x80, 0x00, 0x2F] ∧
    ofWireBytes [0x80, 0x45, 0xE7, 0x77] = some 0x8045E777 := by decide

/-! ## BitField commands (section 6) -/

/-- B1, B2, B5. -/
theorem test_fitsu : brAfter (exec (.fitsu 3) (bitState 0 7)) = some 1 ∧ brAfter (exec (.fitsu 3) (bitState 0 8)) = some 0 ∧
    brAfter (exec (.fitsu 64) (bitState 0 0xFFFFFFFFFFFFFFFF#64)) = some 1 := by decide
/-- B8, B11, B12, B16. -/
theorem test_fitss : brAfter (exec (.fitss 3) (bitState 0 0xFFFFFFFFFFFFFFFC#64)) = some 1 ∧
    brAfter (exec (.fitss 3) (bitState 0 0xFFFFFFFFFFFFFFFB#64)) = some 0 ∧
    brAfter (exec (.fitss 0) (bitState 0 0)) = some 0 ∧
    brAfter (exec (.fitss 64) (bitState 0 0x8000000000000000#64)) = some 1 := by decide
/-- B18, B30, B21. -/
theorem test_getu : brAfter (exec (.getu 6 8) (bitState 0x3F00 0)) = some 0x3F ∧
    brAfter (exec (.getu 16 20) (bitState 0x0123456789ABCDEF#64 0)) = some 0x789A ∧
    brAfter (exec (.getu 0 64) (bitState 0xFFFFFFFFFFFFFFFF#64 0)) = some 0 := by decide
/-- B19, B20, B29. -/
theorem test_gets : brAfter (exec (.gets 6 8) (bitState 0x3F00 0)) = some 0xFFFFFFFFFFFFFFFF#64 ∧
    brAfter (exec (.gets 6 8) (bitState 0x1F00 0)) = some 0x1F ∧
    brAfter (exec (.gets 8 56) (bitState 0x7F00000000000000#64 0)) = some 0x7F := by decide
/-- B32, B36, B37. -/
theorem test_setu : brAfter (exec (.setu 4 4) (bitState 0xFFFFFFFFFFFFFFFF#64 5)) = some 0xFFFFFFFFFFFFFF5F#64 ∧
    brAfter (exec (.setu 16 20) (bitState 0x0123456789ABCDEF#64 0xBEEF)) = some 0x0123456BEEFBCDEF#64 ∧
    brAfter (exec (.setu 64 0) (bitState 5 0xFFFFFFFFFFFFFFFF#64)) = some 0xFFFFFFFFFFFFFFFF#64 := by decide
/-- B33 (P5), B39. -/
theorem test_setu_faults : recordAfter (exec (.setu 3 0) (bitState 0 8)) = some (0x0401#64, 0x305#64) ∧
    recordAfter (exec (.setu 8 60) (bitState 0 0x100)) = some (0x0301#64, 0x3C0805#64) := by decide
/-- B40, B42, B46. -/
theorem test_sets : brAfter (exec (.sets 5 18) (bitState 0 0xFFFFFFFFFFFFFFFD#64)) = some 0x740000 ∧
    brAfter (exec (.sets 5 0) (bitState 0 0xFFFFFFFFFFFFFFF0#64)) = some 0x10 ∧
    brAfter (exec (.sets 63 0) (bitState 0 0xC000000000000000#64)) = some 0x4000000000000000#64 := by decide
/-- B41, B43. -/
theorem test_sets_faults : recordAfter (exec (.sets 0 7) (bitState 0x1234 0)) = some (0x0401#64, 0x70006#64) ∧
    recordAfter (exec (.sets 5 0) (bitState 0 0x10)) = some (0x0401#64, 0x506#64) := by decide
/-- B48, B49, B53. -/
theorem test_getu32 : brAfter (exec (.getu32 1 31) (bitState 0xFFFFFFFF80000000#64 0)) = some 1 ∧
    brAfter (exec (.getu32 32 0) (bitState 0xFFFFFFFF80000000#64 0)) = some 0x80000000#64 ∧
    recordAfter (exec (.getu32 33 0) (bitState 0 0)) = some (0x0201#64, 0x2113#64) := by decide
/-- B50, B51. -/
theorem test_gets32 : brAfter (exec (.gets32 1 31) (bitState 0x80000000#64 0)) = some 0xFFFFFFFFFFFFFFFF#64 ∧
    brAfter (exec (.gets32 32 0) (bitState 0x80000000#64 0)) = some 0xFFFFFFFF80000000#64 := by decide
/-- B54, B55, B56. -/
theorem test_setu32 : brAfter (exec (.setu32 8 24) (bitState 0xFFFFFFFF#64 0xAB)) = some 0xABFFFFFF#64 ∧
    recordAfter (exec (.setu32 32 0) (bitState 0 0x100000000#64)) = some (0x0401#64, 0x2015#64) ∧
    brAfter (exec (.setu32 0 32) (bitState 0xFFFFFFFF00000000#64 0)) = some 0 := by decide
/-- B57, B58, B60. -/
theorem test_sets32 : brAfter (exec (.sets32 32 0) (bitState 0 0xFFFFFFFFFFFFFFFF#64)) = some 0xFFFFFFFF#64 ∧
    recordAfter (exec (.sets32 32 0) (bitState 0 0x80000000#64)) = some (0x0401#64, 0x2016#64) ∧
    brAfter (exec (.sets32 4 28) (bitState 0xFFFFFFFF00000000#64 0xFFFFFFFFFFFFFFFE#64)) = some 0xE0000000#64 := by decide

/-! ## Arithmetic and constants (R11, R12, R135) -/

/-- R135: every encoding of the table is the binary64 nearest to its decimal. -/
theorem test_constants :
    c0_299 = .ofDecimal false 299 3 ∧ c0_587 = .ofDecimal false 587 3 ∧ c0_114 = .ofDecimal false 114 3 ∧
    c0_168736.neg = .ofDecimal true 168736 6 ∧ c0_331264 = .ofDecimal false 331264 6 ∧ c0_5 = .ofDecimal false 5 1 ∧
    c0_418688 = .ofDecimal false 418688 6 ∧ c0_081312 = .ofDecimal false 81312 6 ∧ c1_402 = .ofDecimal false 1402 3 ∧
    c0_344136 = .ofDecimal false 344136 6 ∧ c0_714136 = .ofDecimal false 714136 6 ∧ c1_772 = .ofDecimal false 1772 3 ∧
    fPoint3 = .ofDecimal false 3 1 := by decide +kernel

/-- Section 2.1's `round_haz` vectors: 127.5, 2.5, -2.5, -0.5, 0.49999999999999994. -/
theorem test_round_haz :
    roundHaz (.ofDecimal false 1275 1) = 128 ∧ roundHaz (.ofDecimal false 25 1) = 3 ∧
    roundHaz (.ofDecimal true 25 1) = -3 ∧ roundHaz (.ofDecimal true 5 1) = -1 ∧
    roundHaz (.ofDecimal false 49999999999999994 17) = 0 := by decide +kernel

/-- R154: `x - x` is +0.0; infinities that cancel give a NaN (X7). -/
theorem test_fadd_corners : fsub (.ofInt 1) (.ofInt 1) = .num false 0 ∧ fadd (.inf false) (.inf true) = .nan ∧
    fmul (.num true 0) (.ofInt 3) = .num true 0 := by decide +kernel

/-! ## Colour (section 2) -/

/-- C3 and C2. -/
theorem test_rgb2cv : videoAfter 2 (exec .rgb2cv (pixState 255 ⟨255, 0, 0⟩)) =
      some (0x3FD322D0E5604189#64, 0xBFC5992428D434A0#64, 0x3FE0000000000000#64) ∧
    videoAfter 0 (exec .rgb2cv (pixState 255 ⟨255, 255, 255⟩)) = some (0x3FEFFFFFFFFFFFFF#64, 0, 0) := by
  decide +kernel
/-- C10, C11 (P6). -/
theorem test_rgb2cv_faults : recordAfter (exec .rgb2cv (pixState 0 ⟨0, 0, 0⟩)) = some (0x0501#64, 0x20#64) ∧
    recordAfter (exec .rgb2cv (pixState 255 ⟨256, 0, 0⟩)) = some (0x0501#64, 0x20#64) := by decide
/-- C14 (0.5, 0.6, -0.6), C16. -/
theorem test_cv2rgb :
    pixelAfter 3 (exec .cv2rgb (cvState 0x3FE0000000000000#64 0x3FE3333333333333#64 0xBFE3333333333333#64)) =
      some 0x000000FF00B80000#64 ∧
    pixelAfter 0 (exec .cv2rgb (cvState 0x3FE0000000000000#64 0 0)) = some 0x0000008000800080#64 := by decide +kernel
/-- C19. -/
theorem test_cv2rgb_faults :
    recordAfter (exec .cv2rgb (cvState 0x7FF0000000000000#64 0 0xFFF0000000000000#64)) = some (0x0601#64, 0x21#64) := by
  decide +kernel

/-! ## Block transform (section 3) -/

/-- X3. -/
theorem test_fwdxf : lumaCoAfter (exec .fwdxf (lumaState 0x3FB999999999999A#64 0x3FC999999999999A#64 0x3FD3333333333333#64
      0x3FD999999999999A#64)) =
    some [0x3FD0000000000000#64, 0x3FA999999999999E#64, 0x3FB9999999999999#64, 0] := by decide +kernel
/-- X7: the infinite results; the NaN results are read as values. -/
theorem test_fwdxf_infinite :
    (lumaCoAfter (exec .fwdxf (lumaState 0x7FF0000000000000#64 0xFFF0000000000000#64 0 0))).map
      (fun l => (l.getD 1 0, l.getD 3 0)) = some (0xFFF0000000000000#64, 0x7FF0000000000000#64) ∧
    (forwardLuma ⟨.inf false, .inf true, .num false 0, .num false 0⟩).a = .nan := by decide +kernel
/-- X4, X6. -/
theorem test_invxf : lumasAfter (exec .invxf (coState 0x3FD0000000000000#64 0x3FA999999999999E#64 0x3FB9999999999999#64 0 0 0)) =
      some [0x3FB9999999999997#64, 0x3FC999999999999C#64, 0x3FD3333333333332#64, 0x3FD999999999999A#64] ∧
    videoAfter 1 (exec .invxf (coState 0x8000000000000000#64 0 0 0 0x8000000000000000#64 0)) =
      some (0, 0x8000000000000000#64, 0) := by decide +kernel
/-- X9. -/
theorem test_invxf_faults :
    recordAfter (exec .invxf (coState 0x7FF0000000000000#64 0x7FF0000000000000#64 0 0 0 0)) = some (0x0601#64, 0x31#64) := by
  decide +kernel

/-! ## Quantizer (section 4) -/

/-- QA4, QA8, QB5, QB8. -/
theorem test_quantize_scalars : quantizeA (.ofBits 0x3FDFDFEFF7FBFDFF#64) = .ok 255 ∧ quantizeA (.inf true) = .ok 0 ∧
    quantizeBcd (.ofDecimal true 5 2) = .ok (-3) ∧ quantizeBcd (.ofDecimal false 25 2) = .ok 13 := by decide +kernel
/-- QC1, QC3, QC5, QC11 and a NaN, on the table of the vectors. -/
theorem test_index_of_chroma : tableOk lutGk = true ∧ indexOfChroma lutGk (.num false 0) = .ok 7 ∧
    indexOfChroma lutGk (.ofBits 0x3C70000000000000#64) = .ok 8 ∧
    indexOfChroma lutGk (.ofDecimal true 168736 6) = .ok 2 ∧ indexOfChroma lutGk (.ofDecimal false 125 3) = .ok 12 ∧
    indexOfChroma lutGk .nan = .error .nanOperand := by decide +kernel
/-- R180's example, on the table of the vectors. -/
theorem test_quant_block : quantizeBlock lutGk
      ⟨0x3FD322D0E5604189#64, 0, 0, 0, 0xBFC5992428D434A0#64, 0x3FE0000000000000#64⟩ = .ok ⟨153, 0, 0, 0, 2, 15⟩ := by
  decide +kernel
/-- DA3, and R181's -16. -/
theorem test_dequant : (nextState (exec .dequant (qState 153 0xFFFFFFFFFFFFFFF0#64 0 0 2 15))).map (·.regs.co.a) =
      some 0x3FD32994CA653299#64 ∧
    dequantizeBcd (-16) = .ofDecimal true 32 2 := by decide +kernel
/-- R181: a Q register outside its field. -/
theorem test_dequant_faults : recordAfter (exec .dequant (qState 0 0 0 0 16 0)) = some (0x0401#64, 0x41#64) := by decide

/-! ## Packer (section 5) -/

/-- R191's example and corner cases. -/
theorem test_pack : (nextState (exec .pack (qState 153 0 0 0 2 15))).map (·.regs.cw) = some 0x4C80002F ∧
    (nextState (exec .pack (qState 0 0xFFFFFFFFFFFFFFF0#64 0xFFFFFFFFFFFFFFF0#64 0xFFFFFFFFFFFFFFF0#64 0 0))).map
      (·.regs.cw) = some 0x00421000 := by decide
theorem test_pack_faults : recordAfter (exec .pack (qState 512 0 0 0 0 0)) = some (0x0401#64, 0x50#64) := by decide
/-- U-4, and 0xFFFFFFFF. -/
theorem test_unpack : (nextState (exec .unpack (cwState 0x7FFFFFFF))).map (·.regs.q) =
      some ⟨255, 0xFFFFFFFFFFFFFFFF#64, 0xFFFFFFFFFFFFFFFF#64, 0xFFFFFFFFFFFFFFFF#64, 15, 15⟩ := by decide

/-! ## A witness for the hypotheses of each statement, at a boundary of their range -/

theorem witness_DecodeOfEncode : (Instr.getu 255 255).WellFormed ∧ (Instr.fitsu 0).WellFormed ∧ Instr.pack.WellFormed := by
  decide
theorem witness_EncodeOfDecode : decode 0x0000000000FFFF03#64 = .ok (.getu 255 255) := by decide
theorem witness_RowSelectedIffMaskedMatch : (⟨"UNPACK", 0x51#64, maskN⟩ : OpcodeRow) ∈ opcodeTable := by decide
/-- An illegal word on each ground and a legal word beside it, and a state out of the fault state. -/
theorem witness_IllegalWordsFault :
    (∃ e, decode (2 ^ 24 + 3) = .error e) ∧ (∃ e, decode 0x17 = .error e) ∧ (∃ e, decode 0x120 = .error e) ∧
    (∃ e, decode 0x10001 = .error e) ∧ decode 0xFF01 = .ok (.fitsu 255) ∧ State.reset.regs.fault = false :=
  ⟨⟨_, rfl⟩, ⟨_, rfl⟩, ⟨_, rfl⟩, ⟨_, rfl⟩, rfl, rfl⟩
theorem witness_StepPerformsDecodedCommand : ∃ (s : State) (i : Instr) (rest : List HostTxn),
    i.WellFormed ∧ s.regs.fault = false ∧ s.pending = .write 0x020 8 (encode i) :: rest :=
  ⟨State.reset.issuing (.write 0x020 8 (encode (.getu 16 20))), .getu 16 20, [], by decide, rfl, rfl⟩
theorem witness_EveryStepAnswers : State.reset.pending = [] := rfl
theorem witness_WriteReadsBackMasked : RegName.den.access = .rw ∧ RegName.br.access = .rw ∧
    (∃ off : Nat, off = 0x000 ∨ off = 0x010 ∨ off = 0x018) := ⟨rfl, rfl, 0x018, .inr (.inr rfl)⟩
theorem witness_IllegalAccessIsBusError :
    ((0x004 : Nat) % 8 ≠ 0 ∧ (0x130 : Nat) ≤ 0x130 ∧ (4 : Nat) ≠ 8 ∧ (16 : Nat) ≠ 8) := by decide
theorem witness_MappedOffsets : ((0x128 : Nat) % 8 = 0 ∧ (0x128 : Nat) ≤ 0x128) ∧ RegName.br.offset = 0x128 := by decide
theorem witness_ControlRegister : (3 : Word).toNat % 2 = 1 ∧ (0xFFFFFFFFFFFFFFFE : Word).toNat % 2 = 0 := by decide
theorem witness_AddressesMapIntoWindow : ∃ addr off : Nat, off < 0x200 ∧ off = 0x1FF ∧
    (addr < windowBase ∨ windowBase + 0x200 ≤ addr) ∧ addr = windowBase + 0x200 :=
  ⟨_, _, by decide, rfl, .inr le_rfl, rfl⟩
theorem witness_FaultsArePrecise : ∃ (v : Word) (s t : State), s.regs.fault = false ∧
    step (s.issuing (.write 0x020 8 v)) = .next t ∧ t.regs.fault = true :=
  ⟨0x305, bitState 0 8, _, rfl, rfl, rfl⟩
theorem witness_FaultStateIsSticky : faultedState.regs.fault = true ∧ RegName.bv.access = .rw := ⟨rfl, rfl⟩
/-- From the fault state: out of it by the soft reset, and still in it after a read. -/
theorem witness_OnlyResetLeavesFaultState :
    (∃ s t : State, s.regs.fault = true ∧ step s = .next t ∧ t.regs.fault = false) ∧
    (∃ s t : State, s.regs.fault = true ∧ step s = .next t ∧ t.regs.fault = true) :=
  ⟨⟨faultedState.issuing (.write 0x008 8 1), _, rfl, rfl, rfl⟩, ⟨faultedState.issuing (.read 0x010 8), _, rfl, rfl, rfl⟩⟩
theorem witness_OnlyCommandsRaiseFaults : ∃ s t : State, s.regs.fault = false ∧ step s = .next t ∧ t.regs.fault = true :=
  ⟨State.reset.issuing (.write 0x020 8 0), _, rfl, rfl, rfl⟩
theorem witness_StepKeepsFaultRecord : ∃ s t : State, s.Inv ∧ step s = .next t ∧ t.regs.fault = true :=
  ⟨State.reset.issuing (.write 0x020 8 0), _, ⟨fun _ => ⟨rfl, rfl⟩, fun h => by cases h⟩, rfl, rfl⟩
theorem witness_WidthAboveLimitFaults :
    (bitLimit (.fitsu 65) = some 64 ∧ 64 < (Instr.fitsu 65).width) ∧
    (bitLimit (.sets32 33 0) = some 32 ∧ 32 < (Instr.sets32 33 0).width) := by decide
theorem witness_PositionAboveLimitFaults :
    (bitLimit (.getu 64 1) = some 64 ∧ hasPosition (.getu 64 1) = true ∧ (Instr.getu 64 1).width ≤ 64 ∧ 64 < 64 + 1) ∧
    (bitLimit (.setu32 0 33) = some 32 ∧ hasPosition (.setu32 0 33) = true ∧ (Instr.setu32 0 33).width ≤ 32 ∧
      32 < 0 + 33) := by decide

/-- Fields of 5 signed bits that do and do not fit. -/
theorem fieldsFit_iff (a b c d pb pr : Word) : FieldsFit ⟨a, b, c, d, pb, pr⟩ ↔
    a.toNat < 512 ∧ (-16 ≤ b.toInt ∧ b.toInt ≤ 15) ∧ (-16 ≤ c.toInt ∧ c.toInt ≤ 15) ∧ (-16 ≤ d.toInt ∧ d.toInt ≤ 15) ∧
    pb.toNat < 16 ∧ pr.toNat < 16 := by
  simp [FieldsFit, InSignedRange]

/-- The extreme block that fits. -/
theorem fieldsFit_extreme : FieldsFit ⟨511, 0xFFFFFFFFFFFFFFF0#64, 15, 0xFFFFFFFFFFFFFFF0#64, 15, 15⟩ := by
  rw [fieldsFit_iff]; decide

/-- One clause each: SETU, SETS, SETU32, SETS32, and the fields of PACK and DEQUANT. -/
theorem witness_UnfitValuesFault :
    (3 + 61 ≤ 64 ∧ 2 ^ 3 ≤ (bitState 0 8).regs.bv.toNat) ∧
    (5 + 59 ≤ 64 ∧ ¬ InSignedRange (bitState 0 16).regs.bv.toInt 5) ∧
    (32 + 0 ≤ 32 ∧ 2 ^ 32 ≤ (bitState 0 0x100000000).regs.bv.toNat) ∧
    (0 + 32 ≤ 32 ∧ ¬ InSignedRange (bitState 0 0).regs.bv.toInt 0) ∧
    ¬ FieldsFit (qState 512 0 0 0 0 0).regs.q ∧ ¬ FieldsFit (qState 0 0 0 0xFFFFFFFFFFFFFFEF#64 0 0).regs.q := by
  refine ⟨by decide, ⟨by decide, fun h => absurd h.2.2 (by decide)⟩, by decide, ⟨by decide, fun h => absurd h.1 (by decide)⟩,
    fun h => absurd h.1 (by decide), fun h => absurd h.2.2.2.1.2.1 (by decide)⟩

theorem witness_BadPixelFaults : (pixState 0 ⟨0, 0, 0⟩).regs.den = 0 ∧
    (∃ k : Lane, (pixState 255 ⟨0, 0, 256⟩).regs.den.toNat < ((pixState 255 ⟨0, 0, 256⟩).regs.pix.get k).b.toNat) :=
  ⟨rfl, 3, by decide⟩
theorem witness_NanOperandFaults :
    ((cvState 0x7FF8000000000000#64 0 0).regs.den ≠ 0 ∧
      ∃ k : Lane, .nan ∈ linearRgb ((cvState 0x7FF8000000000000#64 0 0).regs.cv.get k)) ∧
    .nan ∈ linearLuma (coState 0x7FF0000000000000#64 0x7FF0000000000000#64 0 0 0 0).regs.co ∧
    .nan ∈ quantInputs (coState 0 0 0 0 0 0xFFF0000000000001#64).regs.co :=
  ⟨⟨by decide, 0, by decide +kernel⟩, by decide +kernel, by decide +kernel⟩

theorem witness_FitsUnsignedResult : (64 : Nat) ≤ 64 ∧ (0 : Nat) ≤ 64 := by decide
theorem witness_FitsSignedResult : (64 : Nat) ≤ 64 ∧ (0 : Nat) ≤ 64 := by decide
theorem witness_GetUnsignedResult : (64 + 0 ≤ 64 ∧ 0 + 64 ≤ 64) ∧ (32 + 0 ≤ 32 ∧ 0 + 32 ≤ 32) := by decide
theorem witness_GetSignedResult : (64 + 0 ≤ 64 ∧ 0 + 64 ≤ 64) ∧ (32 + 0 ≤ 32 ∧ 0 + 32 ≤ 32) := by decide
/-- SETU and SETU32, and the round trips over them: the largest value of a field and the empty field. -/
theorem witness_SetUnsignedResult :
    ((bitState 0 0xFFFFFFFF).regs.bv.toNat < 2 ^ 32 ∧ 32 + 32 ≤ 64 ∧ 32 + 0 ≤ 32) ∧
    ((bitState 0 0).regs.bv.toNat < 2 ^ 0 ∧ 0 + 64 ≤ 64 ∧ 0 + 32 ≤ 32) := by decide
/-- SETS and SETS32, and the round trips over them: the least value of a field. -/
theorem witness_SetSignedResult :
    InSignedRange (bitState 0 0xFFFFFFFF80000000#64).regs.bv.toInt 32 ∧ 32 + 32 ≤ 64 ∧ 32 + 0 ≤ 32 :=
  ⟨⟨by decide, by decide, by decide⟩, by decide, by decide⟩
theorem witness_GetAfterSetUnsigned : (bitState 1 0xFFFFFFFF).regs.bv.toNat < 2 ^ 32 ∧ 32 + 32 ≤ 64 ∧ 32 + 0 ≤ 32 := by decide
theorem witness_GetAfterSetSigned :
    InSignedRange (bitState 1 0xFFFFFFFFFFFFFFFF#64).regs.bv.toInt 1 ∧ 1 + 63 ≤ 64 ∧ 1 + 31 ≤ 32 :=
  ⟨⟨by decide, by decide, by decide⟩, by decide, by decide⟩
theorem witness_DisjointInsertsCommute : 18 + 5 ≤ 23 ∧ (31 : Word).toNat < 2 ^ 5 ∧ (511 : Word).toNat < 2 ^ 9 ∧
    (31 : Word32).toNat < 2 ^ 5 ∧ (511 : Word32).toNat < 2 ^ 9 := by decide
theorem witness_OperationsRoundExactResult : ∃ (m n : Bool) (a b : Nat),
    (let x : Int := if m then -(a : Int) else a
     let y : Int := if n then -(b : Int) else b
     x + y ≠ 0 ∧ x - y ≠ 0 ∧ b ≠ 0) := ⟨true, false, 2, 1, by decide⟩
theorem witness_RoundHazNearestAwayFromZero :
    2 * (roundHaz (.num false (5 * 2 ^ 1073)) * 2 ^ 1074 - (5 * 2 ^ 1073 : Int)).natAbs = 2 ^ 1074 := by decide +kernel
theorem witness_EncodingKeepsNumbers : (Binary64.ofBits 0xFFF0000000000000#64).isNaN = false := by decide +kernel

/-- White at the largest denominator: every channel at its bound. -/
theorem witness_RgbToVideoResult : ValidPixels (pixState 65535 ⟨65535, 65535, 65535⟩).regs := by
  refine ⟨by decide, ?_⟩
  decide
/-- A valid block with a black pixel, at the least denominator. -/
theorem witness_RgbToVideoIsFinite : ValidPixels (pixState 1 ⟨0, 0, 0⟩).regs ∧ (pixState 1 ⟨0, 0, 0⟩).regs.pix.get 2 = ⟨0, 0, 0⟩ := by
  refine ⟨⟨by decide, ?_⟩, rfl⟩
  decide
/-- An infinite luma, with no NaN in any lane. -/
theorem witness_VideoToRgbResult : (cvState 0x7FF0000000000000#64 0 0).regs.den ≠ 0 ∧
    ∀ k : Lane, .nan ∉ linearRgb ((cvState 0x7FF0000000000000#64 0 0).regs.cv.get k) := by
  refine ⟨by decide, ?_⟩
  decide +kernel
/-- Both clauses: two states that agree on DEN and a lane, and complete. -/
theorem witness_LanesDoNotInteract : ∃ s s' : State, s.regs.den = s'.regs.den ∧ s ≠ s' ∧
    (ValidPixels s.regs ∧ ValidPixels s'.regs ∧ s.regs.pix.get 0 = s'.regs.pix.get 0 ∧
      (nextState (exec .rgb2cv s)).isSome = true ∧ (nextState (exec .rgb2cv s')).isSome = true) ∧
    (s.regs.fault = false ∧ s'.regs.fault = false ∧ s.regs.cv.get 0 = s'.regs.cv.get 0 ∧
      (nextState (exec .cv2rgb s)).map (·.regs.fault) = some false ∧
      (nextState (exec .cv2rgb s')).map (·.regs.fault) = some false) := by
  refine ⟨State.reset, { State.reset with regs := { Regs.reset with
      pix := ⟨⟨0, 0, 0⟩, ⟨255, 0, 0⟩, ⟨0, 0, 0⟩, ⟨0, 0, 0⟩⟩,
      cv := ⟨⟨0, 0, 0⟩, ⟨0x3FE0000000000000#64, 0, 0⟩, ⟨0, 0, 0⟩, ⟨0, 0, 0⟩⟩ } }, rfl, by decide,
    ⟨⟨by decide, ?_⟩, ⟨by decide, ?_⟩, rfl, rfl, rfl⟩, rfl, rfl, rfl, by decide +kernel, by decide +kernel⟩ <;> decide
theorem witness_ColourRoundTripWithinOne : (pixState 255 ⟨255, 0, 255⟩).regs.den = 255 ∧
    ValidPixels (pixState 255 ⟨255, 0, 255⟩).regs := by
  refine ⟨rfl, by decide, ?_⟩
  decide
/-- An infinite coefficient that does not cancel. -/
theorem witness_InverseTransformResult : .nan ∉ linearLuma (coState 0x7FF0000000000000#64 0 0 0 0 0).regs.co := by
  decide +kernel
theorem witness_TransformInvertsExactly : ∀ k : Lane, 0 ≤ (⟨0, 1, 2, 3⟩ : Quad ℝ).get k := by
  rw [forall_lane]
  norm_num
theorem witness_QuantizeResult : .nan ∉ quantInputs (coState 0x7FF0000000000000#64 0 0 0 0xFFF0000000000000#64 0).regs.co := by
  decide +kernel
/-- A table that meets R8, and a value in each of the three ranges. -/
theorem witness_ChromaIndexIsNearest : tableOk lutGk = true ∧ entryUnits (lutGk 0) ≤ entryUnits (lutGk 0) ∧
    entryUnits (lutGk 15) ≤ entryUnits (lutGk 15) ∧ indexOfChroma lutGk (.num false 0) = .ok 7 := by decide +kernel
theorem witness_QuantizeBcdIsSymmetric : quantizeBcd (.ofDecimal false 3 1) = .ok 15 := by decide +kernel
/-- The extreme block fits, and its chroma indices select entries. -/
theorem witness_DequantizeResult :
    FieldsFit (qState 511 0xFFFFFFFFFFFFFFF0#64 15 0xFFFFFFFFFFFFFFF0#64 15 15).regs.q ∧
    (qState 511 0xFFFFFFFFFFFFFFF0#64 15 0xFFFFFFFFFFFFFFF0#64 15 15).regs.q.pb.toNat = (15 : Fin 16).val :=
  ⟨fieldsFit_extreme, rfl⟩
theorem witness_RequantizationIsIdentity :
    (511 < 512) ∧ ((-15 : Int) ≤ -15 ∧ (-15 : Int) ≤ 15) ∧ ((-15 : Int) ≤ 15 ∧ (15 : Int) ≤ 15) ∧
    FieldsFit (qState 511 0xFFFFFFFFFFFFFFF0#64 15 0xFFFFFFFFFFFFFFF0#64 15 15).regs.q :=
  ⟨by decide, by decide, by decide, fieldsFit_extreme⟩
/-- QUANT completes on the reset state, whatever the chroma table. -/
theorem witness_QuantizedFieldsFit : ∃ s t : State, s.regs.fault = false ∧ exec .quant s = .next t ∧ t.regs.fault = false := by
  have hz : Binary64.ofBits 0 = .num false 0 := by decide +kernel
  have ha : quantizeA (.num false 0) = .ok 0 := by decide +kernel
  have hb : quantizeBcd (.num false 0) = .ok 0 := by decide +kernel
  have hc : indexOfChroma chromaLut (.num false 0) = .ok (indexOfNonNan chromaLut (.num false 0)) := rfl
  refine ⟨State.reset, { State.reset with regs := { Regs.reset with
    q := ⟨0, 0, 0, 0, asU64 (indexOfNonNan chromaLut (.num false 0)), asU64 (indexOfNonNan chromaLut (.num false 0))⟩ } },
    rfl, ?_, rfl⟩
  have hq : quantizeBlock chromaLut State.reset.regs.co = .ok ⟨0, 0, 0, 0, asU64 (indexOfNonNan chromaLut (.num false 0)),
      asU64 (indexOfNonNan chromaLut (.num false 0))⟩ := by
    show quantizeBlock chromaLut ⟨0, 0, 0, 0, 0, 0⟩ = _
    unfold quantizeBlock
    dsimp only
    rw [hz, ha, hb, hc]
    rfl
  simp only [exec, execQuant, hq, andThen_ok, finish_ok]
  rfl
theorem witness_PackResult : FieldsFit (qState 511 0xFFFFFFFFFFFFFFF0#64 15 0xFFFFFFFFFFFFFFF0#64 15 15).regs.q :=
  fieldsFit_extreme
theorem witness_PackingIsBijective : FieldsFit (qState 511 0xFFFFFFFFFFFFFFF0#64 15 0xFFFFFFFFFFFFFFF0#64 15 15).regs.q :=
  fieldsFit_extreme
/-- A command that completes, leaving BV (no destination of it) alone; and one that faults. -/
theorem witness_CommandsWriteOnlyDestinations :
    (∃ s t : State, exec (.setu 4 4) s = .next t ∧ writesReg (.setu 4 4) .bv = false ∧ s.regs.fault = false ∧
      t.regs.fault = false) ∧ (Instr.setu 4 4) ≠ .fwdxf :=
  ⟨⟨bitState 0 5, _, rfl, rfl, rfl, rfl⟩, by decide⟩
/-- Two states that agree on the sources of a command and nowhere else that matters: it completes in both; and a pair in
which it faults in both. -/
theorem witness_CommandsDependOnlyOnSources :
    (∃ s s' t t' : State, s ≠ s' ∧ s.regs.fault = false ∧ s'.regs.fault = false ∧ s.regs.read .bv = s'.regs.read .bv ∧
      exec (.fitsu 3) s = .next t ∧ exec (.fitsu 3) s' = .next t' ∧ t.regs.fault = false ∧ readsReg (.fitsu 3) .bv = true) ∧
    (∃ s s' t t' : State, s.regs.read .bv = s'.regs.read .bv ∧ exec (.fitsu 65) s = .next t ∧
      exec (.fitsu 65) s' = .next t' ∧ t.regs.fault = true) :=
  ⟨⟨bitState 0 7, bitState 1 7, _, _, by decide, rfl, rfl, rfl, rfl, rfl, rfl, rfl⟩,
    ⟨bitState 0 7, bitState 1 7, _, _, rfl, rfl, rfl, rfl⟩⟩
theorem witness_ValidBlockCompresses : (pixState 255 ⟨255, 0, 0⟩).regs.fault = false ∧
    ValidPixels (pixState 255 ⟨255, 0, 0⟩).regs := by
  refine ⟨rfl, by decide, ?_⟩
  decide
theorem witness_EveryCodewordDecompresses : (cwState 0xFFFFFFFF).regs.fault = false ∧ (cwState 0xFFFFFFFF).regs.den ≠ 0 :=
  ⟨rfl, by decide⟩

/-- `RunsTo` runs: two commands, from the host's list to its end. -/
theorem test_runs_to : ∃ t : State,
    RunsTo 2 { cwState 0x4C80002F with pending := cmdWrites [.unpack, .pack] } t ∧ t.regs.cw = 0x4C80002F ∧
    t.regs.fault = false ∧ t.pending = [] := ⟨_, rfl, by decide, rfl, rfl⟩

end Sys2Proof.Tests
end

/-! PROOFS. The statements of 00_scope.md: every step answers, the address window, binary64 arithmetic, rounding to an
integer and encoding, the NaN faults and INVXF. -/

namespace Sys2Proof.Machine

/-! ## Every step answers (R17, R60) -/

/-- Every command answers a next state and leaves the host's list alone. -/
theorem exec_answers (i : Instr) (s : State) : ∃ t, exec i s = .next t ∧ t.pending = s.pending := by
  rcases exec_cases i s with ⟨_, _, h⟩ | ⟨_, _, h | ⟨_, h⟩⟩
  · exact ⟨_, h, rfl⟩
  · exact ⟨_, h, rfl⟩
  · exact ⟨_, h, rfl⟩

theorem writeCmd_answers (v : Word) (s : State) : ∃ t, writeCmd exec v s = .next t ∧ t.pending = s.pending := by
  cases hf : s.regs.fault with
  | true => exact ⟨s, writeCmd_faulted exec v hf, rfl⟩
  | false =>
    cases hd : decode v with
    | error e => exact ⟨_, writeCmd_illegal exec hf hd, rfl⟩
    | ok i =>
      rw [writeCmd_ok exec hf hd]
      exact exec_answers i s

theorem performTxn_answers (t : HostTxn) (s : State) :
    ∃ s', performTxn exec t s = .next s' ∧ s'.pending = s.pending := by
  rcases performTxn_cases exec t s with ⟨_, h⟩ | ⟨_, _, h⟩ | ⟨_, _, h⟩ | ⟨v, _, h⟩
  · exact ⟨_, h, rfl⟩
  · exact ⟨_, h, rfl⟩
  · exact ⟨_, h, rfl⟩
  · rw [h]
    exact writeCmd_answers v _

/-- Settles O8: an idle step keeps the state, and any other performs one transaction, which answers. -/
theorem everyStepAnswers : Obligations.EveryStepAnswers := by
  intro s
  cases hp : s.pending with
  | nil => exact ⟨s, step_idle hp, hp, fun _ => rfl⟩
  | cons t rest =>
    obtain ⟨s', hs, hrest⟩ := performTxn_answers t { s with pending := rest }
    exact ⟨s', (step_txn hp).trans hs, hrest, fun h => absurd h (List.cons_ne_nil _ _)⟩

/-! ## The address window (R14, R55) -/

theorem inWindow_iff (addr : Nat) : inWindow addr = true ↔ windowBase ≤ addr ∧ addr < windowBase + 0x200 := by
  simp [inWindow]

/-- Settles O15: an offset below 0x200 is inside the window, an address on either side is not. -/
theorem addressesMapIntoWindow : Obligations.AddressesMapIntoWindow := by
  refine ⟨Nat.mul_mod_right _ _, fun off n v hoff => ?_, fun addr n v hout => ?_⟩
  · have hin : inWindow (windowBase + off) = true := (inWindow_iff _).mpr (by omega)
    simp [memRead, memWrite, hin]
  · have hnot : ¬ inWindow addr = true := fun h => by
      have := (inWindow_iff addr).mp h
      omega
    simp [memRead, memWrite, hnot]

/-! ## Binary64 arithmetic and rounding (R11, R12) -/

/-- A sum that is not zero is the exact sum rounded. -/
theorem fadd_roundsTo {m n : Bool} {a b : Nat} (h : signedUnits m a + signedUnits n b ≠ 0) :
    RoundsTo (decide (signedUnits m a + signedUnits n b < 0)) (signedUnits m a + signedUnits n b).natAbs 1
      (fadd (.num m a) (.num n b)) := by
  rw [fadd, if_neg h]
  exact roundQuot_roundsTo _ _ Nat.one_pos

theorem signedUnits_not (n : Bool) (b : Nat) : signedUnits (!n) b = -signedUnits n b := by
  cases n <;> simp [signedUnits]

/-- A difference that is not zero is the exact difference rounded: `fsub` adds the negated operand. -/
theorem fsub_roundsTo {m n : Bool} {a b : Nat} (h : signedUnits m a - signedUnits n b ≠ 0) :
    RoundsTo (decide (signedUnits m a - signedUnits n b < 0)) (signedUnits m a - signedUnits n b).natAbs 1
      (fsub (.num m a) (.num n b)) := by
  rw [sub_eq_add_neg, ← signedUnits_not] at h ⊢
  exact fadd_roundsTo h

theorem fmul_roundsTo (m n : Bool) (a b : Nat) :
    RoundsTo (m ^^ n) (a * b) (2 ^ 1074) (fmul (.num m a) (.num n b)) := by
  rw [← oneUnits_eq]
  exact roundQuot_roundsTo _ _ oneUnits_pos

theorem fdiv_roundsTo (m n : Bool) (a : Nat) {b : Nat} (h : b ≠ 0) :
    RoundsTo (m ^^ n) (a * 2 ^ 1074) b (fdiv (.num m a) (.num n b)) := by
  rw [← oneUnits_eq, fdiv, if_neg h]
  exact roundQuot_roundsTo _ _ (Nat.pos_of_ne_zero h)

/-- Settles O37: each operation rounds its exact result once, and one rounding is nearest, ties to even
(`nearestMagnitude_spec`). -/
theorem operationsRoundExactResult : Obligations.OperationsRoundExactResult :=
  fun m n a b => ⟨fadd_roundsTo, fsub_roundsTo, fmul_roundsTo m n a b, fdiv_roundsTo m n a⟩

/-- The distance of `round_haz` from the value is that of the magnitudes, whatever the sign. -/
theorem roundHaz_distance (neg : Bool) (mag : Nat) :
    (roundHaz (.num neg mag) * oneUnits - signedUnits neg mag).natAbs =
      ((halfUp mag oneUnits * oneUnits : Nat) - mag : Int).natAbs := by
  cases neg
  · simp [roundHaz_num, signedUnits]
  · simp only [roundHaz_num, signedUnits, if_true]
    push_cast
    rw [← Int.natAbs_neg]
    congr 1
    ring

theorem roundHaz_natAbs (neg : Bool) (mag : Nat) : (roundHaz (.num neg mag)).natAbs = halfUp mag oneUnits := by
  cases neg
  · rw [roundHaz_num, if_neg Bool.false_ne_true, Int.natAbs_natCast]
  · rw [roundHaz_num, if_pos rfl, Int.natAbs_neg, Int.natAbs_natCast]

/-- The half-up quotient is a nearest one, and above the magnitude at a tie. -/
theorem halfUp_nearest (m : Nat) {u : Nat} (hu : 0 < u) :
    2 * ((halfUp m u * u : Nat) - m : Int).natAbs ≤ u ∧
      (2 * ((halfUp m u * u : Nat) - m : Int).natAbs = u → (m : Int) < (halfUp m u * u : Nat)) := by
  have hspec := halfUp_spec m hu
  omega

/-- R12 in units of `oneUnits`. -/
theorem roundHaz_nearest (neg : Bool) (mag : Nat) :
    2 * (roundHaz (.num neg mag) * oneUnits - signedUnits neg mag).natAbs ≤ oneUnits ∧
      (2 * (roundHaz (.num neg mag) * oneUnits - signedUnits neg mag).natAbs = oneUnits →
        (mag : Int) < (roundHaz (.num neg mag) * oneUnits).natAbs) := by
  rw [roundHaz_distance, Int.natAbs_mul, Int.natAbs_natCast, roundHaz_natAbs]
  exact halfUp_nearest mag oneUnits_pos

/-- Settles O38: the sign plays no part in the distance, and the magnitude's half-up quotient is a nearest integer, the
larger at a tie (`halfUp_nearest`). -/
theorem roundHazNearestAwayFromZero : Obligations.RoundHazNearestAwayFromZero := by
  intro neg mag
  have hnearest := roundHaz_nearest neg mag
  have hunit : (oneUnits : Int) = 2 ^ 1074 := by rw [oneUnits_eq, Nat.cast_pow, Nat.cast_ofNat]
  rw [hunit, oneUnits_eq] at hnearest
  exact hnearest

/-! ## Encoding (R53) -/

/-- The value of a pattern, by its sign, exponent and fraction fields (R53). -/
theorem ofBits_fields {neg : Bool} {e f : Nat} (he : e < 2048) (hf : f < 2 ^ 52) :
    Binary64.ofBits (BitVec.ofNat 64 (signBit neg + (e * 2 ^ 52 + f))) =
      if e = 2047 then (if f = 0 then .inf neg else .nan)
      else if e = 0 then .num neg f else .num neg ((2 ^ 52 + f) * 2 ^ (e - 1)) := by
  have hs := Bool.toNat_le neg
  have hb : neg.toNat * 2 ^ 63 + (e * 2 ^ 52 + f) < 2 ^ 64 := by omega
  have hneg : decide ((neg.toNat * 2 ^ 63 + (e * 2 ^ 52 + f)) / 2 ^ 63 % 2 = 1) = neg := by
    cases neg
    · simp only [Bool.toNat_false, decide_eq_false_iff_not]; omega
    · simp only [Bool.toNat_true, decide_eq_true_eq]; omega
  have hexp : (neg.toNat * 2 ^ 63 + (e * 2 ^ 52 + f)) / 2 ^ 52 % 2048 = e := by omega
  have hfrac : (neg.toNat * 2 ^ 63 + (e * 2 ^ 52 + f)) % 2 ^ 52 = f := by omega
  rw [signBit_eq, ofBits_ofNat hb, hneg, hexp, hfrac]

/-- Every pattern is its sign, exponent and fraction fields. -/
theorem pattern_cases (w : Word) : ∃ (neg : Bool) (e f : Nat), e < 2048 ∧ f < 2 ^ 52 ∧
    w = BitVec.ofNat 64 (signBit neg + (e * 2 ^ 52 + f)) := by
  have hw := w.isLt
  refine ⟨w.getLsbD 63, w.toNat / 2 ^ 52 % 2048, w.toNat % 2 ^ 52, Nat.mod_lt _ (by norm_num),
    Nat.mod_lt _ (by positivity), BitVec.eq_of_toNat_eq ?_⟩
  have hsign : (w.getLsbD 63).toNat = w.toNat / 2 ^ 63 % 2 := by
    rw [BitVec.getLsbD, Nat.toNat_testBit]
  rw [signBit_eq, hsign, BitVec.toNat_ofNat]
  omega

/-- The encoding of the value a pattern stands for is the pattern, unless the value is a NaN. -/
theorem toBits_ofBits (nan w : Word) (hn : (Binary64.ofBits w).isNaN = false) :
    (Binary64.ofBits w).toBits nan = w := by
  obtain ⟨neg, e, f, he, hf, rfl⟩ := pattern_cases w
  rw [ofBits_fields he hf] at hn ⊢
  by_cases hexp : e = 2047
  · by_cases hfrac : f = 0
    · subst hexp hfrac
      rfl
    · rw [if_pos hexp, if_neg hfrac] at hn
      cases hn
  · rw [if_neg hexp]
    by_cases hsub : e = 0
    · have hmag := magnitudeBits_normal (c := f) (e := 0) (by omega) (.inl rfl)
      rw [pow_zero, Nat.mul_one] at hmag
      rw [if_pos hsub, Binary64.toBits, hmag, hsub]
    · have hmag := magnitudeBits_normal (c := 2 ^ 52 + f) (e := e - 1) (by omega) (.inr (by omega))
      have hplace : (e - 1) * 2 ^ 52 + (2 ^ 52 + f) = e * 2 ^ 52 + f := by omega
      rw [if_neg hsub, Binary64.toBits, hmag, hplace]

/-- Settles O39: the fields of a pattern are those its value is encoded with (`toBits_ofBits`), and every free pattern has a
NaN's exponent and a fraction that is not 0 (`ofBits_nanWord`). -/
theorem encodingKeepsNumbers : Obligations.EncodingKeepsNumbers :=
  ⟨fun w nan => toBits_ofBits nan w, ofBits_nanWord⟩

/-! ## NaN operands (R13, R172) -/

/-- A clamp answers exactly on values that are no NaN. -/
theorem clamp_eq_ok {x lo hi y : Binary64} :
    clamp x lo hi = .ok y ↔ x ≠ .nan ∧ y = if x.lt lo then lo else if hi.lt x then hi else x := by
  by_cases h : x = .nan
  · simp only [h, clamp_nan, reduceCtorEq, ne_eq, not_true, false_and]
  · simp only [clamp_of_not_nan h, Except.ok.injEq, ne_eq, h, not_false_iff, true_and, eq_comm]

/-- The value of R13's `clamp_lo0(x)` for an `x` that is no NaN (`clampLo0_eq_ok`). -/
def clampLo0Value (x : Binary64) : Binary64 := if x.lt (.num false 0) then .num false 0 else x

theorem clampLo0_eq_ok {x y : Binary64} : clampLo0 x = .ok y ↔ x ≠ .nan ∧ y = clampLo0Value x := by
  unfold clampLo0Value
  by_cases h : x = .nan
  · simp only [h, clampLo0_nan, reduceCtorEq, ne_eq, not_true, false_and]
  · simp only [clampLo0_of_not_nan h, Except.ok.injEq, ne_eq, h, not_false_iff, true_and, eq_comm]

theorem indexOfChroma_eq_ok {lut : Fin 16 → Word} {x : Binary64} {i : Nat} :
    indexOfChroma lut x = .ok i ↔ x ≠ .nan ∧ i = indexOfNonNan lut x := by
  by_cases h : x = .nan
  · simp [h, indexOfChroma, Binary64.isNaN]
  · simp [indexOfChroma, isNaN_of_ne h, h, eq_comm]

/-- R135: the coefficients of R134 are the binary64 numbers nearest to their decimals. -/
theorem linearRgb_coefficients : c1_402 = .ofDecimal false 1402 3 ∧ c0_344136 = .ofDecimal false 344136 6 ∧
    c0_714136 = .ofDecimal false 714136 6 ∧ c1_772 = .ofDecimal false 1772 3 := by decide +kernel

/-- The list of R134's linear values, by the functions the unit applies. -/
theorem linearRgb_eq (v : ComponentVideo) :
    linearRgb v = [linearR (.ofBits v.y) (.ofBits v.pr), linearG (.ofBits v.y) (.ofBits v.pb) (.ofBits v.pr),
      linearB (.ofBits v.y) (.ofBits v.pb)] := by
  obtain ⟨h1, h2, h3, h4⟩ := linearRgb_coefficients
  simp only [linearRgb, linearR, linearG, linearB, h1, h2, h3, h4]

theorem channelOf_ok_ne_nan {x : Binary64} {den c : BitVec 16} (h : channelOf x den = .ok c) : x ≠ .nan := by
  obtain ⟨_, hclamp, _⟩ := (andThen_eq_ok ..).mp h
  exact (clamp_eq_ok.mp hclamp).1

/-- A lane that CV2RGB completes has no NaN before its clamps. -/
theorem cvToRgb_ok_noNan {den : BitVec 16} {v : ComponentVideo} {p : Pixel} (h : cvToRgb den v = .ok p) :
    .nan ∉ linearRgb v := by
  simp only [cvToRgb, andThen_eq_ok] at h
  obtain ⟨_, hr, _, hg, _, hb, _⟩ := h
  simp [linearRgb_eq, (channelOf_ok_ne_nan hr).symm, (channelOf_ok_ne_nan hg).symm, (channelOf_ok_ne_nan hb).symm]

/-- A block that QUANT completes has no NaN among its six operands. -/
theorem quantizeBlock_ok_noNan {lut : Fin 16 → Word} {co : Coefficients} {q : Quantized}
    (h : quantizeBlock lut co = .ok q) : .nan ∉ quantInputs co := by
  simp only [quantizeBlock, quantizeA, quantizeBcd, andThen_eq_ok, clamp_eq_ok, indexOfChroma_eq_ok] at h
  obtain ⟨_, ⟨_, ⟨ha, _⟩, _⟩, _, ⟨_, ⟨hb, _⟩, _⟩, _, ⟨_, ⟨hc, _⟩, _⟩, _, ⟨_, ⟨hd, _⟩, _⟩, _, ⟨hpb, _⟩,
    _, ⟨hpr, _⟩, _⟩ := h
  simp [quantInputs, ha.symm, hb.symm, hc.symm, hd.symm, hpb.symm, hpr.symm]

/-- The list of R153's sums, lane by lane. -/
theorem mem_linearLuma {g : Regs} {x : Binary64} :
    x ∈ linearLuma g.co ↔ ∃ k : Lane, x = (inverseLumaWith fadd fsub (coLuma g)).get k := by
  simp [exists_lane, linearLuma, inverseLumaWith, coLuma]

/-- The lumas INVXF computes: each sum, clamped from below, if none is a NaN. -/
theorem inverseLuma_eq_ok {x : Luma Binary64} {y : Quad Binary64} :
    inverseLuma x = .ok y ↔ ∀ k : Lane, (inverseLumaWith fadd fsub x).get k ≠ .nan ∧
      y.get k = clampLo0Value ((inverseLumaWith fadd fsub x).get k) := by
  simp only [inverseLuma, Quad.mapCheck_eq_ok, clampLo0_eq_ok]

/-- A checked map that does not answer fails with the one cause its function has. -/
theorem mapCheck_eq_error_of_not_ok {α β : Type} {f : α → Except Cause β} {x : Quad α} {c : Cause}
    (hc : ∀ a c', f a = .error c' → c' = c) (h : ∀ y, x.mapCheck f ≠ .ok y) : x.mapCheck f = .error c := by
  cases hx : x.mapCheck f with
  | ok y => exact absurd hx (h y)
  | error c' =>
    obtain ⟨k, hk⟩ := Quad.mapCheck_eq_error _ _ _ hx
    rw [hc _ _ hk]

theorem cv2rgbLanes_of_nan {den : BitVec 16} {cv : Quad ComponentVideo} {k : Lane} (h : .nan ∈ linearRgb (cv.get k)) :
    cv.mapCheck (cvToRgb den) = .error .nanOperand :=
  mapCheck_eq_error_of_not_ok (fun _ _ => cvToRgb_error) fun _ hy =>
    cvToRgb_ok_noNan ((Quad.mapCheck_eq_ok ..).mp hy k) h

theorem inverseLuma_of_nan {g : Regs} (h : .nan ∈ linearLuma g.co) :
    inverseLuma (coLuma g) = .error .nanOperand := by
  obtain ⟨k, hk⟩ := mem_linearLuma.mp h
  exact mapCheck_eq_error_of_not_ok (fun _ _ => clampLo0_error) fun _ hy => (inverseLuma_eq_ok.mp hy k).1 hk.symm

theorem quantizeBlock_of_nan {lut : Fin 16 → Word} {co : Coefficients} (h : .nan ∈ quantInputs co) :
    quantizeBlock lut co = .error .nanOperand := by
  cases hq : quantizeBlock lut co with
  | ok q => exact absurd h (quantizeBlock_ok_noNan hq)
  | error c => rw [quantizeBlock_error hq]

theorem denCheck_of_ne_zero {g : Regs} (h : g.den ≠ 0) : denCheck g = .ok () :=
  (require_eq_ok ..).mpr (bne_iff_ne.mpr h)

/-- Settles O27: the checks of each of the three commands fail with NAN_OPERAND, and the command takes that fault. -/
theorem nanOperandFaults : Obligations.NanOperandFaults := by
  intro s
  refine ⟨fun hden ⟨k, hk⟩ => ?_, fun hnan => ?_, fun hnan => ?_⟩
  · rw [exec, execCv2rgb, denCheck_of_ne_zero hden, andThen_ok, cv2rgbLanes_of_nan hk]
    rfl
  · rw [exec, execInvxf, inverseLuma_of_nan hnan]
    rfl
  · rw [exec, execQuant, quantizeBlock_of_nan hnan]
    rfl

/-! ## INVXF (R153, R154) -/

/-- A clamped sum of R153 is a value a register can hold. -/
theorem inverseLuma_proper {x : Luma Binary64} {y : Quad Binary64} (h : inverseLuma x = .ok y) (k : Lane) :
    (y.get k).Proper := by
  have hsum : ∀ j : Lane, ((inverseLumaWith fadd fsub x).get j).Proper :=
    forall_lane.mpr ⟨fadd_proper _ _, fsub_proper _ _, fsub_proper _ _, fadd_proper _ _⟩
  rw [(inverseLuma_eq_ok.mp h k).2, clampLo0Value]
  split
  · exact zero_proper false
  · exact hsum k

/-- INVXF completes when no sum of R153 is a NaN. -/
theorem inverseLuma_of_noNan {g : Regs} (h : .nan ∉ linearLuma g.co) : ∃ y, inverseLuma (coLuma g) = .ok y :=
  ⟨(inverseLumaWith fadd fsub (coLuma g)).map clampLo0Value,
    inverseLuma_eq_ok.mpr fun k => ⟨fun hk => h (mem_linearLuma.mpr ⟨k, hk.symm⟩), Quad.get_map ..⟩⟩

/-- Settles O46: the stored lumas read back as the clamped sums, lane by lane. -/
theorem inverseTransformResult : Obligations.InverseTransformResult := by
  intro s hnan
  obtain ⟨y, hy⟩ := inverseLuma_of_noNan hnan
  have hread : ∀ k : Lane, Binary64.ofBits (s.encodeFloat 0 (y.get k)) = y.get k := fun k =>
    ofBits_encodeFloat s 0 (inverseLuma_proper hy k)
  have hluma : ∀ k : Lane, y.get k = clampLo0Value ((inverseLumaWith fadd fsub (coLuma s.regs)).get k) := fun k =>
    (inverseLuma_eq_ok.mp hy k).2
  refine ⟨y.map fun yk => ⟨s.encodeFloat 0 yk, s.regs.co.pb, s.regs.co.pr⟩, ?_, ?_, fun k => ?_⟩
  · rw [exec, execInvxf, hy]
    rfl
  · simp only [forall_lane, Quad.get_zero, Quad.get_one, Quad.get_two, Quad.get_three] at hread hluma
    obtain ⟨r0, r1, r2, r3⟩ := hread
    obtain ⟨l0, l1, l2, l3⟩ := hluma
    simp only [Quad.map, r0, r1, r2, r3]
    rw [l0, l1, l2, l3]
    rfl
  · rw [Quad.get_map]
    exact ⟨rfl, rfl⟩

end Sys2Proof.Machine

/-! PROOFS. The statements of 10_state.md: the fault record, the register map on the bus, the control register and reset,
and what a command's sources decide. -/

namespace Sys2Proof.Machine

/-! ## Words and commands (R70, R73) -/

/-- The rows of R74 and the unused fields of R72: a command, written with its own operands, is the only one an opcode and
two fields select. -/
theorem commandOf_eq_some_iff {op width lsb : Nat} {i : Instr} :
    (commandOf op width lsb = some i ∧ unusedFieldsZero i.fieldClass width lsb = true) ↔
      op = i.opcode.toNat ∧ width = i.width ∧ lsb = i.lsb := by
  constructor
  · rintro ⟨hrow, hunused⟩
    unfold commandOf at hrow
    split at hrow <;> cases hrow <;>
      simp_all [unusedFieldsZero, Instr.fieldClass, Instr.opcode, Instr.width, Instr.lsb]
  · rintro ⟨rfl, rfl, rfl⟩
    cases i <;> exact ⟨rfl, rfl⟩

/-- The order of R73's checks does not matter to a word that passes all of them. -/
theorem decode_eq_ok_iff_fields {v : Word} {i : Instr} :
    decode v = .ok i ↔ reservedField v = 0 ∧ commandOf (opField v) (widthField v) (lsbField v) = some i ∧
      unusedFieldsZero i.fieldClass (widthField v) (lsbField v) = true := by
  unfold decode
  by_cases hr : reservedField v = 0
  · cases hc : commandOf (opField v) (widthField v) (lsbField v) with
    | none => simp [hr]
    | some j =>
      by_cases hu : unusedFieldsZero j.fieldClass (widthField v) (lsbField v) = true
      · simp only [hr, hu, ne_eq, not_true, if_false, if_true, Except.ok.injEq, Option.some.injEq, true_and]
        exact ⟨fun h => ⟨h, h ▸ hu⟩, fun h => h.1⟩
      · simp only [hr, hu, ne_eq, not_true, if_false, reduceCtorEq, Option.some.injEq, true_and, false_iff, not_and]
        exact fun h => h ▸ hu
  · simp [hr]

/-- R70, R73: a word decodes to a command exactly if it is the command's encoding. -/
theorem decode_eq_ok_iff {v : Word} {i : Instr} : decode v = .ok i ↔ i.WellFormed ∧ encode i = v := by
  have hword : encode i = v ↔ i.lsb % 256 * 65536 + (i.width % 256 * 256 + i.opcode.toNat) = v.toNat := by
    rw [← Laws.EncodingShape.encode_toNat, BitVec.toNat_inj]
  have hwf : i.WellFormed ↔ i.width ≤ 255 ∧ i.lsb ≤ 255 := by
    simp [Instr.WellFormed, Instr.wf, Instr.widthOk, Instr.lsbOk]
  have hv := v.isLt
  have hop := i.opcode.isLt
  rw [decode_eq_ok_iff_fields, commandOf_eq_some_iff, hword, hwf]
  simp only [reservedField, opField, widthField, lsbField, BitVec.extractLsb'_toNat, Nat.shiftRight_eq_div_pow]
  omega

/-- R73: a word that decodes is the encoding of its command, so the word a faulting command records decodes to it. -/
theorem decode_encode_of_decode {v : Word} {i : Instr} (h : decode v = .ok i) : decode (encode i) = .ok i := by
  obtain ⟨_, rfl⟩ := decode_eq_ok_iff.mp h
  exact h

/-! ## The fault record (R26, R211, R212) -/

theorem recordExplains_of_illegal {v : Word} {e : Reject} (h : decode v = .error e) : RecordExplains .illegalCmd v := by
  rw [RecordExplains, h]

theorem recordExplains_of_mayRaise {v : Word} {i : Instr} {c : Cause} (h : decode v = .ok i) (hc : MayRaise c i) :
    RecordExplains c v := by
  rw [RecordExplains, h]
  exact hc

/-- The record is FAULT, CAUSE and FAULT_CMD: registers that agree on these agree on it. -/
theorem FaultRecordOk.congr {g g' : Regs} (h : FaultRecordOk g) (hf : g'.fault = g.fault) (hc : g'.cause = g.cause)
    (hv : g'.faultCmd = g.faultCmd) : FaultRecordOk g' := by
  rw [FaultRecordOk, hf, hc, hv]
  exact h

theorem faultRecordOk_reset : FaultRecordOk Regs.reset := ⟨fun _ => ⟨rfl, rfl⟩, fun h => nomatch h⟩

theorem faultRecordOk_store {g : Regs} (h : FaultRecordOk g) (v : Word) (r : RegName) : FaultRecordOk (g.store v r) :=
  h.congr (Regs.store_fault ..) (Regs.store_cause ..) (Regs.store_faultCmd ..)

theorem faultRecordOk_faultEntry (g : Regs) {c : Cause} {v : Word} (h : RecordExplains c v) :
    FaultRecordOk (g.faultEntry c v) :=
  ⟨fun hf => (nomatch hf), fun _ => ⟨c, rfl, h⟩⟩

/-- A command either records a cause its row of R211 allows, with its own word, or leaves the record alone. -/
theorem exec_keeps_record {i : Instr} {s t : State} (hi : decode (encode i) = .ok i) (h : s.Inv)
    (ht : exec i s = .next t) : t.Inv := by
  rcases exec_cases i s with ⟨c, hc, he⟩ | ⟨g, hg, he | ⟨_, he⟩⟩ <;> rw [he] at ht <;> cases ht
  · exact faultRecordOk_faultEntry _ (recordExplains_of_mayRaise hi hc)
  · exact h.congr hg.fault hg.cause hg.faultCmd
  · exact h.congr hg.fault hg.cause hg.faultCmd

/-- R27, R73, R214: in the fault state the write is ignored, an illegal word records itself, and any other word performs
its command. -/
theorem writeCmd_keeps_record {v : Word} {s t : State} (h : s.Inv) (ht : writeCmd exec v s = .next t) : t.Inv := by
  cases hf : s.regs.fault with
  | true =>
    rw [writeCmd_faulted exec v hf] at ht
    cases ht
    exact h
  | false =>
    cases hd : decode v with
    | error e =>
      rw [writeCmd_illegal exec hf hd] at ht
      cases ht
      exact faultRecordOk_faultEntry _ (recordExplains_of_illegal hd)
    | ok i =>
      rw [writeCmd_ok exec hf hd] at ht
      exact exec_keeps_record (decode_encode_of_decode hd) h ht

theorem performTxn_keeps_record {x : HostTxn} {s t : State} (h : s.Inv) (ht : performTxn exec x s = .next t) :
    t.Inv := by
  rcases performTxn_cases exec x s with ⟨_, he⟩ | ⟨_, _, he⟩ | ⟨r, v, he⟩ | ⟨v, _, he⟩ <;> rw [he] at ht
  · cases ht
    exact h
  · cases ht
    exact faultRecordOk_reset
  · cases ht
    exact faultRecordOk_store h v r
  · exact writeCmd_keeps_record (s := s.answer (.ofWrite .ok)) h ht

/-- Settles O21: an idle step keeps the state, and every transaction keeps the record truthful
(`performTxn_keeps_record`). -/
theorem stepKeepsFaultRecord : Obligations.StepKeepsFaultRecord := by
  intro s t h ht
  cases hp : s.pending with
  | nil =>
    rw [step_idle hp] at ht
    cases ht
    exact h
  | cons x rest =>
    rw [step_txn hp] at ht
    exact performTxn_keeps_record (s := { s with pending := rest }) h ht

/-- Settles O22: at reset FAULT, CAUSE and FAULT_CMD are 0. -/
theorem resetHasFaultRecord : Obligations.ResetHasFaultRecord := faultRecordOk_reset

/-! ## The register map (R22, R23, R55) -/

/-- The rows of R22 stand 8 bytes apart, from 0 to 0x128. -/
theorem allRegs_offsets : allRegs.map RegName.offset = (List.range 38).map (8 * ·) := by decide

theorem exists_offset_eq_iff {off : Nat} : (∃ r : RegName, r.offset = off) ↔ off % 8 = 0 ∧ off ≤ 0x128 := by
  have hmem : (∃ r : RegName, r.offset = off) ↔ off ∈ allRegs.map RegName.offset := by
    simp [List.mem_map, mem_allRegs]
  rw [hmem, allRegs_offsets, List.mem_map]
  simp only [List.mem_range]
  exact ⟨fun ⟨n, hn, h⟩ => by omega, fun h => ⟨off / 8, by omega, by omega⟩⟩

@[simp] theorem regAt_offset (r : RegName) : regAt r.offset = some r :=
  forall_reg (p := fun r => regAt r.offset = some r) (by decide) r

theorem offset_injective {r r' : RegName} (h : r.offset = r'.offset) : r = r' :=
  Option.some.inj (by rw [← regAt_offset r, h, regAt_offset])

@[simp] theorem legalAccess_offset (r : RegName) : legalAccess r.offset 8 = true := by
  obtain ⟨hmod, hle⟩ := exists_offset_eq_iff.mp ⟨r, rfl⟩
  simp [legalAccess, hmod, hle]

/-- Settles O12: the table of R22 holds each multiple of 8 up to 0x128 once (`allRegs_offsets`, `regAt_offset`). -/
theorem mappedOffsets : Obligations.MappedOffsets :=
  ⟨fun _ => exists_offset_eq_iff.symm, fun _ _ => offset_injective, regAt_offset⟩

/-! ## Reads (R56, R58) -/

/-- A bus read at a register's offset returns what the register reads, and changes nothing but the response. -/
theorem readsAs_offset (s : State) (r : RegName) : ReadsAs s r.offset (s.regs.read r) := by
  rw [ReadsAs, step_issuing, performTxn_read, busRead, if_pos (legalAccess_offset r), regAt_offset]
  rfl

theorem statusWord_eq (fault : Bool) (cause : BitVec 8) :
    statusWord fault cause = BitVec.ofNat 64 (cause.toNat * 256 + fault.toNat) := by
  have hc := cause.isLt
  have hf := Bool.toNat_lt fault
  apply BitVec.eq_of_toNat_eq
  rw [statusWord, BitVec.toNat_setWidth, BitVec.toNat_append, BitVec.toNat_append, BitVec.toNat_ofBool,
    ← Nat.shiftLeft_add_eq_or_of_lt hf, ← Nat.shiftLeft_add_eq_or_of_lt (BitVec.isLt _)]
  simp only [Nat.shiftLeft_eq, BitVec.toNat_ofNat]
  omega

/-- R29: a pixel's channels at bits 15:0, 31:16 and 47:32. -/
theorem Pixel.toNat_toWord (p : Pixel) : p.toWord.toNat = p.r.toNat + p.g.toNat * 2 ^ 16 + p.b.toNat * 2 ^ 32 := by
  have hr := p.r.isLt
  have hg := p.g.isLt
  have hb := p.b.isLt
  rw [Pixel.toWord, BitVec.toNat_setWidth, BitVec.toNat_append, BitVec.toNat_append,
    ← Nat.shiftLeft_add_eq_or_of_lt hr, ← Nat.shiftLeft_add_eq_or_of_lt hg]
  simp only [Nat.shiftLeft_eq]
  omega

theorem Pixel.toWord_eq (p : Pixel) :
    p.toWord = BitVec.ofNat 64 (p.r.toNat + p.g.toNat * 2 ^ 16 + p.b.toNat * 2 ^ 32) := by
  rw [← p.toNat_toWord, BitVec.ofNat_toNat, BitVec.setWidth_eq]

/-- Settles O9: each offset is its register's (`readsAs_offset`), and STATUS, DEN, the PIX registers and CW read as the
numbers of their fields. -/
theorem readsFollowRegisterMap : Obligations.ReadsFollowRegisterMap := by
  intro s
  have hread := readsAs_offset s
  refine ⟨hread .id, hread .ctrl, statusWord_eq .. ▸ hread .status, hread .faultCmd, hread .cmd,
    (BitVec.ofNat_toNat 64 s.regs.den).symm ▸ hread .den, fun k => Pixel.toWord_eq _ ▸ hread (.pix k),
    fun k => ⟨hread (.cv k .y), hread (.cv k .pb), hread (.cv k .pr)⟩,
    ⟨hread (.co .a), hread (.co .b), hread (.co .c), hread (.co .d), hread (.co .pb), hread (.co .pr)⟩,
    ⟨hread (.q .a), hread (.q .b), hread (.q .c), hread (.q .d), hread (.q .pb), hread (.q .pr)⟩,
    (BitVec.ofNat_toNat 64 s.regs.cw).symm ▸ hread .cw, hread .bw, hread .bv, hread .br⟩

/-! ## Writes (R54, R56) -/

/-- The low `n` bits of a word, cut out and zero-extended. -/
theorem setWidth_extractLsb'_zero (v : Word) (n : Nat) : (v.extractLsb' 0 n).setWidth 64 = v &&& mask 64 n := by
  apply BitVec.eq_of_getLsbD_eq
  intro j hj
  rw [BitVec.getLsbD_setWidth, BitVec.getLsbD_extractLsb', BitVec.getLsbD_and, mask_getLsbD, Nat.zero_add,
    Bool.and_comm (v.getLsbD j), Bool.and_assoc]

/-- R29: bits 63:48 of a word written to a PIX register are lost. -/
theorem Pixel.toWord_ofWord (v : Word) : (Pixel.ofWord v).toWord = v &&& 0x0000FFFFFFFFFFFF#64 := by
  have hmask : (v &&& 0x0000FFFFFFFFFFFF#64).toNat = v.toNat % 2 ^ 48 := Nat.and_two_pow_sub_one_eq_mod v.toNat 48
  apply BitVec.eq_of_toNat_eq
  rw [hmask, Pixel.toNat_toWord]
  simp only [Pixel.ofWord, BitVec.extractLsb'_toNat, Nat.shiftRight_eq_div_pow]
  omega

/-- An RW register keeps of a written word the bits R22 gives it. -/
theorem Regs.read_store_same (g : Regs) (v : Word) {r : RegName} (h : r.access = .rw) :
    (g.store v r).read r = v &&& r.writable := by
  have hall : v = v &&& 0xFFFFFFFFFFFFFFFF#64 := (BitVec.and_allOnes (x := v)).symm
  cases r with
  | id | ctrl | status | faultCmd | cmd => cases h
  | den => exact setWidth_extractLsb'_zero v 16
  | cw => exact setWidth_extractLsb'_zero v 32
  | pix k =>
    rw [Regs.store, Regs.read, Quad.get_set_same]
    exact Pixel.toWord_ofWord v
  | cv k m =>
    rw [Regs.store, Regs.read, Quad.get_set_same, ComponentVideo.get_set_same]
    exact hall
  | co f =>
    rw [Regs.store, Regs.read, Coefficients.get_set_same]
    exact hall
  | q f =>
    rw [Regs.store, Regs.read, Quantized.get_set_same]
    exact hall
  | bw | bv | br => exact hall

/-- A store reaches one register only. -/
theorem Regs.read_store_other (g : Regs) (v : Word) {r r' : RegName} (h : r' ≠ r) :
    (g.store v r).read r' = g.read r' := by
  cases r with
  | id | ctrl | status | faultCmd | cmd => rfl
  | den => cases r' with | den => exact absurd rfl h | _ => rfl
  | cw => cases r' with | cw => exact absurd rfl h | _ => rfl
  | bw => cases r' with | bw => exact absurd rfl h | _ => rfl
  | bv => cases r' with | bv => exact absurd rfl h | _ => rfl
  | br => cases r' with | br => exact absurd rfl h | _ => rfl
  | pix k =>
    cases r' with
    | pix j =>
      rw [Regs.store, Regs.read, Quad.get_set_other _ _ _ _ fun e => h (congrArg _ e)]
      rfl
    | _ => rfl
  | cv k m =>
    cases r' with
    | cv j n =>
      rw [Regs.store, Regs.read, Regs.read]
      by_cases hj : j = k
      · subst hj
        rw [Quad.get_set_same, ComponentVideo.get_set_other _ _ _ _ fun e => h (congrArg _ e)]
      · rw [Quad.get_set_other _ _ _ _ hj]
    | _ => rfl
  | co f =>
    cases r' with
    | co e =>
      rw [Regs.store, Regs.read, Coefficients.get_set_other _ _ _ _ fun e => h (congrArg _ e)]
      rfl
    | _ => rfl
  | q f =>
    cases r' with
    | q e =>
      rw [Regs.store, Regs.read, Quantized.get_set_other _ _ _ _ fun e => h (congrArg _ e)]
      rfl
    | _ => rfl

/-- A bus write at a register's offset is that register's write, in every state. -/
theorem step_write_offset (s : State) (r : RegName) (v : Word) :
    step (s.issuing (.write r.offset 8 v)) = writeReg exec r v (s.answer (.ofWrite .ok)) := by
  rw [step_issuing, performTxn_write (legalAccess_offset r) (regAt_offset r)]

/-- Every register but CTRL and CMD, whose writes are actions, stores what is written to it. -/
theorem writeReg_eq_store (p : Instr → State → Out) {r : RegName} (h : r.access ≠ .wo) (v : Word) (s : State) :
    writeReg p r v s = .next { s with regs := s.regs.store v r } := by
  cases r with
  | ctrl | cmd => exact absurd rfl h
  | _ => rfl

/-- Settles O10: an RW register takes the store, which reaches no other (`Regs.read_store_same`,
`Regs.read_store_other`); a store to ID, STATUS or FAULT_CMD is none. -/
theorem writeReadsBackMasked : Obligations.WriteReadsBackMasked := by
  refine ⟨fun s r v hrw => ⟨s.regs.store v r, ?_, s.regs.read_store_same v hrw, fun _ => s.regs.read_store_other v⟩,
    fun s off v hoff => ?_⟩
  · rw [step_write_offset, writeReg_eq_store exec (by rw [hrw]; decide)]
    rfl
  · rcases hoff with rfl | rfl | rfl
    · exact step_write_offset s .id v
    · exact step_write_offset s .status v
    · exact step_write_offset s .faultCmd v

/-! ## Control, reset and commands (R25, R27, R240, R241) -/

theorem step_hardReset (s : State) :
    step (s.issuing .hardReset) = .next { s with regs := State.reset.regs, response := none } := rfl

/-- R25: a CTRL write looks at SRESET, bit 0, and at nothing else. -/
theorem step_writeCtrl (s : State) (v : Word) :
    step (s.issuing (.write 0x008 8 v)) =
      .next { s with
        regs := if v.toNat % 2 = 1 then State.reset.regs else s.regs
        response := some (.ofWrite .ok) } := by
  have hbit : v.getLsbD 0 = decide (v.toNat % 2 = 1) := Nat.testBit_zero v.toNat
  rw [step_issuing, performTxn_writeCtrl, writeCtrl, hbit]
  by_cases h : v.toNat % 2 = 1
  · simp only [h, decide_true, if_true]
    rfl
  · simp only [h, decide_false, if_false]
    rfl

/-- Settles O13: SRESET decides the write (`step_writeCtrl`), and CTRL holds nothing to read. -/
theorem controlRegister : Obligations.ControlRegister := by
  intro s v
  refine ⟨fun h => ?_, fun h => ?_, readsAs_offset s .ctrl⟩
  · rw [step_writeCtrl, if_pos h]
  · rw [step_writeCtrl, if_neg (by omega)]

/-- Settles O14: each of the two resets leaves the reset registers (`step_hardReset`, `step_writeCtrl`). -/
theorem resetValues : Obligations.ResetValues :=
  ⟨rfl, fun s => ⟨⟨_, step_hardReset s, rfl, rfl⟩, ⟨_, step_writeCtrl s 1, rfl, rfl, rfl⟩, rfl, by decide, rfl, rfl⟩⟩

/-- Settles O7: the word of a well-formed command decodes to it (`decode_eq_ok_iff`), and the write performs it. -/
theorem stepPerformsDecodedCommand : Obligations.StepPerformsDecodedCommand := by
  intro s i rest hi hf hp
  rw [step_txn hp, performTxn_writeCmd]
  exact writeCmd_ok exec hf (decode_eq_ok_iff.mpr ⟨hi, rfl⟩)

/-! ## Sources and destinations of a command (R245) -/

section
variable {i : Instr} {g g' : Regs}

/-- What two runs of `i` have in common if they agree on its sources: the fault and its record, or the values left in the
destination registers. -/
def SameEffect (i : Instr) (g g' : Regs) : Prop :=
  g.fault = g'.fault ∧
  (g.fault = true → g.cause = g'.cause ∧ g.faultCmd = g'.faultCmd) ∧
  (g.fault = false → ∀ r : RegName, writesReg i r = true → SameValue r (g.read r) (g'.read r))

/-- The same on what two runs answer. -/
def SameAnswer (i : Instr) (x x' : Out) : Prop :=
  ∃ t t', x = .next t ∧ x' = .next t' ∧ SameEffect i t.regs t'.regs

/-- The same on what the checks and the last line of `i` give: one cause, or registers with the same values. -/
inductive SameOutcome (i : Instr) : Except Cause Regs → Except Cause Regs → Prop
  | error (c : Cause) : SameOutcome i (.error c) (.error c)
  | ok {g g' : Regs} (h : SameEffect i g g') : SameOutcome i (.ok g) (.ok g')

theorem sameAnswer_finish {s s' : State} {o o' : Except Cause Regs} (h : SameOutcome i o o') :
    SameAnswer i (finish (encode i) o s) (finish (encode i) o' s') := by
  cases h with
  | error c => exact ⟨_, _, rfl, rfl, rfl, fun _ => ⟨rfl, rfl⟩, fun hf => nomatch hf⟩
  | ok h => exact ⟨_, _, rfl, rfl, h⟩

/-- A check of the sources has one result in both runs. -/
theorem sameOutcome_andThen {α : Type} {x x' : Except Cause α} {f f' : α → Except Cause Regs} (hx : x = x')
    (hf : ∀ a, x = .ok a → SameOutcome i (f a) (f' a)) : SameOutcome i (andThen x f) (andThen x' f') := by
  subst hx
  cases x with
  | error c => exact .error c
  | ok a => exact hf a rfl

theorem sameEffect_of_values (hf : g.fault = false) (hf' : g'.fault = false)
    (h : ∀ r : RegName, writesReg i r = true → SameValue r (g.read r) (g'.read r)) : SameEffect i g g' :=
  ⟨hf.trans hf'.symm, fun ht => absurd (ht.symm.trans hf) (by decide), fun _ => h⟩

/-! ### One set of destination registers at a time -/

theorem sameEffect_br (hi : ∀ r, writesReg i r = (r == .br)) (hf : g.fault = false) (hf' : g'.fault = false)
    {x x' : Word} (hx : x = x') : SameEffect i { g with br := x } { g' with br := x' } := by
  refine sameEffect_of_values hf hf' fun r hr => ?_
  obtain rfl : r = .br := by simpa [hi] using hr
  exact hx

/-- A command with the destinations of RGB2CV, whose results are the same numbers or both a NaN. -/
theorem sameEffect_cv (hi : ∀ r, writesReg i r = writesReg .rgb2cv r) (hf : g.fault = false) (hf' : g'.fault = false)
    {x x' : Quad ComponentVideo} (hx : ∀ k m, Binary64.ofBits ((x.get k).get m) = Binary64.ofBits ((x'.get k).get m)) :
    SameEffect i { g with cv := x } { g' with cv := x' } := by
  refine sameEffect_of_values hf hf' fun r hr => ?_
  rw [hi] at hr
  cases r with
  | cv k m => exact hx k m
  | _ => cases hr

/-- A command with the destinations of FWDXF, whose results are the same numbers or both a NaN. -/
theorem sameEffect_co (hi : ∀ r, writesReg i r = writesReg .fwdxf r) (hf : g.fault = false) (hf' : g'.fault = false)
    {x x' : Coefficients} (hx : ∀ f, Binary64.ofBits (x.get f) = Binary64.ofBits (x'.get f)) :
    SameEffect i { g with co := x } { g' with co := x' } := by
  refine sameEffect_of_values hf hf' fun r hr => ?_
  rw [hi] at hr
  cases r with
  | co f => exact hx f
  | _ => cases hr

theorem sameEffect_pix (hf : g.fault = false) (hf' : g'.fault = false) (x : Quad Pixel) :
    SameEffect .cv2rgb { g with pix := x } { g' with pix := x } := by
  refine sameEffect_of_values hf hf' fun r hr => ?_
  cases r with
  | pix k => rfl
  | _ => cases hr

/-- A command with the destinations of QUANT. -/
theorem sameEffect_q (hi : ∀ r, writesReg i r = writesReg .quant r) (hf : g.fault = false) (hf' : g'.fault = false)
    (x : Quantized) : SameEffect i { g with q := x } { g' with q := x } := by
  refine sameEffect_of_values hf hf' fun r hr => ?_
  rw [hi] at hr
  cases r with
  | q f => rfl
  | _ => cases hr

theorem sameEffect_cw (hf : g.fault = false) (hf' : g'.fault = false) (x : Word32) :
    SameEffect .pack { g with cw := x } { g' with cw := x } := by
  refine sameEffect_of_values hf hf' fun r hr => ?_
  cases r with
  | cw => rfl
  | _ => cases hr

/-! ### Sources that read alike are alike -/

theorem Pixel.toWord_injective {p p' : Pixel} (h : p.toWord = p'.toWord) : p = p' := by
  have hn := congrArg BitVec.toNat h
  rw [Pixel.toNat_toWord, Pixel.toNat_toWord] at hn
  have hr := p.r.isLt
  have hg := p.g.isLt
  have hr' := p'.r.isLt
  have hg' := p'.g.isLt
  ext1 <;> apply BitVec.eq_of_toNat_eq <;> omega

theorem Quad.ext_get {α : Type} {x x' : Quad α} (h : ∀ k, x.get k = x'.get k) : x = x' :=
  Quad.ext (h 0) (h 1) (h 2) (h 3)

theorem setWidth_injective {n : Nat} (hn : n ≤ 64) {x y : BitVec n} (h : x.setWidth 64 = y.setWidth 64) : x = y := by
  simpa [hn] using congrArg (BitVec.setWidth n) h

theorem den_eq_of_read (h : g.read .den = g'.read .den) : g.den = g'.den := setWidth_injective (by norm_num) h

theorem cw_eq_of_read (h : g.read .cw = g'.read .cw) : g.cw = g'.cw := setWidth_injective (by norm_num) h

theorem pix_eq_of_read (h : ∀ k, g.read (.pix k) = g'.read (.pix k)) : g.pix = g'.pix :=
  Quad.ext_get fun k => Pixel.toWord_injective (h k)

theorem cv_eq_of_read (h : ∀ k m, g.read (.cv k m) = g'.read (.cv k m)) : g.cv = g'.cv :=
  Quad.ext_get fun k => ComponentVideo.ext (h k .y) (h k .pb) (h k .pr)

theorem co_eq_of_read (h : ∀ f, g.read (.co f) = g'.read (.co f)) : g.co = g'.co :=
  Coefficients.ext (h .a) (h .b) (h .c) (h .d) (h .pb) (h .pr)

theorem q_eq_of_read (h : ∀ f, g.read (.q f) = g'.read (.q f)) : g.q = g'.q :=
  Quantized.ext (h .a) (h .b) (h .c) (h .d) (h .pb) (h .pr)

end

/-! ### The commands -/

/-- What a binary64 result reads back as does not depend on the state that stored it, a NaN's pattern apart. -/
theorem ofBits_encodeFloat_congr (s s' : State) (slot : Nat) {x : Binary64} (hx : x.Proper) :
    Binary64.ofBits (s.encodeFloat slot x) = Binary64.ofBits (s'.encodeFloat slot x) := by
  rw [ofBits_encodeFloat s slot hx, ofBits_encodeFloat s' slot hx]

theorem ComponentVideo.ofBits_get_congr {v v' : ComponentVideo} (hy : Binary64.ofBits v.y = Binary64.ofBits v'.y)
    (hpb : Binary64.ofBits v.pb = Binary64.ofBits v'.pb) (hpr : Binary64.ofBits v.pr = Binary64.ofBits v'.pr)
    (m : Component) : Binary64.ofBits (v.get m) = Binary64.ofBits (v'.get m) := by
  cases m with
  | y => exact hy
  | pb => exact hpb
  | pr => exact hpr

theorem Coefficients.ofBits_get_congr {x x' : Coefficients} (ha : Binary64.ofBits x.a = Binary64.ofBits x'.a)
    (hb : Binary64.ofBits x.b = Binary64.ofBits x'.b) (hc : Binary64.ofBits x.c = Binary64.ofBits x'.c)
    (hd : Binary64.ofBits x.d = Binary64.ofBits x'.d) (hpb : Binary64.ofBits x.pb = Binary64.ofBits x'.pb)
    (hpr : Binary64.ofBits x.pr = Binary64.ofBits x'.pr) (f : BlockField) :
    Binary64.ofBits (x.get f) = Binary64.ofBits (x'.get f) := by
  cases f with
  | a => exact ha
  | b => exact hb
  | c => exact hc
  | d => exact hd
  | pb => exact hpb
  | pr => exact hpr

theorem rgbToCv_proper (p : Pixel) (den : BitVec 16) :
    (rgbToCv p den).y.Proper ∧ (rgbToCv p den).pb.Proper ∧ (rgbToCv p den).pr.Proper := by
  simp only [rgbToCv]
  exact ⟨fadd_proper _ _, fadd_proper _ _, fsub_proper _ _⟩

/-- The stored triple of a lane, its components kept as variables here so that no proof term computes one. -/
theorem ofBits_encodeTriple_congr (s s' : State) {x : VideoTriple} (hy : x.y.Proper) (hpb : x.pb.Proper)
    (hpr : x.pr.Proper) (m : Component) :
    Binary64.ofBits ((s.encodeTriple x).get m) = Binary64.ofBits ((s'.encodeTriple x).get m) := by
  refine ComponentVideo.ofBits_get_congr ?_ ?_ ?_ m
  · exact ofBits_encodeFloat_congr s s' 0 hy
  · exact ofBits_encodeFloat_congr s s' 1 hpb
  · exact ofBits_encodeFloat_congr s s' 2 hpr

theorem ofBits_dequantizeBlock_congr (s s' : State) (lut : Fin 16 → Word) (q : Quantized) (f : BlockField) :
    Binary64.ofBits ((s.dequantizeBlock lut q).get f) = Binary64.ofBits ((s'.dequantizeBlock lut q).get f) := by
  have ha (n : Int) : (dequantizeA n).Proper := fdiv_proper _ _
  have hbcd (n : Int) : (dequantizeBcd n).Proper := fdiv_proper _ _
  refine Coefficients.ofBits_get_congr ?_ ?_ ?_ ?_ ?_ ?_ f
  · exact ofBits_encodeFloat_congr s s' 0 (ha _)
  · exact ofBits_encodeFloat_congr s s' 1 (hbcd _)
  · exact ofBits_encodeFloat_congr s s' 2 (hbcd _)
  · exact ofBits_encodeFloat_congr s s' 3 (hbcd _)
  · rfl
  · rfl

section
variable {i : Instr} {s s' : State} (hf : s.regs.fault = false) (hf' : s'.regs.fault = false)
include hf hf'

/-- A fits or a get: its limits are its immediates', and its result goes to BR. -/
theorem sameAnswer_check_br (hi : ∀ r, writesReg i r = (r == .br)) (check : Except Cause Unit) {x x' : Word}
    (hx : x = x') :
    SameAnswer i (finish (encode i) (andThen check fun _ => .ok { s.regs with br := x }) s)
      (finish (encode i) (andThen check fun _ => .ok { s'.regs with br := x' }) s') :=
  sameAnswer_finish (sameOutcome_andThen rfl fun _ _ => .ok (sameEffect_br hi hf hf' hx))

/-- A set: after its limits the value of BV is checked. -/
theorem sameAnswer_check_require_br (hi : ∀ r, writesReg i r = (r == .br)) (check : Except Cause Unit) (c : Cause)
    {fit fit' : Bool} (hfit : fit = fit') {x x' : Word} (hx : x = x') :
    SameAnswer i
      (finish (encode i) (andThen check fun _ => andThen (require fit c) fun _ => .ok { s.regs with br := x }) s)
      (finish (encode i) (andThen check fun _ => andThen (require fit' c) fun _ => .ok { s'.regs with br := x' }) s') :=
  sameAnswer_finish (sameOutcome_andThen rfl fun _ _ => sameOutcome_andThen (hfit ▸ rfl) fun _ _ =>
    .ok (sameEffect_br hi hf hf' hx))

theorem execRgb2cv_sameAnswer (hden : s.regs.den = s'.regs.den) (hpix : s.regs.pix = s'.regs.pix) :
    SameAnswer .rgb2cv (execRgb2cv s) (execRgb2cv s') := by
  have hcheck : pixelCheck s.regs = pixelCheck s'.regs := by rw [pixelCheck, denCheck, hden, hpix, pixelCheck, denCheck]
  refine sameAnswer_finish (sameOutcome_andThen hcheck fun _ _ => .ok (sameEffect_cv (fun _ => rfl) hf hf' fun k m => ?_))
  rw [Quad.get_map, Quad.get_map, hden, hpix]
  obtain ⟨hy, hpb, hpr⟩ := rgbToCv_proper (s'.regs.pix.get k) s'.regs.den
  exact ofBits_encodeTriple_congr s s' hy hpb hpr m

theorem execCv2rgb_sameAnswer (hden : s.regs.den = s'.regs.den) (hcv : s.regs.cv = s'.regs.cv) :
    SameAnswer .cv2rgb (execCv2rgb s) (execCv2rgb s') := by
  have hcheck : denCheck s.regs = denCheck s'.regs := by rw [denCheck, hden, denCheck]
  exact sameAnswer_finish (sameOutcome_andThen hcheck fun _ _ =>
    sameOutcome_andThen (by rw [hden, hcv]) fun pix _ => .ok (sameEffect_pix hf hf' pix))

theorem execFwdxf_sameAnswer (hcv : s.regs.cv = s'.regs.cv) :
    SameAnswer .fwdxf (execFwdxf s) (execFwdxf s') := by
  have hvalues : ∀ m, cvValues s.regs m = cvValues s'.regs m := fun m => by rw [cvValues, hcv, cvValues]
  refine ⟨_, _, rfl, rfl, sameEffect_co (fun _ => rfl) hf hf' fun f => ?_⟩
  rw [hvalues, hvalues, hvalues]
  refine Coefficients.ofBits_get_congr ?_ ?_ ?_ ?_ ?_ ?_ f
  · exact ofBits_encodeFloat_congr s s' 0 (fdiv_proper _ _)
  · exact ofBits_encodeFloat_congr s s' 1 (fdiv_proper _ _)
  · exact ofBits_encodeFloat_congr s s' 2 (fdiv_proper _ _)
  · exact ofBits_encodeFloat_congr s s' 3 (fdiv_proper _ _)
  · exact ofBits_encodeFloat_congr s s' 4 (fdiv_proper _ _)
  · exact ofBits_encodeFloat_congr s s' 5 (fdiv_proper _ _)

theorem execInvxf_sameAnswer (hco : s.regs.co = s'.regs.co) : SameAnswer .invxf (execInvxf s) (execInvxf s') := by
  have hluma : coLuma s.regs = coLuma s'.regs := by rw [coLuma, hco, coLuma]
  refine sameAnswer_finish (sameOutcome_andThen (by rw [hluma]) fun y hy =>
    .ok (sameEffect_cv (fun _ => rfl) hf hf' fun k m => ?_))
  rw [Quad.get_map, Quad.get_map, hco]
  refine ComponentVideo.ofBits_get_congr ?_ ?_ ?_ m
  · exact ofBits_encodeFloat_congr s s' 0 (inverseLuma_proper hy k)
  · rfl
  · rfl

theorem execQuant_sameAnswer (hco : s.regs.co = s'.regs.co) : SameAnswer .quant (execQuant s) (execQuant s') :=
  sameAnswer_finish (sameOutcome_andThen (by rw [hco]) fun q _ => .ok (sameEffect_q (fun _ => rfl) hf hf' q))

theorem execDequant_sameAnswer (hq : s.regs.q = s'.regs.q) : SameAnswer .dequant (execDequant s) (execDequant s') := by
  refine sameAnswer_finish (sameOutcome_andThen (by rw [hq]) fun _ _ =>
    .ok (sameEffect_co (fun _ => rfl) hf hf' fun f => ?_))
  rw [hq]
  exact ofBits_dequantizeBlock_congr s s' chromaLut s'.regs.q f

theorem execPack_sameAnswer (hq : s.regs.q = s'.regs.q) : SameAnswer .pack (execPack s) (execPack s') := by
  rw [execPack, execPack, hq]
  exact sameAnswer_finish (sameOutcome_andThen rfl fun _ _ => .ok (sameEffect_cw hf hf' _))

theorem execUnpack_sameAnswer (hcw : s.regs.cw = s'.regs.cw) : SameAnswer .unpack (execUnpack s) (execUnpack s') := by
  rw [execUnpack, execUnpack, hcw]
  exact sameAnswer_finish (.ok (sameEffect_q (fun _ => rfl) hf hf' _))

/-- R245: two runs of a command that agree on its sources answer the same. -/
theorem exec_sameAnswer (h : ∀ r, readsReg i r = true → s.regs.read r = s'.regs.read r) :
    SameAnswer i (exec i s) (exec i s') := by
  have hbw (hr : readsReg i .bw = true) : s.regs.bw = s'.regs.bw := h .bw hr
  have hbv (hr : readsReg i .bv = true) : s.regs.bv = s'.regs.bv := h .bv hr
  cases i with
  | fitsu w => exact sameAnswer_check_br hf hf' (fun _ => rfl) _ (by rw [hbv rfl])
  | fitss w => exact sameAnswer_check_br hf hf' (fun _ => rfl) _ (by rw [hbv rfl])
  | getu w l => exact sameAnswer_check_br hf hf' (fun _ => rfl) _ (by rw [hbw rfl])
  | gets w l => exact sameAnswer_check_br hf hf' (fun _ => rfl) _ (by rw [hbw rfl])
  | getu32 w l => exact sameAnswer_check_br hf hf' (fun _ => rfl) _ (by rw [hbw rfl])
  | gets32 w l => exact sameAnswer_check_br hf hf' (fun _ => rfl) _ (by rw [hbw rfl])
  | setu w l =>
    exact sameAnswer_check_require_br hf hf' (fun _ => rfl) _ _ (by rw [hbv rfl]) (by rw [hbw rfl, hbv rfl])
  | sets w l =>
    exact sameAnswer_check_require_br hf hf' (fun _ => rfl) _ _ (by rw [hbv rfl]) (by rw [hbw rfl, hbv rfl])
  | setu32 w l =>
    exact sameAnswer_check_require_br hf hf' (fun _ => rfl) _ _ (by rw [hbv rfl]) (by rw [hbw rfl, hbv rfl])
  | sets32 w l =>
    exact sameAnswer_check_require_br hf hf' (fun _ => rfl) _ _ (by rw [hbv rfl]) (by rw [hbw rfl, hbv rfl])
  | rgb2cv => exact execRgb2cv_sameAnswer hf hf' (den_eq_of_read (h .den rfl)) (pix_eq_of_read fun k => h (.pix k) rfl)
  | cv2rgb => exact execCv2rgb_sameAnswer hf hf' (den_eq_of_read (h .den rfl)) (cv_eq_of_read fun k m => h (.cv k m) rfl)
  | fwdxf => exact execFwdxf_sameAnswer hf hf' (cv_eq_of_read fun k m => h (.cv k m) rfl)
  | invxf => exact execInvxf_sameAnswer hf hf' (co_eq_of_read fun f => h (.co f) rfl)
  | quant => exact execQuant_sameAnswer hf hf' (co_eq_of_read fun f => h (.co f) rfl)
  | dequant => exact execDequant_sameAnswer hf hf' (q_eq_of_read fun f => h (.q f) rfl)
  | pack => exact execPack_sameAnswer hf hf' (q_eq_of_read fun f => h (.q f) rfl)
  | unpack => exact execUnpack_sameAnswer hf hf' (cw_eq_of_read (h .cw rfl))

end

/-- Settles O58: the two runs answer the same (`exec_sameAnswer`). -/
theorem commandsDependOnlyOnSources : Obligations.CommandsDependOnlyOnSources := by
  intro i s s' t t' hf hf' hsources ht ht'
  obtain ⟨u, u', hu, hu', heffect⟩ := exec_sameAnswer hf hf' hsources
  cases ht.symm.trans hu
  cases ht'.symm.trans hu'
  exact heffect

end Sys2Proof.Machine

/-! PROOFS. The statements of 20_memory.md: accesses that are not legal and the wire order of a codeword. -/

namespace Sys2Proof.Machine

/-! ## Bus errors (R56, R57) -/

theorem legalAccess_eq_false {off size : Nat} (h : off % 8 ≠ 0 ∨ 0x130 ≤ off ∨ size ≠ 8) :
    legalAccess off size = false := by
  refine Bool.eq_false_iff.mpr fun hlegal => ?_
  simp only [legalAccess, Bool.and_eq_true, beq_iff_eq, decide_eq_true_eq] at hlegal
  omega

theorem busRead_illegal (g : Regs) {off size : Nat} (h : legalAccess off size = false) :
    busRead g off size = .ofRead 0 .busError := by
  rw [busRead, if_neg (ne_true_of_eq_false h)]

theorem performTxn_write_illegal (p : Instr → State → Out) {off size : Nat} (v : Word) (s : State)
    (h : legalAccess off size = false) :
    performTxn p (.write off size v) s = .next (s.answer (.ofWrite .busError)) := by
  rw [performTxn, if_neg (ne_true_of_eq_false h)]

/-- Settles O11: neither access passes the check of R56 (`legalAccess_eq_false`), so each answers a bus error. -/
theorem illegalAccessIsBusError : Obligations.IllegalAccessIsBusError := by
  intro s off size v haccess
  have hillegal := legalAccess_eq_false haccess
  constructor
  · rw [step_issuing, performTxn_read, busRead_illegal _ hillegal, State.answer]
  · rw [step_issuing, performTxn_write_illegal _ v s hillegal, State.answer]

/-! ## Wire order (R52) -/

/-- The four bytes cover the codeword without a gap, so side by side they are the codeword. -/
theorem ofWireBytes_wireBytes (cw : Word32) : ofWireBytes (wireBytes cw) = some cw := by
  rw [wireBytes, ofWireBytes, BitVec.extractLsb'_append_extractLsb'_eq_extractLsb' (show 24 = 16 + 8 from rfl),
    BitVec.extractLsb'_append_extractLsb'_eq_extractLsb' (show 16 = 8 + 8 from rfl),
    BitVec.extractLsb'_append_extractLsb'_eq_extractLsb' (show 8 = 0 + 8 from rfl)]
  exact congrArg some BitVec.extractLsb'_eq_self

/-- A byte put behind a word shifts it up by 8 bits. -/
theorem toNat_append_byte {n : Nat} (x : BitVec n) (b : Byte) : (x ++ b).toNat = x.toNat * 2 ^ 8 + b.toNat := by
  rw [BitVec.toNat_append, ← Nat.shiftLeft_add_eq_or_of_lt b.isLt, Nat.shiftLeft_eq]

/-- The weights of the wire bytes, whatever the bytes are. -/
theorem toNat_of_ofWireBytes {b0 b1 b2 b3 : Byte} {cw : Word32} (h : ofWireBytes [b0, b1, b2, b3] = some cw) :
    cw.toNat = b0.toNat * 2 ^ 24 + b1.toNat * 2 ^ 16 + b2.toNat * 2 ^ 8 + b3.toNat := by
  obtain rfl : b0 ++ b1 ++ b2 ++ b3 = cw := Option.some.inj h
  rw [toNat_append_byte, toNat_append_byte, toNat_append_byte]
  ring

/-- Settles O16: reading the bytes back gives the codeword (`ofWireBytes_wireBytes`), hence their weights
(`toNat_of_ofWireBytes`). -/
theorem codewordWireOrder : Obligations.CodewordWireOrder := fun cw =>
  have hback := ofWireBytes_wireBytes cw
  ⟨_, _, _, _, rfl, toNat_of_ofWireBytes hback, hback⟩

end Sys2Proof.Machine

/-! PROOFS. The statements of 30_encoding.md: decoding and encoding, the opcode map, the illegal words and the
assembler. -/

namespace Sys2Proof

open Machine

/-! ## Decoding and encoding (R70, R73) -/

/-- Settles O1: the word of a well-formed command decodes to it (`decode_eq_ok_iff`). -/
theorem decodeOfEncode : Obligations.DecodeOfEncode := fun _ hi => decode_eq_ok_iff.mpr ⟨hi, rfl⟩

/-- Settles O2: a word decodes to nothing but the command it encodes (`decode_eq_ok_iff`). -/
theorem encodeOfDecode : Obligations.EncodeOfDecode := fun _ _ => decode_eq_ok_iff.mp

/-- Settles O5: each word is its command's encoding, and the immediates fit (`decode_eq_ok_iff`). -/
theorem writtenOutWordsDecode : Obligations.WrittenOutWordsDecode := by
  simp only [Obligations.WrittenOutWordsDecode, decode_eq_ok_iff]
  decide

/-! ## The fields of a word as numbers (R70) -/

theorem opField_eq (v : Word) : opField v = v.toNat % 256 := by
  rw [opField, BitVec.extractLsb'_toNat, Nat.shiftRight_zero]

theorem widthField_eq (v : Word) : widthField v = v.toNat / 256 % 256 := by
  rw [widthField, BitVec.extractLsb'_toNat, Nat.shiftRight_eq_div_pow]

theorem lsbField_eq (v : Word) : lsbField v = v.toNat / 65536 % 256 := by
  rw [lsbField, BitVec.extractLsb'_toNat, Nat.shiftRight_eq_div_pow]

theorem reservedField_eq (v : Word) : reservedField v = v.toNat / 2 ^ 24 := by
  have hv := v.isLt
  rw [reservedField, BitVec.extractLsb'_toNat, Nat.shiftRight_eq_div_pow]
  omega

/-- The four fields cover the word without a gap. -/
theorem word_eq_iff_fields {v w : Word} :
    v = w ↔ reservedField v = reservedField w ∧ opField v = opField w ∧ widthField v = widthField w ∧
      lsbField v = lsbField w := by
  simp only [← BitVec.toNat_inj, opField_eq, widthField_eq, lsbField_eq, reservedField_eq]
  omega

/-! ## The rows of the opcode map (R72, R74) -/

/-- The mask of a class's rows (R74). -/
def FieldClass.rowMask : FieldClass → Word
  | .wl => maskWL
  | .w => maskW
  | .n => maskN

/-- A class's mask keeps RSV and OP, and of WIDTH and LSB the fields the class does not use. -/
theorem rowMask_fields (c : FieldClass) :
    c.rowMask.extractLsb' 24 40 = BitVec.allOnes 40 ∧ c.rowMask.extractLsb' 0 8 = BitVec.allOnes 8 ∧
      c.rowMask.extractLsb' 8 8 = (if c = .n then BitVec.allOnes 8 else 0#8) ∧
      c.rowMask.extractLsb' 16 8 = (if c = .wl then 0#8 else BitVec.allOnes 8) := by
  cases c <;> decide

theorem reservedField_and_rowMask (v : Word) (c : FieldClass) :
    reservedField (v &&& c.rowMask) = reservedField v := by
  obtain ⟨hrsv, -⟩ := rowMask_fields c
  rw [reservedField, BitVec.extractLsb'_and, hrsv, BitVec.and_allOnes, reservedField]

theorem opField_and_rowMask (v : Word) (c : FieldClass) : opField (v &&& c.rowMask) = opField v := by
  obtain ⟨-, hop, -⟩ := rowMask_fields c
  rw [opField, BitVec.extractLsb'_and, hop, BitVec.and_allOnes, opField]

theorem widthField_and_rowMask (v : Word) (c : FieldClass) :
    widthField (v &&& c.rowMask) = if c = .n then widthField v else 0 := by
  obtain ⟨-, -, hwidth, -⟩ := rowMask_fields c
  rw [widthField, BitVec.extractLsb'_and, hwidth]
  split
  · rw [BitVec.and_allOnes, widthField]
  · rw [BitVec.and_zero, BitVec.toNat_zero]

theorem lsbField_and_rowMask (v : Word) (c : FieldClass) :
    lsbField (v &&& c.rowMask) = if c = .wl then 0 else lsbField v := by
  obtain ⟨-, -, -, hlsb⟩ := rowMask_fields c
  rw [lsbField, BitVec.extractLsb'_and, hlsb]
  split
  · rw [BitVec.and_zero, BitVec.toNat_zero]
  · rw [BitVec.and_allOnes, lsbField]

/-- What the mask leaves of WIDTH and LSB is 0 exactly if the unused fields are 0 (R72). -/
theorem unused_and_rowMask_iff {v : Word} {c : FieldClass} :
    widthField (v &&& c.rowMask) = 0 ∧ lsbField (v &&& c.rowMask) = 0 ↔
      unusedFieldsZero c (widthField v) (lsbField v) = true := by
  rw [widthField_and_rowMask, lsbField_and_rowMask]
  cases c <;> simp [unusedFieldsZero]

/-- The row of R74 that selects `i`: its OP below zero fields, under the mask of its class. -/
def Instr.row (i : Instr) : OpcodeRow := ⟨i.mnemonic, i.opcode.setWidth 64, i.fieldClass.rowMask⟩

/-- The map has one row for each mnemonic, and it is the command's. -/
theorem find?_mnemonic_opcodeTable (i : Instr) :
    opcodeTable.find? (fun row => row.mnemonic == i.mnemonic) = some i.row := by
  cases i <;> rfl

/-- The mnemonic decides the row, whatever the immediates. -/
theorem row_eq_iff_mnemonic {i j : Instr} : j.row = i.row ↔ j.mnemonic = i.mnemonic := by
  refine ⟨congrArg OpcodeRow.mnemonic, fun h => Option.some.inj ?_⟩
  rw [← find?_mnemonic_opcodeTable, h, find?_mnemonic_opcodeTable]

/-- A command for each OP of R74, in the order of the map. -/
def rowCommands : List Instr :=
  [.fitsu 0, .fitss 0, .getu 0 0, .gets 0 0, .setu 0 0, .sets 0 0, .getu32 0 0, .gets32 0 0, .setu32 0 0, .sets32 0 0,
   .rgb2cv, .cv2rgb, .fwdxf, .invxf, .quant, .dequant, .pack, .unpack]

theorem opcodeTable_eq_map_row : opcodeTable = rowCommands.map Instr.row := rfl

/-- An OP alone is a word whose other fields are 0. -/
theorem opcode_setWidth_fields (op : BitVec 8) :
    reservedField (op.setWidth 64) = 0 ∧ opField (op.setWidth 64) = op.toNat ∧ widthField (op.setWidth 64) = 0 ∧
      lsbField (op.setWidth 64) = 0 := by
  have hop := op.isLt
  rw [reservedField_eq, opField_eq, widthField_eq, lsbField_eq, BitVec.toNat_setWidth]
  omega

/-- R74's match says of the word's fields what R73 checks. -/
theorem and_maskBits_eq_matchBits_iff {v : Word} {i : Instr} :
    v &&& i.row.maskBits = i.row.matchBits ↔ reservedField v = 0 ∧ opField v = i.opcode.toNat ∧
      unusedFieldsZero i.fieldClass (widthField v) (lsbField v) = true := by
  obtain ⟨hrsv, hop, hwidth, hlsb⟩ := opcode_setWidth_fields i.opcode
  rw [Instr.row, word_eq_iff_fields, hrsv, hop, hwidth, hlsb, reservedField_and_rowMask, opField_and_rowMask,
    unused_and_rowMask_iff]

/-- An OP selects its row with every WIDTH and LSB. -/
theorem exists_commandOf_opcode (i : Instr) (width lsb : Nat) :
    ∃ j : Instr, commandOf i.opcode.toNat width lsb = some j ∧ j.row = i.row ∧ j.fieldClass = i.fieldClass := by
  cases i <;> exact ⟨_, rfl, rfl, rfl⟩

/-- R73, R74: a word matches a row exactly if it decodes to a command of that row. -/
theorem and_maskBits_eq_matchBits_iff_decode {v : Word} {i : Instr} :
    v &&& i.row.maskBits = i.row.matchBits ↔ ∃ j, decode v = .ok j ∧ j.row = i.row := by
  constructor
  · intro h
    obtain ⟨hrsv, hop, hunused⟩ := and_maskBits_eq_matchBits_iff.mp h
    obtain ⟨j, hj, hrow, hclass⟩ := exists_commandOf_opcode i (widthField v) (lsbField v)
    exact ⟨j, decode_eq_ok_iff_fields.mpr ⟨hrsv, hop ▸ hj, hclass ▸ hunused⟩, hrow⟩
  · rintro ⟨j, hj, hrow⟩
    obtain ⟨hrsv, hsel⟩ := decode_eq_ok_iff_fields.mp hj
    rw [← hrow]
    exact and_maskBits_eq_matchBits_iff.mpr ⟨hrsv, (commandOf_eq_some_iff.mp hsel).1, hsel.2⟩

/-- Settles O3: the row is some command's (`opcodeTable_eq_map_row`), its match is what decoding checks
(`and_maskBits_eq_matchBits_iff_decode`), and the mnemonic names the row (`row_eq_iff_mnemonic`). -/
theorem rowSelectedIffMaskedMatch : Obligations.RowSelectedIffMaskedMatch := by
  intro row hrow v
  rw [opcodeTable_eq_map_row, List.mem_map] at hrow
  obtain ⟨i, -, rfl⟩ := hrow
  rw [and_maskBits_eq_matchBits_iff_decode]
  simp only [row_eq_iff_mnemonic]
  rfl

/-! ## Illegal words (R75) -/

/-- The OP bytes of the map. -/
def ListedOp (op : Nat) : Prop :=
  (1 ≤ op ∧ op ≤ 6) ∨ (0x13 ≤ op ∧ op ≤ 0x16) ∨ op = 0x20 ∨ op = 0x21 ∨ op = 0x30 ∨ op = 0x31 ∨
    op = 0x40 ∨ op = 0x41 ∨ op = 0x50 ∨ op = 0x51

theorem listedOp_iff {op : Nat} : ListedOp op ↔ ∃ i : Instr, i.opcode.toNat = op := by
  constructor
  · intro h
    have hmem : op ∈ rowCommands.map fun i => i.opcode.toNat := by
      simp only [rowCommands, List.map, List.mem_cons, Instr.opcode, BitVec.toNat_ofNat]
      unfold ListedOp at h
      omega
    obtain ⟨i, -, hi⟩ := List.mem_map.mp hmem
    exact ⟨i, hi⟩
  · rintro ⟨i, rfl⟩
    cases i <;> simp [ListedOp, Instr.opcode]

/-- The classes of R72 by the OP: class N stands from 0x20 up, class W at 1 and 2. -/
theorem unusedFieldsZero_iff {i : Instr} {width lsb : Nat} :
    unusedFieldsZero i.fieldClass width lsb = true ↔
      ¬ (0x20 ≤ i.opcode.toNat ∧ (width ≠ 0 ∨ lsb ≠ 0)) ∧
        ¬ ((i.opcode.toNat = 1 ∨ i.opcode.toNat = 2) ∧ lsb ≠ 0) := by
  cases i <;> simp [unusedFieldsZero, Instr.fieldClass, Instr.opcode]

/-- R75: the illegal words, by their fields. -/
def IllegalWord (v : Word) : Prop :=
  reservedField v ≠ 0 ∨ ¬ ListedOp (opField v) ∨ (0x20 ≤ opField v ∧ (widthField v ≠ 0 ∨ lsbField v ≠ 0)) ∨
    ((opField v = 1 ∨ opField v = 2) ∧ lsbField v ≠ 0)

/-- R74, R75: the words that are not illegal are those that match a row. -/
theorem not_illegalWord_iff {v : Word} :
    ¬ IllegalWord v ↔ ∃ i : Instr, v &&& i.row.maskBits = i.row.matchBits := by
  simp only [and_maskBits_eq_matchBits_iff, unusedFieldsZero_iff, IllegalWord, listedOp_iff, not_or, not_not]
  constructor
  · rintro ⟨hrsv, ⟨i, hi⟩, hn, hw⟩
    exact ⟨i, hrsv, hi.symm, hi ▸ hn, hi ▸ hw⟩
  · rintro ⟨i, hrsv, hi, hn, hw⟩
    exact ⟨hrsv, ⟨i, hi.symm⟩, hi ▸ hn, hi ▸ hw⟩

/-- R73, R75: the words that decode are those that are not illegal. -/
theorem exists_decode_iff {v : Word} : (∃ i, decode v = .ok i) ↔ ¬ IllegalWord v := by
  rw [not_illegalWord_iff]
  constructor
  · rintro ⟨i, hi⟩
    exact ⟨i, and_maskBits_eq_matchBits_iff_decode.mpr ⟨i, hi, rfl⟩⟩
  · rintro ⟨i, hi⟩
    obtain ⟨j, hj, -⟩ := and_maskBits_eq_matchBits_iff_decode.mp hi
    exact ⟨j, hj⟩

theorem opField_of_decode {v : Word} {i : Instr} (h : decode v = .ok i) : opField v = i.opcode.toNat :=
  (commandOf_eq_some_iff.mp (decode_eq_ok_iff_fields.mp h).2).1

/-- R73: in the normal state a CMD write of an illegal word records it, and does nothing else. -/
theorem step_writeCmd_illegal {v : Word} {s : State} (hv : IllegalWord v) (hs : s.regs.fault = false) :
    step (s.issuing (.write 0x020 8 v)) = .next ((s.answer (.ofWrite .ok)).takeFault .illegalCmd v) := by
  cases hd : decode v with
  | error e =>
    rw [step_issuing, performTxn_writeCmd]
    exact writeCmd_illegal exec hs hd
  | ok i => exact absurd hv (exists_decode_iff.mp ⟨i, hd⟩)

/-- Settles O4: the illegal words are those that do not decode (`exists_decode_iff`), and a word that decodes selects
the command of its OP (`opField_of_decode`). -/
theorem illegalWordsFault : Obligations.IllegalWordsFault := by
  intro v op width lsb listed illegal
  have hillegal : illegal ↔ IllegalWord v := by
    rw [IllegalWord, opField_eq, widthField_eq, lsbField_eq, reservedField_eq]
    rfl
  refine ⟨fun h s hs => step_writeCmd_illegal (hillegal.mp h) hs, fun h => ?_⟩
  obtain ⟨i, hi⟩ := exists_decode_iff.mpr (mt hillegal.mpr h)
  exact ⟨i, hi, (opField_of_decode hi).symm.trans (opField_eq v)⟩

/-! ## The assembler (R76) -/

/-- The immediates a command is written with, by its class (R72, R76). -/
def Instr.immediates (i : Instr) : List Nat :=
  match i.fieldClass with
  | .wl => [i.width, i.lsb]
  | .w => [i.width]
  | .n => []

/-- A command's own mnemonic and immediates name it. -/
theorem commandNamed_mnemonic (i : Instr) : commandNamed i.mnemonic i.immediates = some i := by
  cases i <;> rfl

theorem wellFormed_iff {i : Instr} : i.WellFormed ↔ i.width ≤ 255 ∧ i.lsb ≤ 255 := by
  simp [Instr.WellFormed, Instr.wf, Instr.widthOk, Instr.lsbOk]

/-- R70: the word of a well-formed command as a sum, no immediate losing a bit. -/
theorem encode_eq_ofNat {i : Instr} (h : i.WellFormed) :
    encode i = BitVec.ofNat 64 (i.opcode.toNat + i.width * 256 + i.lsb * 65536) := by
  obtain ⟨hwidth, hlsb⟩ := wellFormed_iff.mp h
  have hop := i.opcode.isLt
  refine BitVec.eq_of_toNat_eq ?_
  rw [Laws.EncodingShape.encode_toNat, BitVec.toNat_ofNat]
  omega

theorem assemble_mnemonic (i : Instr) :
    assemble i.mnemonic i.immediates = if i.WellFormed then some (encode i) else none := by
  rw [assemble, commandNamed_mnemonic]

/-- Settles O6: the line names its command (`commandNamed_mnemonic`), whose word is the sum of its fields
(`encode_eq_ofNat`) if the immediates fit. -/
theorem assemblerEncodesImmediates : Obligations.AssemblerEncodesImmediates := by
  refine ⟨fun i => (assemble_mnemonic i).trans ?_, by decide⟩
  by_cases h : i.WellFormed
  · rw [if_pos h, if_pos (wellFormed_iff.mp h), encode_eq_ofNat h]
  · rw [if_neg h, if_neg (mt wellFormed_iff.mpr h)]

end Sys2Proof

/-! PROOFS. The statements of 40_bitfield.md: the field faults and the fit faults of the codec, the results of the fits,
get and set commands, a get after a set, and inserts that do not overlap. -/

namespace Sys2Proof.Machine

/-! ## The checks of a command (R102, R217) -/

/-- The fits commands check their width as a field at position 0. -/
theorem checkWidth_eq_checkField (width limit : Nat) : checkWidth width limit = checkField width 0 limit := by
  rw [checkWidth, checkField, Nat.add_zero]
  by_cases hw : limit < width
  · rw [if_pos hw, if_pos hw]
  · rw [if_neg hw, if_neg hw, if_neg hw]

/-- R102: a BitField command checks its field before anything else. -/
theorem exec_bitField {i : Instr} {limit : Nat} (hl : bitLimit i = some limit) (s : State) :
    ∃ f, exec i s = finish (encode i) (andThen (checkField i.width i.lsb limit) f) s := by
  cases i with
  | fitsu =>
    cases hl
    rw [exec, execFitsu, checkWidth_eq_checkField]
    exact ⟨_, rfl⟩
  | fitss =>
    cases hl
    rw [exec, execFitss, checkWidth_eq_checkField]
    exact ⟨_, rfl⟩
  | getu | gets | setu | sets | getu32 | gets32 | setu32 | sets32 => cases hl; exact ⟨_, rfl⟩
  | rgb2cv | cv2rgb | fwdxf | invxf | quant | dequant | pack | unpack => cases hl

/-- A field that fails its check is the command's fault. -/
theorem exec_badField {i : Instr} {limit : Nat} {c : Cause} (hl : bitLimit i = some limit)
    (hc : checkField i.width i.lsb limit = .error c) (s : State) :
    exec i s = .next (s.takeFault c (encode i)) := by
  obtain ⟨f, hf⟩ := exec_bitField hl s
  rw [hf, hc, andThen_error, finish_error]

/-- Settles O23: the field check comes first (`exec_badField`), and its first line is the width's. -/
theorem widthAboveLimitFaults : Obligations.WidthAboveLimitFaults := fun _ _ s hl hw =>
  exec_badField hl (checkField_of_width hw) s

/-- Settles O24: the field check comes first (`exec_badField`), and its second line is the position's. -/
theorem positionAboveLimitFaults : Obligations.PositionAboveLimitFaults := fun _ _ s hl _ hw hs =>
  exec_badField hl (checkField_of_lsb hw hs) s

section
variable {width lsb limit : Nat} {ok : Bool} {c : Cause}

/-- A get with a legal field completes. -/
theorem finish_get (h : width + lsb ≤ limit) (v : Word) (g : Regs) (s : State) :
    finish v (andThen (checkField width lsb limit) fun _ => .ok g) s = .next { s with regs := g } := by
  rw [checkField_of_le h, andThen_ok, finish_ok]

/-- A set with a legal field and a value that fits completes. -/
theorem finish_set (h : width + lsb ≤ limit) (hok : ok = true) (v : Word) (g : Regs) (s : State) :
    finish v (andThen (checkField width lsb limit) fun _ => andThen (require ok c) fun _ => .ok g) s =
      .next { s with regs := g } := by
  rw [checkField_of_le h, andThen_ok, hok, require_true, andThen_ok, finish_ok]

/-- A set with a legal field takes the fault of a value that does not fit. -/
theorem finish_set_unfit (h : width + lsb ≤ limit) (hok : ¬ ok = true) (v : Word) (g : Regs) (s : State) :
    finish v (andThen (checkField width lsb limit) fun _ => andThen (require ok c) fun _ => .ok g) s =
      .next (s.takeFault c v) := by
  rw [checkField_of_le h, andThen_ok, Bool.eq_false_iff.mpr hok, require_false, andThen_error, finish_error]

end

/-! ## Values that do not fit (R109, R110, R114, R115, R181, R191) -/

theorem exec_pack_unfit {s : State} (h : ¬ FieldsFit s.regs.q) :
    exec .pack s = .next (s.takeFault .valueNotFit 0x50) := by
  rw [exec, execPack, fieldCheck_of_not_fit h]
  rfl

theorem exec_dequant_unfit {s : State} (h : ¬ FieldsFit s.regs.q) :
    exec .dequant s = .next (s.takeFault .valueNotFit 0x41) := by
  rw [exec, execDequant, fieldCheck_of_not_fit h]
  rfl

/-- Settles O25: each set's range check fails (`finish_set_unfit`), and so does the field check of PACK and DEQUANT. -/
theorem unfitValuesFault : Obligations.UnfitValuesFault := by
  intro width lsb s
  have hu (hv : 2 ^ width ≤ s.regs.bv.toNat) : ¬ fitsUnsigned s.regs.bv width = true :=
    mt (fitsUnsigned_iff ..).mp (Nat.not_lt.mpr hv)
  have hs (hv : ¬ InSignedRange s.regs.bv.toInt width) : ¬ fitsSigned (asI64 s.regs.bv) width = true :=
    mt (fitsSigned_iff ..).mp hv
  exact ⟨fun h hv => finish_set_unfit h (hu hv) .., fun h hv => finish_set_unfit h (hs hv) ..,
    fun h hv => finish_set_unfit h (hu hv) .., fun h hv => finish_set_unfit h (hs hv) ..,
    fun hq => ⟨exec_pack_unfit hq, exec_dequant_unfit hq⟩⟩

/-! ## Range checks (R105, R106) -/

theorem exec_fitsu {width : Nat} (h : width ≤ 64) (s : State) :
    exec (.fitsu width) s =
      .next { s with regs := { s.regs with br := if fitsUnsigned s.regs.bv width then 1 else 0 } } := by
  rw [exec, execFitsu, checkWidth_of_le h, andThen_ok, finish_ok]

theorem exec_fitss {width : Nat} (h : width ≤ 64) (s : State) :
    exec (.fitss width) s =
      .next { s with regs := { s.regs with br := if fitsSigned (asI64 s.regs.bv) width then 1 else 0 } } := by
  rw [exec, execFitss, checkWidth_of_le h, andThen_ok, finish_ok]

/-- Settles O28: the test that chooses BR is BV < 2^WIDTH (`fitsUnsigned_iff`). -/
theorem fitsUnsignedResult : Obligations.FitsUnsignedResult := by
  intro width s h
  rw [exec_fitsu h]
  simp only [fitsUnsigned_iff]

/-- Settles O29: the test that chooses BR is the signed range (`fitsSigned_iff`). -/
theorem fitsSignedResult : Obligations.FitsSignedResult := by
  intro width s h
  refine ⟨_, exec_fitss h s, ?_⟩
  rw [← fitsSigned_iff]
  by_cases hv : fitsSigned (asI64 s.regs.bv) width = true
  · rw [if_pos hv]
    exact ⟨.inr rfl, iff_of_true rfl hv⟩
  · rw [if_neg hv]
    exact ⟨.inl rfl, iff_of_false (by decide) hv⟩

/-! ## Extraction (R103, R111) -/

theorem lowWord_eq_setWidth (w : Word) : lowWord w = w.setWidth 32 :=
  (BitVec.setWidth_eq_extractLsb' (by decide)).symm

/-- A field within the low half does not see the high half. -/
theorem extractField_lowWord {width lsb : Nat} (h : width + lsb ≤ 32) (w : Word) :
    extractField ((lowWord w).setWidth 64) width lsb = extractField w width lsb := by
  apply BitVec.eq_of_getLsbD_eq
  intro j _
  rw [extractField_getLsbD, extractField_getLsbD, lowWord_eq_setWidth, BitVec.getLsbD_setWidth,
    BitVec.getLsbD_setWidth]
  by_cases hj : j < width
  · have h32 : lsb + j < 32 := by omega
    have h64 : lsb + j < 64 := by omega
    simp only [h32, h64, decide_true, Bool.true_and]
  · simp only [hj, decide_false, Bool.false_and]

theorem extractSigned_lowWord {width lsb : Nat} (h : width + lsb ≤ 32) (w : Word) :
    extractSigned ((lowWord w).setWidth 64) width lsb = extractSigned w width lsb := by
  rw [extractSigned, extractSigned, extractField_lowWord h]

theorem exec_getu {width lsb : Nat} (h : width + lsb ≤ 64) (s : State) :
    exec (.getu width lsb) s = .next { s with regs := { s.regs with br := extractField s.regs.bw width lsb } } :=
  finish_get h ..

theorem exec_getu32 {width lsb : Nat} (h : width + lsb ≤ 32) (s : State) :
    exec (.getu32 width lsb) s = .next { s with regs := { s.regs with br := extractField s.regs.bw width lsb } } := by
  rw [← extractField_lowWord h]
  exact finish_get h ..

theorem exec_gets {width lsb : Nat} (h : width + lsb ≤ 64) (s : State) :
    exec (.gets width lsb) s =
      .next { s with regs := { s.regs with br := asU64 (extractSigned s.regs.bw width lsb) } } :=
  finish_get h ..

theorem exec_gets32 {width lsb : Nat} (h : width + lsb ≤ 32) (s : State) :
    exec (.gets32 width lsb) s =
      .next { s with regs := { s.regs with br := asU64 (extractSigned s.regs.bw width lsb) } } := by
  rw [← extractSigned_lowWord h]
  exact finish_get h ..

/-- Settles O30: both commands write the field of BW (`exec_getu`, `exec_getu32`), known bit by bit. -/
theorem getUnsignedResult : Obligations.GetUnsignedResult := fun width lsb s =>
  ⟨fun h => ⟨_, exec_getu h s, extractField_getLsbD s.regs.bw width lsb⟩,
    fun h => ⟨_, exec_getu32 h s, extractField_getLsbD s.regs.bw width lsb⟩⟩

/-- The value of a signed field survives its storage in a register. -/
theorem toInt_asU64_extractSigned (word : Word) {width : Nat} (h : width ≤ 64) (lsb : Nat) :
    (asU64 (extractSigned word width lsb)).toInt = signedValue (word.toNat / 2 ^ lsb) width := by
  obtain ⟨hlo, hhi⟩ := signedValue_bounds (word.toNat / 2 ^ lsb) h
  rw [extractSigned_eq, toInt_asU64 hlo hhi]

/-- Settles O31: both commands write the signed field of BW (`exec_gets`, `exec_gets32`), whose value fits BR. -/
theorem getSignedResult : Obligations.GetSignedResult := fun _ lsb s =>
  ⟨fun h => ⟨_, exec_gets h s, toInt_asU64_extractSigned s.regs.bw (by omega) lsb⟩,
    fun h => ⟨_, exec_gets32 h s, toInt_asU64_extractSigned s.regs.bw (by omega) lsb⟩⟩

/-! ## Insertion (R104, R111) -/

theorem toNat_and_mask (v : Word) (width : Nat) : (v &&& mask 64 width).toNat = v.toNat % 2 ^ width := by
  simpa [extractField] using extractField_toNat v width 0

theorem and_mask_of_lt {v : Word} {width : Nat} (h : v.toNat < 2 ^ width) : v &&& mask 64 width = v :=
  BitVec.eq_of_toNat_eq (by rw [toNat_and_mask, Nat.mod_eq_of_lt h])

/-- What every completed set leaves in BR: the low `width` bits of `value` inserted in the low `limit` bits of `word`,
zero-extended (`exec_setu`, `exec_sets`, `exec_setu32`, `exec_sets32`). -/
def setField (limit width lsb : Nat) (word value : Word) : Word :=
  (insertField (word.setWidth limit) width lsb ((value &&& mask 64 width).setWidth limit)).setWidth 64

theorem setField_sixtyFour (width lsb : Nat) (word value : Word) :
    setField 64 width lsb word value = insertField word width lsb (value &&& mask 64 width) := by
  rw [setField, BitVec.setWidth_eq, BitVec.setWidth_eq, BitVec.setWidth_eq]

theorem setField_thirtyTwo (width lsb : Nat) (word value : Word) :
    setField 32 width lsb word value =
      (insertField (lowWord word) width lsb (lowWord (value &&& mask 64 width))).setWidth 64 := by
  rw [setField, lowWord_eq_setWidth, lowWord_eq_setWidth]

section
variable {width lsb : Nat} {s : State}

theorem exec_setu (hv : s.regs.bv.toNat < 2 ^ width) (h : width + lsb ≤ 64) :
    exec (.setu width lsb) s =
      .next { s with regs := { s.regs with br := setField 64 width lsb s.regs.bw s.regs.bv } } := by
  rw [setField_sixtyFour, and_mask_of_lt hv]
  exact finish_set h ((fitsUnsigned_iff ..).mpr hv) ..

theorem exec_setu32 (hv : s.regs.bv.toNat < 2 ^ width) (h : width + lsb ≤ 32) :
    exec (.setu32 width lsb) s =
      .next { s with regs := { s.regs with br := setField 32 width lsb s.regs.bw s.regs.bv } } := by
  rw [setField_thirtyTwo, and_mask_of_lt hv]
  exact finish_set h ((fitsUnsigned_iff ..).mpr hv) ..

theorem exec_sets (hv : InSignedRange s.regs.bv.toInt width) (h : width + lsb ≤ 64) :
    exec (.sets width lsb) s =
      .next { s with regs := { s.regs with br := setField 64 width lsb s.regs.bw s.regs.bv } } := by
  rw [setField_sixtyFour, ← asU64_asI64 s.regs.bv]
  exact finish_set h ((fitsSigned_iff ..).mpr hv) ..

theorem exec_sets32 (hv : InSignedRange s.regs.bv.toInt width) (h : width + lsb ≤ 32) :
    exec (.sets32 width lsb) s =
      .next { s with regs := { s.regs with br := setField 32 width lsb s.regs.bw s.regs.bv } } := by
  rw [setField_thirtyTwo, ← asU64_asI64 s.regs.bv]
  exact finish_set h ((fitsSigned_iff ..).mpr hv) ..

end

section
variable {limit width lsb : Nat} (h : width + lsb ≤ limit) (hlimit : limit ≤ 64)
include h hlimit

/-- R104, R111 bit by bit: the masked value fits its field, and no bit of the field lies above the limit. -/
theorem setField_getLsbD (word value : Word) (j : Nat) :
    (setField limit width lsb word value).getLsbD j =
      (decide (j < limit) &&
        if lsb ≤ j ∧ j < lsb + width then value.getLsbD (j - lsb) else word.getLsbD j) := by
  have hfit : ((value &&& mask 64 width).setWidth limit).toNat < 2 ^ width := by
    rw [BitVec.toNat_setWidth, toNat_and_mask]
    exact (Nat.mod_le ..).trans_lt (Nat.mod_lt _ (by positivity))
  rw [setField, BitVec.getLsbD_setWidth, insertField_getLsbD _ _ _ _ hfit]
  by_cases hj : j < limit
  · have h64 : j < 64 := by omega
    by_cases hfield : lsb ≤ j ∧ j < lsb + width
    · have hl : j - lsb < limit := by omega
      have hw : j - lsb < width := by omega
      have hv : j - lsb < 64 := by omega
      simp [hj, h64, hfield, hl, hw, hv, mask_getLsbD]
    · simp [hj, h64, hfield]
  · simp [hj]

/-- A get of the field that was set gives the low bits of the value. -/
theorem extractField_setField (word value : Word) :
    extractField (setField limit width lsb word value) width lsb = value &&& mask 64 width := by
  apply BitVec.eq_of_getLsbD_eq
  intro j hj
  rw [extractField_getLsbD, setField_getLsbD h hlimit, BitVec.getLsbD_and, mask_getLsbD]
  by_cases hw : j < width
  · have hl : lsb + j < limit := by omega
    simp [hw, hl, hj]
  · simp [hw]

end

/-- On 64 bits there is no bit above the limit. -/
theorem setField_sixtyFour_getLsbD {width lsb : Nat} (h : width + lsb ≤ 64) (word value : Word) (j : Nat) :
    (setField 64 width lsb word value).getLsbD j =
      if lsb ≤ j ∧ j < lsb + width then value.getLsbD (j - lsb) else word.getLsbD j := by
  rw [setField_getLsbD h le_rfl]
  by_cases hj : j < 64
  · rw [decide_eq_true hj, Bool.true_and]
  · rw [decide_eq_false hj, Bool.false_and, if_neg (by omega), BitVec.getLsbD_of_ge _ _ (by omega)]

/-- Settles O32: both commands write `setField` (`exec_setu`, `exec_setu32`), known bit by bit. -/
theorem setUnsignedResult : Obligations.SetUnsignedResult := fun _ _ s hv =>
  ⟨fun h => ⟨_, exec_setu hv h, setField_sixtyFour_getLsbD h s.regs.bw s.regs.bv⟩,
    fun h => ⟨_, exec_setu32 hv h, setField_getLsbD h (by decide) s.regs.bw s.regs.bv⟩⟩

/-- Settles O33: both commands write `setField` (`exec_sets`, `exec_sets32`), known bit by bit. -/
theorem setSignedResult : Obligations.SetSignedResult := fun _ _ s hv =>
  ⟨fun h => ⟨_, exec_sets hv h, setField_sixtyFour_getLsbD h s.regs.bw s.regs.bv⟩,
    fun h => ⟨_, exec_sets32 hv h, setField_getLsbD h (by decide) s.regs.bw s.regs.bv⟩⟩

/-! ## A get after a set (R116, R117) -/

/-- Settles O34: the field that was set holds the low bits of BV (`extractField_setField`), and BV has no others. -/
theorem getAfterSetUnsigned : Obligations.GetAfterSetUnsigned := fun width lsb s hv =>
  have hback {limit : Nat} (hlimit : limit ≤ 64) (h : width + lsb ≤ limit) :
      extractField (setField limit width lsb s.regs.bw s.regs.bv) width lsb = s.regs.bv :=
    (extractField_setField h hlimit s.regs.bw s.regs.bv).trans (and_mask_of_lt hv)
  ⟨fun h => ⟨_, _, exec_setu hv h, exec_getu h _, hback le_rfl h⟩,
    fun h => ⟨_, _, exec_setu32 hv h, exec_getu32 h _, hback (by decide) h⟩⟩

/-- The two's complement value of the low bits is the residue modulo 2^width nearest 0. -/
theorem signedValue_eq_bmod (u width : Nat) : signedValue u width = (u : Int).bmod (2 ^ width) := by
  rw [← BitVec.toInt_ofNat', BitVec.toInt_eq_toNat_cond, BitVec.toNat_ofNat, signedValue]
  cases width with
  | zero => simp [Nat.mod_one]
  | succ n =>
    have hhalf : 2 * (u % 2 ^ (n + 1)) < 2 ^ (n + 1) ↔ u % 2 ^ (n + 1) < 2 ^ n := by
      rw [pow_succ]
      omega
    simp [hhalf]

/-- A value in the signed range of `width` bits is the two's complement value of its low bits. -/
theorem signedValue_of_inSignedRange {v : Word} {width : Nat} (h : width ≤ 64) (hv : InSignedRange v.toInt width) :
    signedValue v.toNat width = v.toInt := by
  obtain ⟨hpos, hlo, hhi⟩ := hv
  have htwo : ((2 ^ width : Nat) : Int) = 2 ^ (width - 1) * 2 := by
    rw [← pow_succ, Nat.sub_add_cancel hpos, Nat.cast_pow, Nat.cast_ofNat]
  rw [signedValue_eq_bmod, ← Int.bmod_bmod_of_dvd (pow_dvd_pow 2 h), ← BitVec.toInt_eq_toNat_bmod]
  exact Int.bmod_eq_of_le_mul_two (by omega) (by omega)

/-- Only the low bits count. -/
theorem signedValue_mod (u width : Nat) : signedValue (u % 2 ^ width) width = signedValue u width := by
  rw [signedValue, signedValue, Nat.mod_mod]

/-- A signed get of the field that was set gives a value that was in range. -/
theorem extractSigned_setField {limit width lsb : Nat} (h : width + lsb ≤ limit) (hlimit : limit ≤ 64) (word : Word)
    {value : Word} (hv : InSignedRange value.toInt width) :
    extractSigned (setField limit width lsb word value) width lsb = value.toInt := by
  have hbits : (setField limit width lsb word value).toNat / 2 ^ lsb % 2 ^ width = value.toNat % 2 ^ width := by
    rw [← extractField_toNat, extractField_setField h hlimit, toNat_and_mask]
  rw [extractSigned_eq, ← signedValue_mod, hbits, signedValue_mod, signedValue_of_inSignedRange (by omega) hv]

/-- Settles O35: the signed field that was set reads as BV (`extractSigned_setField`), stored back as BV. -/
theorem getAfterSetSigned : Obligations.GetAfterSetSigned := fun width lsb s hv =>
  have hback {limit : Nat} (hlimit : limit ≤ 64) (h : width + lsb ≤ limit) :
      asU64 (extractSigned (setField limit width lsb s.regs.bw s.regs.bv) width lsb) = s.regs.bv :=
    (congrArg asU64 (extractSigned_setField h hlimit s.regs.bw hv)).trans (asU64_asI64 s.regs.bv)
  ⟨fun h => ⟨_, _, exec_sets hv h, exec_gets h _, hback le_rfl h⟩,
    fun h => ⟨_, _, exec_sets32 hv h, exec_gets32 h _, hback (by decide) h⟩⟩

/-! ## Fields that do not overlap (R118) -/

/-- No bit lies in both fields, so each bit comes from the same source in either order. -/
theorem insertField_comm {n w₁ l₁ w₂ l₂ : Nat} (hd : l₁ + w₁ ≤ l₂) (word : BitVec n) {x y : BitVec n}
    (hx : x.toNat < 2 ^ w₁) (hy : y.toNat < 2 ^ w₂) :
    insertField (insertField word w₁ l₁ x) w₂ l₂ y = insertField (insertField word w₂ l₂ y) w₁ l₁ x := by
  apply BitVec.eq_of_getLsbD_eq
  intro j hj
  simp only [insertField_getLsbD _ _ _ _ hx, insertField_getLsbD _ _ _ _ hy, decide_eq_true hj, Bool.true_and]
  by_cases h₁ : l₁ ≤ j ∧ j < l₁ + w₁
  · have h₂ : ¬ (l₂ ≤ j ∧ j < l₂ + w₂) := by omega
    rw [if_neg h₂, if_pos h₁, if_pos h₁]
  · rw [if_neg h₁, if_neg h₁]

/-- Settles O36, on both word sizes by `insertField_comm`. -/
theorem disjointInsertsCommute : Obligations.DisjointInsertsCommute := fun _ _ _ _ hd =>
  ⟨fun word _ _ => insertField_comm hd word, fun word _ _ => insertField_comm hd word⟩

end Sys2Proof.Machine

/-! PROOFS. The statements of 41_colorspace.md: the pixel faults, the results of RGB2CV and CV2RGB, their lanes and
their round trip; and the two pipelines of R243, which begin and end with them. -/

namespace Sys2Proof.Machine

/-! ## Pixel faults (R130) -/

theorem denCheck_of_zero {g : Regs} (h : g.den = 0) : denCheck g = .error .badPixel := by
  rw [denCheck, h]
  rfl

/-- Settles O26: a violated pixel invariant fails RGB2CV's check (`pixelCheck_of_not_valid`), DEN = 0 the check of
CV2RGB. -/
theorem badPixelFaults : Obligations.BadPixelFaults := by
  intro s
  refine ⟨fun hbad => ?_, fun hden => ?_⟩
  · have hinvalid : ¬ ValidPixels s.regs := by
      rintro ⟨hden, hchannels⟩
      rcases hbad with h | ⟨k, h⟩
      · exact hden h
      · have := hchannels k
        omega
    rw [exec, execRgb2cv, pixelCheck_of_not_valid hinvalid]
    rfl
  · rw [exec, execCv2rgb, denCheck_of_zero hden]
    rfl

/-! ## RGB2CV (R131, R132) -/

/-- What RGB2CV stores in the CV registers. -/
def State.videoOfPixels (s : State) : Quad ComponentVideo :=
  s.regs.pix.map fun p => s.encodeTriple (rgbToCv p s.regs.den)

theorem exec_rgb2cv {s : State} (h : ValidPixels s.regs) :
    exec .rgb2cv s = .next { s with regs := { s.regs with cv := s.videoOfPixels } } := by
  rw [exec, execRgb2cv, (pixelCheck_eq_ok s.regs ()).mpr h]
  rfl

@[simp] theorem State.get_videoOfPixels (s : State) (k : Lane) :
    s.videoOfPixels.get k = s.encodeTriple (rgbToCv (s.regs.pix.get k) s.regs.den) := Quad.get_map ..

/-- A stored triple reads back as its values. -/
theorem ofBits_encodeTriple (s : State) {x : VideoTriple} (hy : x.y.Proper) (hpb : x.pb.Proper) (hpr : x.pr.Proper) :
    Binary64.ofBits (s.encodeTriple x).y = x.y ∧ Binary64.ofBits (s.encodeTriple x).pb = x.pb ∧
      Binary64.ofBits (s.encodeTriple x).pr = x.pr :=
  ⟨ofBits_encodeFloat s 0 hy, ofBits_encodeFloat s 1 hpb, ofBits_encodeFloat s 2 hpr⟩

/-- A lane RGB2CV stored reads back as R132's values. -/
theorem ofBits_encodeTriple_rgbToCv (s : State) (p : Pixel) (den : BitVec 16) :
    Binary64.ofBits (s.encodeTriple (rgbToCv p den)).y = (rgbToCv p den).y ∧
      Binary64.ofBits (s.encodeTriple (rgbToCv p den)).pb = (rgbToCv p den).pb ∧
      Binary64.ofBits (s.encodeTriple (rgbToCv p den)).pr = (rgbToCv p den).pr := by
  obtain ⟨hy, hpb, hpr⟩ := rgbToCv_proper p den
  exact ofBits_encodeTriple s hy hpb hpr

/-- R135: the coefficients of R132 are the binary64 numbers nearest to their decimals. -/
theorem rgbToCv_coefficients :
    c0_299 = .ofDecimal false 299 3 ∧ c0_587 = .ofDecimal false 587 3 ∧ c0_114 = .ofDecimal false 114 3 ∧
    c0_168736.neg = .ofDecimal true 168736 6 ∧ c0_331264 = .ofDecimal false 331264 6 ∧ c0_5 = .ofDecimal false 5 1 ∧
    c0_418688 = .ofDecimal false 418688 6 ∧ c0_081312 = .ofDecimal false 81312 6 := by decide +kernel

/-- Settles O40: RGB2CV stores R132's triple in each lane (`exec_rgb2cv`), it reads back as it was computed, and the
constants of the model are the decimals of the rule (`rgbToCv_coefficients`). -/
theorem rgbToVideoResult : Obligations.RgbToVideoResult := by
  intro s hvalid
  refine ⟨s.videoOfPixels, exec_rgb2cv hvalid, fun k => ?_⟩
  obtain ⟨h1, h2, h3, h4, h5, h6, h7, h8⟩ := rgbToCv_coefficients
  rw [s.get_videoOfPixels, ← h1, ← h2, ← h3, ← h4, ← h5, ← h6, ← h7, ← h8]
  exact ofBits_encodeTriple_rgbToCv s (s.regs.pix.get k) s.regs.den

theorem roundQuot_zero (neg : Bool) (q : Nat) : roundQuot neg 0 q = .num neg 0 := by
  rcases roundQuot_cases neg 0 q with ⟨_, h⟩ | ⟨h, _⟩
  · rw [h, nearestMagnitude_zero]
  · rw [nearestMagnitude_zero] at h
    exact absurd h (Nat.not_le.mpr (by positivity))

/-- R131: a black pixel's video is +0.0 in every component: each product is a zero, and a sum of zeros that is not of
two -0.0 is +0.0. -/
theorem rgbToCv_black {den : BitVec 16} (hd : den ≠ 0) : rgbToCv ⟨0, 0, 0⟩ den = ⟨fZero, fZero, fZero⟩ := by
  have hratio : fdiv (ofU16 0) (ofU16 den) = .num false 0 := by
    have hden : den.toNat * oneUnits ≠ 0 :=
      Nat.mul_ne_zero (fun h => hd (BitVec.eq_of_toNat_eq h)) oneUnits_pos.ne'
    rw [ofU16_eq, ofU16_eq, fdiv, if_neg hden, show (0 : BitVec 16).toNat = 0 from rfl, Nat.zero_mul, Nat.zero_mul,
      roundQuot_zero]
    rfl
  simp only [rgbToCv, hratio]
  decide +kernel

/-- Settles O41: the values of a valid pixel are bounded (`rgbToCv_within`), so finite, and a black pixel's are zeros
(`rgbToCv_black`). -/
theorem rgbToVideoIsFinite : Obligations.RgbToVideoIsFinite := by
  intro s hvalid
  refine ⟨_, exec_rgb2cv hvalid, fun k => ⟨?_, fun hblack => ?_⟩⟩
  · obtain ⟨hy, hpb, hpr⟩ := ofBits_encodeTriple_rgbToCv s (s.regs.pix.get k) s.regs.den
    obtain ⟨fy, fpb, fpr⟩ := rgbToCv_within hvalid.1 (hvalid.2 k)
    simp only [s.get_videoOfPixels, hy, hpb, hpr]
    exact ⟨fy.finite, fpb.finite, fpr.finite⟩
  · simp only [s.get_videoOfPixels, hblack, rgbToCv_black hvalid.1]
    rfl

/-! ## CV2RGB (R133, R134) -/

/-- `f64(n)` of a natural number is exact below `2^53` (R11). -/
theorem ofInt_natCast {n : Nat} (h : n < 2 ^ 53) : Binary64.ofInt n = .num false (n * oneUnits) := by
  rw [ofInt_exact (by simpa using h), decide_eq_false (by omega), Int.natAbs_natCast]

theorem ofInt_one : Binary64.ofInt 1 = fOne := by
  rw [fOne, ← Nat.one_mul oneUnits]
  exact ofInt_natCast (n := 1) (by norm_num)

/-- A clamp to [0, 1] answers exactly on values that are no NaN, with the value the statements name. -/
theorem clamp_zero_one_eq_ok {x y : Binary64} :
    clamp x fZero fOne = .ok y ↔ x ≠ .nan ∧ y = clampUnit x := by
  rw [clamp_eq_ok, clampUnit, ofInt_one]
  rfl

/-- A number clamped to [0, 1]: at most 1, and a negative one is -0.0. -/
theorem clampUnit_cases {x : Binary64} (h : x ≠ .nan) :
    ∃ neg mag, clampUnit x = .num neg mag ∧ mag ≤ oneUnits ∧ (neg = true → mag = 0) := by
  rw [clampUnit, ofInt_one]
  split
  · exact ⟨false, 0, rfl, Nat.zero_le _, fun _ => rfl⟩
  · split
    · exact ⟨false, oneUnits, rfl, le_rfl, fun h => nomatch h⟩
    · rename_i hlo hhi
      cases x with
      | nan => exact absurd rfl h
      | inf neg => cases neg <;> simp [Binary64.lt, fOne] at hlo hhi
      | num neg mag =>
        simp only [Binary64.lt, fOne, decide_eq_true_eq] at hlo hhi
        cases neg
        · refine ⟨false, mag, rfl, ?_, fun h => nomatch h⟩
          simpa [signedUnits] using hhi
        · have hzero : mag = 0 := by simpa [signedUnits] using hlo
          exact ⟨true, mag, rfl, hzero ▸ Nat.zero_le _, fun _ => hzero⟩

/-- `round_haz(clamp(x, 0.0, 1.0) * d)`: a channel of R134, and with 511 the code of R170. -/
def unitCode (x : Binary64) (d : Nat) : Int := roundHaz (fmul (clampUnit x) (.ofInt d))

/-- A value clamped to [0, 1] and scaled by `d` rounds to an integer of 0..d. -/
theorem unitCode_bounds {x : Binary64} {d : Nat} (hx : x ≠ .nan) (hd : d < 2 ^ 53) :
    0 ≤ unitCode x d ∧ unitCode x d ≤ d := by
  obtain ⟨neg, mag, hclamp, hmag, hneg⟩ := clampUnit_cases hx
  obtain ⟨hround, hle⟩ := roundQuot_of_le (neg := neg ^^ false) oneUnits_pos (representable_oneUnits_mul hd)
    (oneUnits_mul_lt hd) (show mag * (d * oneUnits) ≤ d * oneUnits * oneUnits by
      rw [Nat.mul_comm]; exact Nat.mul_le_mul_left _ hmag)
  rw [unitCode, hclamp, ofInt_natCast hd, fmul, hround, Bool.xor_false, roundHaz_num]
  cases neg
  · have hcode := halfUp_le oneUnits_pos hle
    simp only [Bool.false_eq_true, if_false]
    omega
  · have hcode : halfUp 0 oneUnits ≤ 0 := halfUp_le oneUnits_pos (Nat.zero_le _)
    rw [hneg rfl, Nat.zero_mul, nearestMagnitude_zero]
    simp only [if_true]
    omega

theorem channelOf_eq_ok {x : Binary64} {den c : BitVec 16} :
    channelOf x den = .ok c ↔ x ≠ .nan ∧ c = BitVec.ofInt 16 (unitCode x den.toNat) := by
  simp only [channelOf, andThen_eq_ok, clamp_zero_one_eq_ok, Except.ok.injEq, unitCode, ofU16]
  constructor
  · rintro ⟨y, ⟨hx, rfl⟩, hc⟩
    exact ⟨hx, hc.symm⟩
  · rintro ⟨hx, hc⟩
    exact ⟨_, ⟨hx, rfl⟩, hc.symm⟩

/-- A channel is its rounded product, at most DEN, and nothing of it is lost in 16 bits. -/
theorem toNat_channel {x : Binary64} (hx : x ≠ .nan) (den : BitVec 16) :
    ((BitVec.ofInt 16 (unitCode x den.toNat)).toNat : Int) = unitCode x den.toNat ∧
      (BitVec.ofInt 16 (unitCode x den.toNat)).toNat ≤ den.toNat := by
  have hden := den.isLt
  obtain ⟨hlo, hhi⟩ := unitCode_bounds (d := den.toNat) hx (by omega)
  rw [BitVec.toNat_ofInt]
  generalize unitCode x den.toNat = n at hlo hhi
  omega

/-- The pixel of R134, for a lane whose linear values are no NaN (`cvToRgb_of_noNan`). -/
def rgbOfVideo (den : BitVec 16) (v : ComponentVideo) : Pixel where
  r := .ofInt 16 (unitCode (linearR (.ofBits v.y) (.ofBits v.pr)) den.toNat)
  g := .ofInt 16 (unitCode (linearG (.ofBits v.y) (.ofBits v.pb) (.ofBits v.pr)) den.toNat)
  b := .ofInt 16 (unitCode (linearB (.ofBits v.y) (.ofBits v.pb)) den.toNat)

theorem not_nan_mem_linearRgb {v : ComponentVideo} :
    .nan ∉ linearRgb v ↔ linearR (.ofBits v.y) (.ofBits v.pr) ≠ .nan ∧
      linearG (.ofBits v.y) (.ofBits v.pb) (.ofBits v.pr) ≠ .nan ∧ linearB (.ofBits v.y) (.ofBits v.pb) ≠ .nan := by
  rw [linearRgb_eq]
  simp [eq_comm]

theorem cvToRgb_of_noNan {v : ComponentVideo} (h : .nan ∉ linearRgb v) (den : BitVec 16) :
    cvToRgb den v = .ok (rgbOfVideo den v) := by
  obtain ⟨hr, hg, hb⟩ := not_nan_mem_linearRgb.mp h
  rw [cvToRgb, channelOf_eq_ok.mpr ⟨hr, rfl⟩, channelOf_eq_ok.mpr ⟨hg, rfl⟩, channelOf_eq_ok.mpr ⟨hb, rfl⟩]
  rfl

/-- Each channel of R134's pixel is the rounded product of its linear value, at most DEN. -/
theorem rgbOfVideo_channels {v : ComponentVideo} (h : .nan ∉ linearRgb v) (den : BitVec 16) :
    [((rgbOfVideo den v).r.toNat : Int), (rgbOfVideo den v).g.toNat, (rgbOfVideo den v).b.toNat] =
        (linearRgb v).map (fun x => unitCode x den.toNat) ∧
      (rgbOfVideo den v).r.toNat ≤ den.toNat ∧ (rgbOfVideo den v).g.toNat ≤ den.toNat ∧
      (rgbOfVideo den v).b.toNat ≤ den.toNat := by
  obtain ⟨hr, hg, hb⟩ := not_nan_mem_linearRgb.mp h
  obtain ⟨er, lr⟩ := toNat_channel hr den
  obtain ⟨eg, lg⟩ := toNat_channel hg den
  obtain ⟨eb, lb⟩ := toNat_channel hb den
  refine ⟨?_, lr, lg, lb⟩
  rw [linearRgb_eq, rgbOfVideo]
  simp only [List.map, er, eg, eb]

theorem exec_cv2rgb {s : State} {pix : Quad Pixel} (hden : s.regs.den ≠ 0)
    (h : ∀ k, cvToRgb s.regs.den (s.regs.cv.get k) = .ok (pix.get k)) :
    exec .cv2rgb s = .next { s with regs := { s.regs with pix := pix } } := by
  rw [exec, execCv2rgb, denCheck_of_ne_zero hden, andThen_ok, (Quad.mapCheck_eq_ok ..).mpr h]
  rfl

/-- CV2RGB after a command that wrote the CV registers. -/
theorem exec_cv2rgb_of_cv {s : State} {cv : Quad ComponentVideo} {pix : Quad Pixel} (hden : s.regs.den ≠ 0)
    (h : ∀ k, cvToRgb s.regs.den (cv.get k) = .ok (pix.get k)) :
    exec .cv2rgb { s with regs := { s.regs with cv := cv } } =
      .next { s with regs := { s.regs with cv := cv, pix := pix } } :=
  exec_cv2rgb hden h

/-- Settles O42: every lane answers (`cvToRgb_of_noNan`) with its rounded products (`rgbOfVideo_channels`). -/
theorem videoToRgbResult : Obligations.VideoToRgbResult := by
  intro s hden hnan
  refine ⟨s.regs.cv.map (rgbOfVideo s.regs.den), exec_cv2rgb hden fun k => ?_, fun k => ?_⟩
  · rw [Quad.get_map]
    exact cvToRgb_of_noNan (hnan k) _
  · rw [Quad.get_map]
    exact rgbOfVideo_channels (hnan k) _

/-! ## Lanes (R136) -/

/-- The pattern of a number is the same whatever state stores it. -/
theorem encodeFloat_congr (s s' : State) (slot : Nat) {x : Binary64} (hx : x ≠ .nan) :
    s.encodeFloat slot x = s'.encodeFloat slot x := by
  cases x with
  | nan => exact absurd rfl hx
  | inf neg => simp only [State.encodeFloat, Binary64.toBits]
  | num neg mag => simp only [State.encodeFloat, Binary64.toBits]

theorem encodeTriple_congr (s s' : State) {x : VideoTriple} (hy : x.y ≠ .nan) (hpb : x.pb ≠ .nan)
    (hpr : x.pr ≠ .nan) : s.encodeTriple x = s'.encodeTriple x := by
  rw [State.encodeTriple, encodeFloat_congr s s' 0 hy, encodeFloat_congr s s' 1 hpb, encodeFloat_congr s s' 2 hpr,
    State.encodeTriple]

/-- CV2RGB completes only with R134's pixel in every lane. -/
theorem cv2rgb_completed {s t : State} (ht : exec .cv2rgb s = .next t) (hf : t.regs.fault = false) (k : Lane) :
    cvToRgb s.regs.den (s.regs.cv.get k) = .ok (t.regs.pix.get k) := by
  rcases (finish_eq_next ..).mp ht with ⟨c, _, rfl⟩ | ⟨g, hg, rfl⟩
  · cases hf
  · obtain ⟨_, _, hg⟩ := (andThen_eq_ok ..).mp hg
    obtain ⟨pix, hpix, hg⟩ := (andThen_eq_ok ..).mp hg
    cases hg
    exact (Quad.mapCheck_eq_ok ..).mp hpix k

/-- Settles O43: RGB2CV's lane is a function of the pixel and DEN, no component being a NaN (`encodeTriple_congr`), and
so is CV2RGB's of the video and DEN (`cv2rgb_completed`). -/
theorem lanesDoNotInteract : Obligations.LanesDoNotInteract := by
  intro s s' k hden
  refine ⟨fun t t' hvalid hvalid' hpix ht ht' => ?_, fun t t' _ _ hcv ht ht' hf hf' => ?_⟩
  · cases (exec_rgb2cv hvalid).symm.trans ht
    cases (exec_rgb2cv hvalid').symm.trans ht'
    obtain ⟨fy, fpb, fpr⟩ := rgbToCv_within hvalid'.1 (hvalid'.2 k)
    simp only [State.get_videoOfPixels, hpix, hden]
    exact encodeTriple_congr s s' fy.ne_nan fpb.ne_nan fpr.ne_nan
  · have hlane := cv2rgb_completed ht hf k
    rw [hden, hcv, cv2rgb_completed ht' hf' k] at hlane
    exact (Except.ok.inj hlane).symm

/-! ## Round trip (R137) -/

/-- The number is within `n * 2^-48` of the rational `v`, which is at most `B`. -/
def CloseTo (x : Binary64) (v : ℚ) (n B : Nat) : Prop := Near x v (n / 2 ^ 48) ∧ |v| ≤ B

section
variable {x y c : Binary64} {v w q : ℚ} {m n A B : Nat}

/-- An addition adds the errors of its operands and its own. -/
theorem fadd_closeTo (hx : CloseTo x v m A) (hy : CloseTo y w n B) (h : m + n ≤ 100 ∧ A + B ≤ 15) :
    CloseTo (fadd x y) (v + w) (m + n + 1) (A + B) := by
  obtain ⟨hx, hv⟩ := hx
  obtain ⟨hy, hw⟩ := hy
  have hmn : (m : ℚ) + n ≤ 100 := by exact_mod_cast h.1
  have hAB : (A : ℚ) + B ≤ 15 := by exact_mod_cast h.2
  refine ⟨(fadd_near hx hy (by norm_num; linarith)).mono (le_of_eq ?_), ?_⟩
  · push_cast
    ring
  · push_cast
    exact (abs_add_le v w).trans (add_le_add hv hw)

theorem CloseTo.neg (h : CloseTo x v n B) : CloseTo x.neg (-v) n B := ⟨Near.neg h.1, (abs_neg v).trans_le h.2⟩

theorem fsub_closeTo (hx : CloseTo x v m A) (hy : CloseTo y w n B) (h : m + n ≤ 100 ∧ A + B ≤ 15) :
    CloseTo (fsub x y) (v - w) (m + n + 1) (A + B) := by
  rw [sub_eq_add_neg]
  exact fadd_closeTo hx hy.neg h

/-- A product with a coefficient of at most 2 doubles the error of the other factor, adds the coefficient's and its
own. -/
theorem fmul_closeTo (hc : CloseTo c q 1 2) (hx : CloseTo x v n 1) (hn : n ≤ 100) :
    CloseTo (fmul c x) (q * v) (2 * n + 3) 2 := by
  obtain ⟨hc, hq⟩ := hc
  obtain ⟨hx, hv⟩ := hx
  have hn' : (n : ℚ) ≤ 100 := by exact_mod_cast hn
  push_cast at hc hq hv
  have hbound : (|q| + 1 / 2 ^ 48) * (|v| + n / 2 ^ 48) ≤ 3 * 3 :=
    mul_le_mul (by norm_num; linarith) (by norm_num; linarith) (by positivity) (by norm_num)
  have hcoef : |q| * (n / 2 ^ 48) ≤ 2 * (n / 2 ^ 48) := mul_le_mul_of_nonneg_right hq (by positivity)
  refine ⟨(fmul_near hc hx (hbound.trans (by norm_num))).mono ?_, ?_⟩
  · push_cast
    linarith
  · rw [abs_mul]
    push_cast
    exact (mul_le_mul hq hv (abs_nonneg v) (by norm_num)).trans (by norm_num)

end

/-- A decimal of at most 2 is a coefficient. -/
theorem ofDecimal_closeTo {digits scale : Nat} (h : digits ≤ 2 * 10 ^ scale) :
    CloseTo (.ofDecimal false digits scale) (digits / 10 ^ scale) 1 2 := by
  refine ⟨(ofDecimal_near (by omega)).mono (by norm_num), ?_⟩
  rw [abs_of_nonneg (by positivity), div_le_iff₀ (by positivity)]
  exact_mod_cast h

theorem Near.shift {x : Binary64} {v w ε δ : ℚ} (h : Near x v ε) (hvw : |v - w| ≤ δ) : Near x w (ε + δ) := by
  obtain ⟨neg, mag, rfl, h⟩ := h
  exact ⟨neg, mag, rfl, (abs_sub_le _ v _).trans (add_le_add h hvw)⟩

/-! ### R132 and R134 over the rationals -/

/-- R132's Y of three ratios, exactly. -/
def exactY (r g b : ℚ) : ℚ := (299 : Nat) / 10 ^ 3 * r + (587 : Nat) / 10 ^ 3 * g + (114 : Nat) / 10 ^ 3 * b

/-- R132's Pb, exactly. -/
def exactPb (r g b : ℚ) : ℚ := -((168736 : Nat) / 10 ^ 6) * r - (331264 : Nat) / 10 ^ 6 * g + (5 : Nat) / 10 ^ 1 * b

/-- R132's Pr, exactly. -/
def exactPr (r g b : ℚ) : ℚ := (5 : Nat) / 10 ^ 1 * r - (418688 : Nat) / 10 ^ 6 * g - (81312 : Nat) / 10 ^ 6 * b

/-- What the round trip of R137 can lose of a ratio before the clamp: the roundings, and what R134's coefficients lack
of R132's inverse. -/
def roundTripError : ℚ := 93 / 2 ^ 48 + 1 / 10 ^ 6

section
variable {r g b : ℚ} (hr : 0 ≤ r ∧ r ≤ 1) (hg : 0 ≤ g ∧ g ≤ 1) (hb : 0 ≤ b ∧ b ≤ 1)
include hr hg hb

/-- The exact video of a pixel is within 1. -/
theorem exactVideo_abs_le : |exactY r g b| ≤ 1 ∧ |exactPb r g b| ≤ 1 ∧ |exactPr r g b| ≤ 1 := by
  obtain ⟨hr0, hr1⟩ := hr
  obtain ⟨hg0, hg1⟩ := hg
  obtain ⟨hb0, hb1⟩ := hb
  simp only [exactY, exactPb, exactPr, abs_le]
  push_cast
  refine ⟨⟨?_, ?_⟩, ⟨?_, ?_⟩, ⟨?_, ?_⟩⟩ <;> linarith

/-- R134's coefficients invert R132's up to a millionth. -/
theorem exactVideo_inverse :
    |exactY r g b + (1402 : Nat) / 10 ^ 3 * exactPr r g b - r| ≤ 1 / 10 ^ 6 ∧
    |exactY r g b - (344136 : Nat) / 10 ^ 6 * exactPb r g b - (714136 : Nat) / 10 ^ 6 * exactPr r g b - g| ≤
      1 / 10 ^ 6 ∧
    |exactY r g b + (1772 : Nat) / 10 ^ 3 * exactPb r g b - b| ≤ 1 / 10 ^ 6 := by
  obtain ⟨hr0, hr1⟩ := hr
  obtain ⟨hg0, hg1⟩ := hg
  obtain ⟨hb0, hb1⟩ := hb
  simp only [exactY, exactPb, exactPr, abs_le]
  push_cast
  refine ⟨⟨?_, ?_⟩, ⟨?_, ?_⟩, ⟨?_, ?_⟩⟩ <;> linarith

/-- R132 in binary64, from channels close to their ratios. -/
theorem video_closeTo {R G B : Binary64} (hR : CloseTo R r 1 1) (hG : CloseTo G g 1 1) (hB : CloseTo B b 1 1) :
    CloseTo (fadd (fadd (fmul c0_299 R) (fmul c0_587 G)) (fmul c0_114 B)) (exactY r g b) 17 1 ∧
    CloseTo (fadd (fsub (fmul c0_168736.neg R) (fmul c0_331264 G)) (fmul c0_5 B)) (exactPb r g b) 17 1 ∧
    CloseTo (fsub (fsub (fmul c0_5 R) (fmul c0_418688 G)) (fmul c0_081312 B)) (exactPr r g b) 17 1 := by
  obtain ⟨h1, h2, h3, -, h5, h6, h7, h8⟩ := rgbToCv_coefficients
  have h4 : c0_168736 = .ofDecimal false 168736 6 := by decide +kernel
  rw [h1, h2, h3, h4, h5, h6, h7, h8]
  have mul (digits scale : Nat) {X : Binary64} {v : ℚ} (h : digits ≤ 2 * 10 ^ scale) (hX : CloseTo X v 1 1) :
      CloseTo (fmul (.ofDecimal false digits scale) X) (digits / 10 ^ scale * v) 5 2 :=
    fmul_closeTo (n := 1) (ofDecimal_closeTo h) hX (by norm_num)
  obtain ⟨hbY, hbPb, hbPr⟩ := exactVideo_abs_le hr hg hb
  have hY := fadd_closeTo (fadd_closeTo (mul 299 3 (by norm_num) hR) (mul 587 3 (by norm_num) hG) (by norm_num))
    (mul 114 3 (by norm_num) hB) (by norm_num)
  have hneg := fmul_closeTo (ofDecimal_closeTo (digits := 168736) (scale := 6) (by norm_num)).neg hR (by norm_num)
  have hPb := fadd_closeTo (fsub_closeTo hneg (mul 331264 6 (by norm_num) hG) (by norm_num))
    (mul 5 1 (by norm_num) hB) (by norm_num)
  have hPr := fsub_closeTo (fsub_closeTo (mul 5 1 (by norm_num) hR) (mul 418688 6 (by norm_num) hG) (by norm_num))
    (mul 81312 6 (by norm_num) hB) (by norm_num)
  exact ⟨⟨hY.1, by simpa using hbY⟩, ⟨hPb.1, by simpa using hbPb⟩, ⟨hPr.1, by simpa using hbPr⟩⟩

/-- R134's linear values in binary64, from video close to the exact one, are near the channels. -/
theorem linear_near {Y Pb Pr : Binary64} (hY : CloseTo Y (exactY r g b) 17 1) (hPb : CloseTo Pb (exactPb r g b) 17 1)
    (hPr : CloseTo Pr (exactPr r g b) 17 1) :
    Near (linearR Y Pr) r roundTripError ∧ Near (linearG Y Pb Pr) g roundTripError ∧
      Near (linearB Y Pb) b roundTripError := by
  obtain ⟨h1, h2, h3, h4⟩ := linearRgb_coefficients
  obtain ⟨ir, ig, ib⟩ := exactVideo_inverse hr hg hb
  have mul (digits scale : Nat) {X : Binary64} {v : ℚ} (h : digits ≤ 2 * 10 ^ scale) (hX : CloseTo X v 17 1) :
      CloseTo (fmul (.ofDecimal false digits scale) X) (digits / 10 ^ scale * v) 37 2 :=
    fmul_closeTo (n := 17) (ofDecimal_closeTo h) hX (by norm_num)
  rw [linearR, linearG, linearB, h1, h2, h3, h4]
  have hR := fadd_closeTo hY (mul 1402 3 (by norm_num) hPr) (by norm_num)
  have hG := fsub_closeTo (fsub_closeTo hY (mul 344136 6 (by norm_num) hPb) (by norm_num))
    (mul 714136 6 (by norm_num) hPr) (by norm_num)
  have hB := fadd_closeTo hY (mul 1772 3 (by norm_num) hPb) (by norm_num)
  exact ⟨(hR.1.shift ir).mono (by norm_num [roundTripError]), (hG.1.shift ig).mono (by norm_num [roundTripError]),
    (hB.1.shift ib).mono (by norm_num [roundTripError])⟩

end

/-! ### The last rounding -/

/-- A quarter of a unit, on whose multiples the bounds of the last product lie. -/
theorem exists_quarter : ∃ Q, 0 < Q ∧ oneUnits = 4 * Q ∧ ∀ n < 2 ^ 53, Representable (n * Q) := by
  refine ⟨2 ^ 1072, by positivity, ?_, fun n => representable_mul_pow 1072⟩
  rw [oneUnits_eq, show 1074 = 2 + 1072 from rfl, pow_add, show 2 ^ 2 = 4 from rfl]

/-- Rounding keeps a value that is within a quarter of the integer `k` there: the two bounds are representable. -/
theorem roundQuot_quarter {neg : Bool} {p k Q : Nat} (hQ : 0 < Q) (hone : oneUnits = 4 * Q)
    (hrep : ∀ n < 2 ^ 53, Representable (n * Q)) (hk : k < 2 ^ 50)
    (hp : |signedUnits neg p - 4 * (k * Q : Nat)| ≤ Q) :
    ∃ M, roundQuot neg (p * oneUnits) oneUnits = .num neg M ∧ |signedUnits neg M - 4 * (k * Q : Nat)| ≤ Q := by
  have hfin : (4 * k + 1) * Q < 2 ^ 2098 := by
    have hlt := oneUnits_mul_lt (k := 4 * k + 1) (by omega)
    exact lt_of_le_of_lt (Nat.mul_le_mul_left _ (by omega)) hlt
  have hhi : (4 * k + 1) * Q = 4 * (k * Q) + Q := by ring
  have hlo : (4 * k - 1) * Q = 4 * (k * Q) - Q := by rw [Nat.sub_mul, Nat.one_mul, Nat.mul_assoc]
  rw [abs_le] at hp
  have hle : p ≤ (4 * k + 1) * Q := by
    rw [hhi]
    cases neg <;> simp only [signedUnits, Bool.false_eq_true, if_true, if_false] at hp <;> omega
  obtain ⟨hround, hM⟩ := roundQuot_of_le (neg := neg) oneUnits_pos (hrep (4 * k + 1) (by omega)) hfin
    (Nat.mul_le_mul_right oneUnits hle)
  refine ⟨_, hround, ?_⟩
  have hM' : 4 * (k * Q) - Q ≤ p → 4 * (k * Q) - Q ≤ nearestMagnitude (p * oneUnits) oneUnits := fun h =>
    hlo ▸ le_nearestMagnitude oneUnits_pos (hrep (4 * k - 1) (by omega)) (Nat.mul_le_mul_right _ (hlo ▸ h))
  rw [hhi] at hM
  generalize nearestMagnitude (p * oneUnits) oneUnits = M at hM hM'
  rw [abs_le]
  cases neg
  · simp only [signedUnits, Bool.false_eq_true, if_false] at hp ⊢
    have := hM' (by omega)
    omega
  · simp only [signedUnits, if_true] at hp ⊢
    have hk0 : k = 0 := by
      by_contra hne
      have := Nat.le_mul_of_pos_left Q (Nat.pos_of_ne_zero hne)
      omega
    subst hk0
    simp only [Nat.zero_mul] at hp hM ⊢
    omega

/-- A product with an integer is the exact multiple, rounded. -/
theorem fmul_ofInt {neg : Bool} {m d : Nat} (hd : d < 2 ^ 53) :
    fmul (.num neg m) (.ofInt d) = roundQuot neg (m * d * oneUnits) oneUnits := by
  rw [ofInt_natCast hd, fmul, Bool.xor_false, Nat.mul_assoc]

theorem signedUnits_mul (neg : Bool) (m d : Nat) : signedUnits neg (m * d) = signedUnits neg m * d := by
  cases neg <;> simp [signedUnits]

/-- A value close to `k / d` times `d` is within a quarter of `k`, the rounding included. -/
theorem fmul_ofInt_near {x : Binary64} {k d : Nat} {ε : ℚ} (hk : k < 2 ^ 50) (hd0 : d ≠ 0) (hd : d < 2 ^ 53)
    (hx : Near x (k / d) ε) (hε : ε * d ≤ 1 / 4) : Near (fmul x (.ofInt d)) k (1 / 4) := by
  obtain ⟨neg, m, rfl, hx⟩ := hx
  obtain ⟨Q, hQ, hone, hrep⟩ := exists_quarter
  have hu := oneUnits_cast_pos
  have hd' : (0 : ℚ) < d := by exact_mod_cast Nat.pos_of_ne_zero hd0
  have hone' : (oneUnits : ℚ) = 4 * Q := by exact_mod_cast hone
  have hexact : |signedUnits neg (m * d) - 4 * (k * Q : Nat)| ≤ Q := by
    have heq : (signedUnits neg m * d - 4 * (k * Q) : ℚ) =
        ((signedUnits neg m : ℚ) / oneUnits - k / d) * (d * oneUnits) := by
      field_simp
      rw [hone']
      ring
    have hle : |(signedUnits neg m * d - 4 * (k * Q) : ℚ)| ≤ Q := by
      rw [heq, abs_mul, abs_of_pos (mul_pos hd' hu)]
      calc _ ≤ ε * (d * oneUnits) := mul_le_mul_of_nonneg_right hx (mul_pos hd' hu).le
        _ = ε * d * oneUnits := by ring
        _ ≤ 1 / 4 * oneUnits := mul_le_mul_of_nonneg_right hε hu.le
        _ = Q := by rw [hone']; ring
    rw [signedUnits_mul]
    exact_mod_cast hle
  obtain ⟨M, hround, hM⟩ := roundQuot_quarter hQ hone hrep hk hexact
  refine ⟨neg, M, (fmul_ofInt hd).trans hround, ?_⟩
  have hM' : |(signedUnits neg M - 4 * (k * Q) : ℚ)| ≤ Q := by exact_mod_cast hM
  rw [div_sub' hu.ne', abs_div, abs_of_pos hu, div_le_iff₀ hu, hone']
  calc _ = |(signedUnits neg M - 4 * (k * Q) : ℚ)| := by congr 1; ring
    _ ≤ Q := hM'
    _ = _ := by ring

/-- A linear value within the round trip's error of `k / d` gives the code `k`. -/
theorem unitCode_of_near {x : Binary64} {k d : Nat} (hd0 : d ≠ 0) (hd : d < 2 ^ 16) (hk : k ≤ d)
    (hx : Near x (k / d) roundTripError) : unitCode x d = k := by
  have hd' : (0 : ℚ) < d := by exact_mod_cast Nat.pos_of_ne_zero hd0
  have hk' : (k : ℚ) ≤ d := by exact_mod_cast hk
  have hdmax : (d : ℚ) ≤ 2 ^ 16 := by exact_mod_cast hd.le
  have hclamp := clampUnit_near hx (by positivity) ((div_le_one hd').mpr hk')
  have hε : roundTripError * d ≤ 1 / 4 := by
    rw [roundTripError]
    linarith
  exact roundHaz_of_near (fmul_ofInt_near (by omega) hd0 (by omega) hclamp hε) (by norm_num)

/-! ### The round trip of a pixel -/

/-- R137 and more: at every DEN, R134 gives a valid pixel back from what R132 stored. -/
theorem cvToRgb_encodeTriple (s : State) {p : Pixel} {den : BitVec 16} (hd : den ≠ 0)
    (h : p.r.toNat ≤ den.toNat ∧ p.g.toNat ≤ den.toNat ∧ p.b.toNat ≤ den.toNat) :
    cvToRgb den (s.encodeTriple (rgbToCv p den)) = .ok p := by
  have hd0 : den.toNat ≠ 0 := fun h => hd (BitVec.eq_of_toNat_eq h)
  have hden : (0 : ℚ) < den.toNat := by exact_mod_cast Nat.pos_of_ne_zero hd0
  have hratio {c : BitVec 16} (hc : c.toNat ≤ den.toNat) :
      (0 : ℚ) ≤ c.toNat / den.toNat ∧ (c.toNat : ℚ) / den.toNat ≤ 1 :=
    ⟨by positivity, (div_le_one hden).mpr (by exact_mod_cast hc)⟩
  have hclose {c : BitVec 16} (hc : c.toNat ≤ den.toNat) :
      CloseTo (fdiv (ofU16 c) (ofU16 den)) (c.toNat / den.toNat) 1 1 := by
    refine ⟨(channel_ratio_near hd hc).mono (by norm_num), ?_⟩
    rw [abs_of_nonneg (hratio hc).1, Nat.cast_one]
    exact (hratio hc).2
  obtain ⟨hr, hg, hb⟩ := h
  obtain ⟨hY, hPb, hPr⟩ := video_closeTo (hratio hr) (hratio hg) (hratio hb) (hclose hr) (hclose hg) (hclose hb)
  obtain ⟨nr, ng, nb⟩ := linear_near (hratio hr) (hratio hg) (hratio hb) hY hPb hPr
  have hchannel {x : Binary64} {c : BitVec 16} (hc : c.toNat ≤ den.toNat)
      (hx : Near x (c.toNat / den.toNat) roundTripError) : channelOf x den = .ok c := by
    refine channelOf_eq_ok.mpr ⟨?_, ?_⟩
    · obtain ⟨_, _, rfl, _⟩ := hx
      exact Binary64.noConfusion
    · rw [unitCode_of_near hd0 den.isLt hc hx]
      simp
  obtain ⟨ey, epb, epr⟩ := ofBits_encodeTriple_rgbToCv s p den
  rw [cvToRgb, ey, epb, epr]
  simp only [rgbToCv]
  rw [hchannel hr nr, andThen_ok, hchannel hg ng, andThen_ok, hchannel hb nb, andThen_ok]

/-- Settles O44: the round trip of every lane is exact (`cvToRgb_encodeTriple`), so within 1. -/
theorem colourRoundTripWithinOne : Obligations.ColourRoundTripWithinOne := by
  intro s _ hvalid
  refine ⟨s.videoOfPixels, s.regs.pix, exec_rgb2cv hvalid, exec_cv2rgb_of_cv hvalid.1 fun k => ?_, fun k => by simp⟩
  rw [s.get_videoOfPixels]
  exact cvToRgb_encodeTriple s hvalid.1 (hvalid.2 k)

/-! ## Pipelines (R243) -/

/-- In a normal state whose registers meet `P`, command `i` completes without a fault, and its registers meet `Q`. -/
def Completes (P : Regs → Prop) (i : Instr) (Q : Regs → Prop) : Prop :=
  ∀ s : State, s.regs.fault = false → P s.regs → ∃ t, exec i s = .next t ∧ t.regs.fault = false ∧ Q t.regs

/-- The host's CMD writes of the list run to their end without a fault; a register that no command of the list writes
reads as before. -/
def RunsThrough (P : Regs → Prop) (l : List Instr) (Q : Regs → Prop) : Prop :=
  ∀ s : State, s.regs.fault = false → P s.regs →
    ∃ t, RunsTo l.length { s with pending := cmdWrites l } t ∧ t.regs.fault = false ∧ t.pending = [] ∧ Q t.regs ∧
      ∀ r : RegName, (∀ i ∈ l, writesReg i r = false) → t.regs.read r = s.regs.read r

/-- A run is its first step and the rest. -/
theorem run_succ_of_step {M : Host.Core} {n : Nat} {s t : M.State} (h : M.step s = .next t) :
    M.run (n + 1) s = M.run n t := by
  rw [Host.Core.run, h]

theorem runsTo_succ {n : Nat} {s t u : State} (hstep : step s = .next t) (hrun : RunsTo n t u) :
    RunsTo (n + 1) s u :=
  (run_succ_of_step (M := Sys2Proof.core) hstep).trans hrun

/-- A command that leaves the unit in the normal state wrote its destination registers only. -/
theorem onlyDestination_of_completes {i : Instr} {s t : State} (ht : exec i s = .next t) (hf : t.regs.fault = false) :
    OnlyDestination i s.regs t.regs := by
  rcases exec_cases i s with ⟨c, _, h⟩ | ⟨g, hg, h | ⟨_, h⟩⟩ <;> cases h.symm.trans ht
  · cases hf
  · exact hg
  · exact hg

/-- A command that from `P` leaves registers which differ in its destinations only and meet `Q` completes with `Q`. The
registers are a variable here: comparing FAULT of the old and the new ones, the kernel would compute the results. -/
theorem completes_of_next {P Q : Regs → Prop} {i : Instr}
    (h : ∀ s : State, P s.regs → ∃ (g : Regs) (n : Nat), exec i s = .next { s with regs := g, nanCount := n } ∧
      OnlyDestination i s.regs g ∧ Q g) : Completes P i Q := by
  intro s hf hP
  obtain ⟨g, n, hexec, hdest, hQ⟩ := h s hP
  exact ⟨_, hexec, hdest.fault.trans hf, hQ⟩

/-- A command that does not write DEN keeps it from being 0. -/
theorem Completes.keepsDen {P Q : Regs → Prop} {i : Instr} (hi : writesReg i .den = false) (h : Completes P i Q) :
    Completes (fun g => g.den ≠ 0 ∧ P g) i (fun g => g.den ≠ 0 ∧ Q g) := by
  rintro s hf ⟨hden, hP⟩
  obtain ⟨t, ht, htf, hQ⟩ := h s hf hP
  have hkept : t.regs.den = s.regs.den := den_eq_of_read ((onlyDestination_of_completes ht htf).others .den hi)
  exact ⟨t, ht, htf, hkept ▸ hden, hQ⟩

theorem runsThrough_nil (P : Regs → Prop) : RunsThrough P [] P := fun _ hf hP =>
  ⟨_, rfl, hf, rfl, hP, fun _ _ => rfl⟩

/-- A pipeline is its first command and the rest. -/
theorem RunsThrough.cons {P R Q : Regs → Prop} {i : Instr} {l : List Instr} (hi : i.WellFormed)
    (hfirst : Completes P i R) (hrest : RunsThrough R l Q) : RunsThrough P (i :: l) Q := by
  intro s hf hP
  let s' : State := { s with pending := cmdWrites l, response := some (.ofWrite .ok) }
  obtain ⟨t, ht, htf, hR⟩ := hfirst s' hf hP
  obtain ⟨t', ht', hpending⟩ := exec_answers i s'
  obtain rfl : t = t' := by simpa [ht] using ht'
  obtain ⟨u, hrun, huf, hu, hQ, hread⟩ := hrest t htf hR
  have hstep : step { s with pending := cmdWrites (i :: l) } = .next t :=
    (stepPerformsDecodedCommand { s with pending := cmdWrites (i :: l) } i (cmdWrites l) hi hf rfl).trans ht
  have hresume : { t with pending := cmdWrites l } = t := by rw [← show t.pending = cmdWrites l from hpending]
  rw [hresume] at hrun
  refine ⟨u, runsTo_succ hstep hrun, huf, hu, hQ, fun r hr => ?_⟩
  rw [hread r fun j hj => hr j (List.mem_cons_of_mem _ hj),
    (onlyDestination_of_completes ht htf).others r (hr i List.mem_cons_self)]

/-! ### Results that are no NaN -/

theorem roundQuot_ne_nan (neg : Bool) (p q : Nat) : roundQuot neg p q ≠ .nan := fun h => by
  have hn := roundQuot_isNaN neg p q
  rw [h] at hn
  cases hn

theorem fadd_ne_nan {x y : Binary64} (hx : x ≠ .nan) (hy : y.Finite) : fadd x y ≠ .nan := by
  cases y with
  | nan => exact hy.elim
  | inf _ => exact hy.elim
  | num n m =>
    cases x with
    | nan => exact absurd rfl hx
    | inf _ => exact Binary64.noConfusion
    | num n' m' =>
      rw [fadd]
      split
      · exact Binary64.noConfusion
      · exact roundQuot_ne_nan _ _ _

theorem fadd_comm (x y : Binary64) : fadd x y = fadd y x := by
  cases x <;> cases y <;> simp only [fadd]
  · rename_i n n'
    by_cases h : n = n'
    · simp [h]
    · simp [h, Ne.symm h]
  · rename_i n m n' m'
    rw [Int.add_comm, Bool.and_comm]

theorem Binary64.Finite.neg {x : Binary64} (h : x.Finite) : x.neg.Finite := by
  cases x <;> exact h

theorem fsub_ne_nan {x y : Binary64} (hx : x ≠ .nan) (hy : y.Finite) : fsub x y ≠ .nan := fadd_ne_nan hx hy.neg

theorem fsub_ne_nan_of_finite {x y : Binary64} (hx : x.Finite) (hy : y ≠ .nan) : fsub x y ≠ .nan := by
  rw [fsub, fadd_comm]
  refine fadd_ne_nan ?_ hx
  cases y with
  | nan => exact absurd rfl hy
  | inf _ => exact Binary64.noConfusion
  | num _ _ => exact Binary64.noConfusion

theorem fmul_ne_nan {x y : Binary64} (hx : x.Finite) (hy : y.Finite) : fmul x y ≠ .nan := by
  cases x with
  | nan => exact hx.elim
  | inf _ => exact hx.elim
  | num n m =>
    cases y with
    | nan => exact hy.elim
    | inf _ => exact hy.elim
    | num n' m' => exact roundQuot_ne_nan _ _ _

/-- A coefficient of at most 1 does not take a register's number out of range. -/
theorem fmul_finite {c x : Binary64} (hc : FiniteWithin c oneUnits) (hx : x.Proper) (hf : x.Finite) :
    (fmul c x).Finite := by
  cases x with
  | nan => exact hf.elim
  | inf _ => exact hf.elim
  | num n m =>
    obtain ⟨hrep, hlt⟩ := hx
    exact (fmul_within hc ⟨n, m, rfl, le_rfl⟩ hrep (le_of_eq (Nat.mul_comm ..)) hlt).finite

theorem fquarter_ne_nan {x : Binary64} (h : x.Finite) : fquarter x ≠ .nan := by
  cases x with
  | nan => exact h.elim
  | inf _ => exact h.elim
  | num n m =>
    have hfour : Binary64.ofInt 4 = .num false (4 * oneUnits) := ofInt_natCast (n := 4) (by norm_num)
    rw [fquarter, hfour, fdiv, if_neg (Nat.mul_ne_zero (by decide) oneUnits_pos.ne')]
    exact roundQuot_ne_nan _ _ _

/-- What was stored is no NaN if the value was none. -/
theorem ofBits_encodeFloat_ne_nan (s : State) (slot : Nat) {x : Binary64} (hx : x.Proper) (hn : x ≠ .nan) :
    Binary64.ofBits (s.encodeFloat slot x) ≠ .nan := by
  rwa [ofBits_encodeFloat s slot hx]

/-! ### Compression: RGB2CV and FWDXF -/

/-- Every CV register holds a number of magnitude at most 3. -/
def VideoWithinThree (g : Regs) : Prop :=
  ∀ (k : Lane) (m : Component), FiniteWithin (.ofBits ((g.cv.get k).get m)) (3 * oneUnits)

/-- A stored triple is as small as its values. -/
theorem encodeTriple_within (s : State) {x : VideoTriple} {M : Nat} (hx : x.y.Proper ∧ x.pb.Proper ∧ x.pr.Proper)
    (h : FiniteWithin x.y M ∧ FiniteWithin x.pb M ∧ FiniteWithin x.pr M) (m : Component) :
    FiniteWithin (.ofBits ((s.encodeTriple x).get m)) M := by
  obtain ⟨hy, hpb, hpr⟩ := ofBits_encodeTriple s hx.1 hx.2.1 hx.2.2
  obtain ⟨fy, fpb, fpr⟩ := h
  cases m with
  | y => exact hy.symm ▸ fy
  | pb => exact hpb.symm ▸ fpb
  | pr => exact hpr.symm ▸ fpr

theorem completes_rgb2cv : Completes ValidPixels .rgb2cv VideoWithinThree := by
  refine completes_of_next fun s hvalid => ⟨_, _, exec_rgb2cv hvalid, onlyDestination_cv _ (fun _ _ => rfl) .., ?_⟩
  intro k m
  rw [s.get_videoOfPixels]
  exact encodeTriple_within s (rgbToCv_proper _ _) (rgbToCv_within hvalid.1 (hvalid.2 k)) m

section
variable {x : Quad Binary64} (h : ∀ k, FiniteWithin (x.get k) (3 * oneUnits))
include h

/-- R150 on numbers of at most 3: every partial sum is a number. -/
theorem forwardLuma_ne_nan :
    (forwardLuma x).a ≠ .nan ∧ (forwardLuma x).b ≠ .nan ∧ (forwardLuma x).c ≠ .nan ∧ (forwardLuma x).d ≠ .nan := by
  have add {y z : Binary64} {a : Nat} (hy : FiniteWithin y (a * oneUnits)) (hz : FiniteWithin z (3 * oneUnits))
      (ha : a ≤ 9) : FiniteWithin (fadd y z) ((a + 3) * oneUnits) := fadd_within_units hy hz (by omega)
  have sub {y z : Binary64} {a : Nat} (hy : FiniteWithin y (a * oneUnits)) (hz : FiniteWithin z (3 * oneUnits))
      (ha : a ≤ 9) : FiniteWithin (fsub y z) ((a + 3) * oneUnits) := fsub_within_units hy hz (by omega)
  have h3 : 3 ≤ 9 := by decide
  have h6 : 3 + 3 ≤ 9 := by decide
  have h9 : 3 + 3 + 3 ≤ 9 := by decide
  exact ⟨fquarter_ne_nan (add (add (add (h 0) (h 1) h3) (h 2) h6) (h 3) h9).finite,
    fquarter_ne_nan (sub (sub (add (h 1) (h 3) h3) (h 0) h6) (h 2) h9).finite,
    fquarter_ne_nan (sub (sub (add (h 2) (h 3) h3) (h 0) h6) (h 1) h9).finite,
    fquarter_ne_nan (sub (sub (add (h 0) (h 3) h3) (h 1) h6) (h 2) h9).finite⟩

/-- The mean of R151 is the first coefficient of R150. -/
theorem mean4_ne_nan : mean4 x ≠ .nan := (forwardLuma_ne_nan h).1

end

theorem not_nan_mem_quantInputs {co : Coefficients} :
    .nan ∉ quantInputs co ↔ Binary64.ofBits co.a ≠ .nan ∧ Binary64.ofBits co.b ≠ .nan ∧ Binary64.ofBits co.c ≠ .nan ∧
      Binary64.ofBits co.d ≠ .nan ∧ Binary64.ofBits co.pb ≠ .nan ∧ Binary64.ofBits co.pr ≠ .nan := by
  simp [quantInputs, eq_comm]

theorem completes_fwdxf : Completes VideoWithinThree .fwdxf (fun g => .nan ∉ quantInputs g.co) := by
  refine completes_of_next fun s hvideo => ⟨_, _, rfl, onlyDestination_co _ (fun _ => rfl) .., ?_⟩
  have hvalues (m : Component) (k : Lane) : FiniteWithin ((cvValues s.regs m).get k) (3 * oneUnits) := by
    rw [cvValues, Quad.get_map]
    exact hvideo k m
  obtain ⟨ha, hb, hc, hd⟩ := forwardLuma_ne_nan (hvalues .y)
  refine not_nan_mem_quantInputs.mpr ⟨?_, ?_, ?_, ?_, ?_, ?_⟩
  · exact ofBits_encodeFloat_ne_nan s 0 (fdiv_proper _ _) ha
  · exact ofBits_encodeFloat_ne_nan s 1 (fdiv_proper _ _) hb
  · exact ofBits_encodeFloat_ne_nan s 2 (fdiv_proper _ _) hc
  · exact ofBits_encodeFloat_ne_nan s 3 (fdiv_proper _ _) hd
  · exact ofBits_encodeFloat_ne_nan s 4 (fdiv_proper _ _) (mean4_ne_nan (hvalues .pb))
  · exact ofBits_encodeFloat_ne_nan s 5 (fdiv_proper _ _) (mean4_ne_nan (hvalues .pr))

/-! ### Compression: QUANT and PACK (R170 to R172, R182) -/

/-- `round_haz(clamp(x, -0.3, 0.3) * 50)`, the code of R171. -/
def bcdCode (x : Binary64) : Int :=
  roundHaz (fmul (if x.lt fPoint3.neg then fPoint3.neg else if fPoint3.lt x then fPoint3 else x) (.ofInt 50))

theorem quantizeA_eq_ok {x : Binary64} {n : Int} : quantizeA x = .ok n ↔ x ≠ .nan ∧ n = unitCode x 511 := by
  have hclamp (c : Binary64) : clamp x (.num false 0) (.num false oneUnits) = .ok c ↔ x ≠ .nan ∧ c = clampUnit x :=
    clamp_zero_one_eq_ok
  simp only [quantizeA, andThen_eq_ok, hclamp, Except.ok.injEq]
  constructor
  · rintro ⟨c, ⟨hx, rfl⟩, rfl⟩
    exact ⟨hx, rfl⟩
  · rintro ⟨hx, rfl⟩
    exact ⟨_, ⟨hx, rfl⟩, rfl⟩

theorem quantizeBcd_eq_ok {x : Binary64} {n : Int} : quantizeBcd x = .ok n ↔ x ≠ .nan ∧ n = bcdCode x := by
  simp only [quantizeBcd, andThen_eq_ok, clamp_eq_ok, Except.ok.injEq, bcdCode]
  constructor
  · rintro ⟨c, ⟨hx, rfl⟩, rfl⟩
    exact ⟨hx, rfl⟩
  · rintro ⟨hx, rfl⟩
    exact ⟨_, ⟨hx, rfl⟩, rfl⟩

/-- What QUANT computes from six values that are no NaN (`quantizeBlock_eq_ok`). -/
def quantizedBlock (lut : Fin 16 → Word) (co : Coefficients) : Quantized where
  a := asU64 (unitCode (.ofBits co.a) 511)
  b := asU64 (bcdCode (.ofBits co.b))
  c := asU64 (bcdCode (.ofBits co.c))
  d := asU64 (bcdCode (.ofBits co.d))
  pb := asU64 (indexOfNonNan lut (.ofBits co.pb))
  pr := asU64 (indexOfNonNan lut (.ofBits co.pr))

theorem quantizeBlock_eq_ok {lut : Fin 16 → Word} {co : Coefficients} {q : Quantized} :
    quantizeBlock lut co = .ok q ↔ .nan ∉ quantInputs co ∧ q = quantizedBlock lut co := by
  refine ⟨fun h => ?_, ?_⟩
  · refine ⟨quantizeBlock_ok_noNan h, ?_⟩
    simp only [quantizeBlock, andThen_eq_ok, quantizeA_eq_ok, quantizeBcd_eq_ok, indexOfChroma_eq_ok] at h
    obtain ⟨_, ⟨_, rfl⟩, _, ⟨_, rfl⟩, _, ⟨_, rfl⟩, _, ⟨_, rfl⟩, _, ⟨_, rfl⟩, _, ⟨_, rfl⟩, h⟩ := h
    exact (Except.ok.inj h).symm
  · rintro ⟨hnan, rfl⟩
    obtain ⟨ha, hb, hc, hd, hpb, hpr⟩ := not_nan_mem_quantInputs.mp hnan
    rw [quantizeBlock, quantizeA_eq_ok.mpr ⟨ha, rfl⟩, quantizeBcd_eq_ok.mpr ⟨hb, rfl⟩, quantizeBcd_eq_ok.mpr ⟨hc, rfl⟩,
      quantizeBcd_eq_ok.mpr ⟨hd, rfl⟩, indexOfChroma_eq_ok.mpr ⟨hpb, rfl⟩, indexOfChroma_eq_ok.mpr ⟨hpr, rfl⟩]
    rfl

/-- A value clamped to a symmetric range is a number of it. -/
theorem symmetricClamp_within {x : Binary64} {M : Nat} (h : x ≠ .nan) :
    FiniteWithin (if x.lt (Binary64.num false M).neg then (Binary64.num false M).neg
      else if (Binary64.num false M).lt x then .num false M else x) M := by
  split
  · exact ⟨true, M, rfl, le_rfl⟩
  · split
    · exact ⟨false, M, rfl, le_rfl⟩
    · rename_i hlo hhi
      cases x with
      | nan => exact absurd rfl h
      | inf neg => cases neg <;> simp [Binary64.lt, Binary64.neg] at hlo hhi
      | num neg mag =>
        refine ⟨neg, mag, rfl, ?_⟩
        cases neg <;> simp [Binary64.lt, Binary64.neg, signedUnits] at hlo hhi <;> omega

/-- R171: the clamp to 0.3 keeps a code within 15 of 0. -/
theorem bcdCode_natAbs_le {x : Binary64} (h : x ≠ .nan) : (bcdCode x).natAbs ≤ 15 := by
  obtain ⟨M, hM, hbound⟩ : ∃ M, fPoint3 = .num false M ∧ M * 50 ≤ 15 * oneUnits := ⟨_, rfl, by decide +kernel⟩
  have hfifty : Binary64.ofInt 50 = .num false (50 * oneUnits) := ofInt_natCast (n := 50) (by norm_num)
  have hclamp := symmetricClamp_within (M := M) h
  rw [← hM] at hclamp
  obtain ⟨neg, mag, hround, hmag⟩ := fmul_within hclamp ⟨false, 50 * oneUnits, hfifty, le_rfl⟩
    (representable_oneUnits_mul (n := 15) (by norm_num))
    (by rw [← Nat.mul_assoc]; exact Nat.mul_le_mul_right _ hbound) (oneUnits_mul_lt (by norm_num))
  rw [bcdCode, hround]
  exact roundHaz_natAbs_le hmag

theorem nearestEntry_le (lut : Fin 16 → Word) (x : Int) : nearestEntry lut x ≤ 15 := by
  unfold nearestEntry
  split
  · omega
  · omega

theorem indexOfNonNan_le (lut : Fin 16 → Word) (x : Binary64) : indexOfNonNan lut x ≤ 15 := by
  unfold indexOfNonNan
  split
  · omega
  · split
    · omega
    · split
      · exact nearestEntry_le ..
      · omega

theorem toNat_asU64 {n : Int} {b : Nat} (h0 : 0 ≤ n) (hn : n ≤ b) (hb : b < 2 ^ 64) : (asU64 n).toNat ≤ b := by
  rw [asU64, BitVec.toNat_ofInt]
  omega

theorem toInt_asU64_bcdCode {x : Binary64} (h : x ≠ .nan) : (asU64 (bcdCode x)).toInt = bcdCode x := by
  have hcode := bcdCode_natAbs_le h
  exact toInt_asU64 (by omega) (by omega)

/-- R182: the codes QUANT leaves fit their fields. -/
theorem fieldsFit_quantizedBlock (lut : Fin 16 → Word) {co : Coefficients} (h : .nan ∉ quantInputs co) :
    FieldsFit (quantizedBlock lut co) := by
  obtain ⟨ha, hb, hc, hd, -, -⟩ := not_nan_mem_quantInputs.mp h
  have hbcd {x : Binary64} (hx : x ≠ .nan) : InSignedRange (asU64 (bcdCode x)).toInt 5 := by
    have hcode := bcdCode_natAbs_le hx
    rw [toInt_asU64_bcdCode hx]
    refine ⟨by decide, ?_, ?_⟩ <;> norm_num <;> omega
  have hchroma (x : Binary64) : (asU64 (indexOfNonNan lut x)).toNat < 16 :=
    Nat.lt_succ_of_le (toNat_asU64 (Int.natCast_nonneg _) (by exact_mod_cast indexOfNonNan_le lut x) (by norm_num))
  obtain ⟨hlo, hhi⟩ := unitCode_bounds (d := 511) ha (by norm_num)
  exact ⟨Nat.lt_succ_of_le (toNat_asU64 hlo hhi (by norm_num)), hbcd hb, hbcd hc, hbcd hd, hchroma _, hchroma _⟩

theorem completes_quant : Completes (fun g => .nan ∉ quantInputs g.co) .quant (fun g => FieldsFit g.q) := by
  refine completes_of_next fun s hnan => ⟨_, s.nanCount, ?_,
    onlyDestination_q _ (fun _ => rfl) _ (quantizedBlock chromaLut s.regs.co), fieldsFit_quantizedBlock chromaLut hnan⟩
  rw [exec, execQuant, quantizeBlock_eq_ok.mpr ⟨hnan, rfl⟩]
  rfl

theorem completes_pack : Completes (fun g => FieldsFit g.q) .pack (fun _ => True) := by
  refine completes_of_next fun s hfit => ⟨_, s.nanCount, ?_,
    onlyDestination_cw _ rfl _ (packFields s.regs.q), trivial⟩
  rw [exec, execPack, (fieldCheck_eq_ok _ ()).mpr hfit]
  rfl

/-- Settles O59: each command of the pipeline completes in what the one before leaves, and none of them writes PIX or
DEN. -/
theorem validBlockCompresses : Obligations.ValidBlockCompresses := by
  intro s hf hvalid
  have hruns : RunsThrough ValidPixels [.rgb2cv, .fwdxf, .quant, .pack] (fun _ => True) :=
    .cons rfl completes_rgb2cv (.cons rfl completes_fwdxf (.cons rfl completes_quant (.cons rfl completes_pack
      (runsThrough_nil _))))
  obtain ⟨t, hrun, htf, hpending, -, hread⟩ := hruns s hf hvalid
  exact ⟨t, hrun, htf, hpending, pix_eq_of_read fun k => hread (.pix k) (by simp [writesReg]),
    den_eq_of_read (hread .den (by simp [writesReg]))⟩

/-! ### Decompression: UNPACK and DEQUANT (R192, R173 to R175) -/

/-- A signed field's value is in its field's range. -/
theorem signedValue_inSignedRange (u : Nat) {width : Nat} (h : 1 ≤ width) :
    InSignedRange (signedValue u width) width := by
  have hmod : u % 2 ^ width < 2 ^ width := Nat.mod_lt _ (by positivity)
  have hhalf : 2 ^ width = 2 * 2 ^ (width - 1) := by rw [← pow_succ', Nat.sub_add_cancel h]
  have hcast : ((2 : Int) ^ (width - 1)) = ((2 ^ (width - 1) : Nat) : Int) := by push_cast; rfl
  have hcast' : ((2 : Int) ^ width) = ((2 ^ width : Nat) : Int) := by push_cast; rfl
  rw [InSignedRange, signedValue, if_neg (by omega), hcast, hcast']
  generalize u % 2 ^ width = x at *
  generalize 2 ^ (width - 1) = y at *
  split <;> omega

/-- Every codeword's fields fit. -/
theorem fieldsFit_unpackFields (cw : Word32) : FieldsFit (unpackFields cw) := by
  have hunsigned (width lsb : Nat) : (extractField (cw.setWidth 64) width lsb).toNat < 2 ^ width := by
    rw [extractField_toNat]
    exact Nat.mod_lt _ (by positivity)
  have hsigned (lsb : Nat) : InSignedRange (asU64 (extractSigned (cw.setWidth 64) 5 lsb)).toInt 5 := by
    rw [toInt_asU64_extractSigned _ (by norm_num)]
    exact signedValue_inSignedRange _ (by norm_num)
  exact ⟨hunsigned 9 23, hsigned 18, hsigned 13, hsigned 8, hunsigned 4 4, hunsigned 4 0⟩

theorem completes_unpack : Completes (fun _ => True) .unpack (fun g => FieldsFit g.q) :=
  completes_of_next fun s _ =>
    ⟨_, _, rfl, onlyDestination_q _ (fun _ => rfl) .., fieldsFit_unpackFields s.regs.cw⟩

/-- R8: the platform's table meets the requirement, whichever it is. -/
theorem tableOk_chromaLut : tableOk chromaLut = true := by
  unfold chromaLut
  split
  · assumption
  · decide +kernel

theorem chromaLut_finite (i : Fin 16) : (Binary64.ofBits (chromaLut i)).Finite := by
  have hok := tableOk_chromaLut
  simp only [tableOk, Bool.and_eq_true, decide_eq_true_eq] at hok
  have hi := hok.1 i
  unfold isFiniteWord at hi
  split at hi
  · rename_i h
    rw [h]
    trivial
  · cases hi

/-- A quotient of integers of magnitude at most 1 is a number of at most 1. -/
theorem fdiv_ofInt_within {n : Int} {d : Nat} (hd0 : d ≠ 0) (hd : d < 2 ^ 53) (h : n.natAbs ≤ d) :
    FiniteWithin (fdiv (.ofInt n) (.ofInt d)) (1 * oneUnits) := by
  rw [ofInt_exact (n := n) (by omega), ofInt_natCast hd]
  refine fdiv_within ⟨_, _, rfl, le_rfl⟩ (Nat.mul_ne_zero hd0 oneUnits_pos.ne')
    (representable_oneUnits_mul (by norm_num)) ?_ (oneUnits_mul_lt (by norm_num))
  calc n.natAbs * oneUnits * oneUnits ≤ d * oneUnits * oneUnits :=
        Nat.mul_le_mul_right _ (Nat.mul_le_mul_right _ h)
    _ = 1 * oneUnits * (d * oneUnits) := by ring

/-- The luma coefficients are numbers of at most 1, and the chroma is finite. -/
def CoefficientsWithinOne (co : Coefficients) : Prop :=
  (FiniteWithin (.ofBits co.a) (1 * oneUnits) ∧ FiniteWithin (.ofBits co.b) (1 * oneUnits) ∧
    FiniteWithin (.ofBits co.c) (1 * oneUnits) ∧ FiniteWithin (.ofBits co.d) (1 * oneUnits)) ∧
  (Binary64.ofBits co.pb).Finite ∧ (Binary64.ofBits co.pr).Finite

theorem coefficientsWithinOne_dequantizeBlock (s : State) {q : Quantized} (h : FieldsFit q) :
    CoefficientsWithinOne (s.dequantizeBlock chromaLut q) := by
  obtain ⟨ha, hb, hc, hd, -, -⟩ := h
  have hstored (slot : Nat) {n : Int} {d : Nat} (hd0 : d ≠ 0) (hd : d < 2 ^ 53) (hn : n.natAbs ≤ d) :
      FiniteWithin (.ofBits (s.encodeFloat slot (fdiv (.ofInt n) (.ofInt d)))) (1 * oneUnits) := by
    rw [ofBits_encodeFloat s slot (fdiv_proper _ _)]
    exact fdiv_ofInt_within hd0 hd hn
  have hbcd (slot : Nat) {v : Word} (hv : InSignedRange v.toInt 5) :
      FiniteWithin (.ofBits (s.encodeFloat slot (dequantizeBcd (asI64 v)))) (1 * oneUnits) := by
    obtain ⟨-, hlo, hhi⟩ := hv
    norm_num at hlo hhi
    exact hstored slot (d := 50) (by norm_num) (by norm_num) (by rw [asI64]; omega)
  exact ⟨⟨hstored 0 (d := 511) (by norm_num) (by norm_num) (by omega), hbcd 1 hb, hbcd 2 hc, hbcd 3 hd⟩,
    chromaLut_finite _, chromaLut_finite _⟩

theorem completes_dequant : Completes (fun g => FieldsFit g.q) .dequant (fun g => CoefficientsWithinOne g.co) := by
  refine completes_of_next fun s hfit => ⟨_, s.nanCount, ?_,
    onlyDestination_co _ (fun _ => rfl) _ (s.dequantizeBlock chromaLut s.regs.q),
    coefficientsWithinOne_dequantizeBlock s hfit⟩
  rw [exec, execDequant, (fieldCheck_eq_ok _ ()).mpr hfit]
  rfl

/-! ### Decompression: INVXF and CV2RGB (R153, R134) -/

/-- Every CV register holds a number. -/
def VideoFinite (g : Regs) : Prop :=
  ∀ (k : Lane) (m : Component), (Binary64.ofBits ((g.cv.get k).get m)).Finite

/-- R153 on numbers of at most 1: every sum is a number. -/
theorem inverseLumaWith_finite {x : Luma Binary64} (ha : FiniteWithin x.a (1 * oneUnits))
    (hb : FiniteWithin x.b (1 * oneUnits)) (hc : FiniteWithin x.c (1 * oneUnits))
    (hd : FiniteWithin x.d (1 * oneUnits)) :
    ∀ k : Lane, ((inverseLumaWith fadd fsub x).get k).Finite := by
  have add {y z : Binary64} {a : Nat} (hy : FiniteWithin y (a * oneUnits)) (hz : FiniteWithin z (1 * oneUnits))
      (ha : a ≤ 3) : FiniteWithin (fadd y z) ((a + 1) * oneUnits) := fadd_within_units hy hz (by omega)
  have sub {y z : Binary64} {a : Nat} (hy : FiniteWithin y (a * oneUnits)) (hz : FiniteWithin z (1 * oneUnits))
      (ha : a ≤ 3) : FiniteWithin (fsub y z) ((a + 1) * oneUnits) := fsub_within_units hy hz (by omega)
  have h1 : 1 ≤ 3 := by decide
  have h2 : 1 + 1 ≤ 3 := by decide
  have h3 : 1 + 1 + 1 ≤ 3 := by decide
  refine forall_lane.mpr ⟨?_, ?_, ?_, ?_⟩
  · exact (add (sub (sub ha hb h1) hc h2) hd h3).finite
  · exact (sub (sub (add ha hb h1) hc h2) hd h3).finite
  · exact (sub (add (sub ha hb h1) hc h2) hd h3).finite
  · exact (add (add (add ha hb h1) hc h2) hd h3).finite

theorem Binary64.Finite.ne_nan {x : Binary64} (h : x.Finite) : x ≠ .nan := by
  rintro rfl
  exact h

theorem clampLo0Value_finite {x : Binary64} (h : x.Finite) : (clampLo0Value x).Finite := by
  unfold clampLo0Value
  split
  · trivial
  · exact h

theorem completes_invxf : Completes (fun g => CoefficientsWithinOne g.co) .invxf VideoFinite := by
  refine completes_of_next fun s ⟨⟨ha, hb, hc, hd⟩, hpb, hpr⟩ => ?_
  have hsum := inverseLumaWith_finite (x := coLuma s.regs) ha hb hc hd
  obtain ⟨y, hy⟩ := inverseLuma_of_noNan (g := s.regs) fun hnan => by
    obtain ⟨k, hk⟩ := mem_linearLuma.mp hnan
    exact (hsum k).ne_nan hk.symm
  have hexec : exec .invxf s = .next { s with
      regs := { s.regs with cv := y.map fun yk => ⟨s.encodeFloat 0 yk, s.regs.co.pb, s.regs.co.pr⟩ } } := by
    rw [exec, execInvxf, hy]
    rfl
  refine ⟨_, _, hexec, onlyDestination_cv _ (fun _ _ => rfl) .., fun k m => ?_⟩
  rw [Quad.get_map]
  cases m with
  | y =>
    change (Binary64.ofBits (s.encodeFloat 0 (y.get k))).Finite
    rw [ofBits_encodeFloat s 0 (inverseLuma_proper hy k), (inverseLuma_eq_ok.mp hy k).2]
    exact clampLo0Value_finite (hsum k)
  | pb => exact hpb
  | pr => exact hpr

/-- The constants of R134 are numbers of at most 2, and the one of the last difference is at most 1. -/
theorem linearConstants_within :
    FiniteWithin c1_402 (2 * oneUnits) ∧ FiniteWithin c0_344136 (2 * oneUnits) ∧ FiniteWithin c1_772 (2 * oneUnits) ∧
      FiniteWithin c0_714136 oneUnits := by
  refine ⟨⟨_, _, rfl, ?_⟩, ⟨_, _, rfl, ?_⟩, ⟨_, _, rfl, ?_⟩, ⟨_, _, rfl, ?_⟩⟩ <;> decide +kernel

/-- R134 on finite video: a product may overflow, but no infinities meet. -/
theorem linearRgb_of_finite {v : ComponentVideo} (h : ∀ m, (Binary64.ofBits (v.get m)).Finite) :
    .nan ∉ linearRgb v := by
  have hy : (Binary64.ofBits v.y).Finite := h .y
  have hpb : (Binary64.ofBits v.pb).Finite := h .pb
  have hpr : (Binary64.ofBits v.pr).Finite := h .pr
  obtain ⟨c1, c2, c3, c4⟩ := linearConstants_within
  have hadd {p : Binary64} (hp : p ≠ .nan) : fadd (.ofBits v.y) p ≠ .nan := fadd_comm _ p ▸ fadd_ne_nan hp hy
  refine not_nan_mem_linearRgb.mpr ⟨?_, ?_, ?_⟩
  · exact hadd (fmul_ne_nan c1.finite hpr)
  · exact fsub_ne_nan (fsub_ne_nan_of_finite hy (fmul_ne_nan c2.finite hpb)) (fmul_finite c4 (ofBits_proper _) hpr)
  · exact hadd (fmul_ne_nan c3.finite hpb)

theorem completes_cv2rgb : Completes (fun g => g.den ≠ 0 ∧ VideoFinite g) .cv2rgb ValidPixels := by
  rintro s hf ⟨hden, hvideo⟩
  obtain ⟨pix, hexec, hpix⟩ := videoToRgbResult s hden fun k => linearRgb_of_finite (hvideo k)
  exact ⟨_, hexec, hf, hden, fun k => (hpix k).2⟩

/-- Settles O60: each command of the pipeline completes in what the one before leaves, and none of them writes CW. -/
theorem everyCodewordDecompresses : Obligations.EveryCodewordDecompresses := by
  intro s hf hden
  have hruns : RunsThrough (fun g => g.den ≠ 0 ∧ True) [.unpack, .dequant, .invxf, .cv2rgb] ValidPixels :=
    .cons rfl (completes_unpack.keepsDen rfl) (.cons rfl (completes_dequant.keepsDen rfl)
      (.cons rfl (completes_invxf.keepsDen rfl) (.cons rfl completes_cv2rgb (runsThrough_nil _))))
  obtain ⟨t, hrun, htf, hpending, hvalid, hread⟩ := hruns s hf ⟨hden, trivial⟩
  exact ⟨t, hrun, htf, hpending, cw_eq_of_read (hread .cw (by simp [writesReg])), hvalid⟩

end Sys2Proof.Machine

/-! PROOFS. The statements of 42_block_transform.md on the results of FWDXF and on the exact inversion over the reals;
INVXF stands with the NaN faults above. -/

namespace Sys2Proof.Machine

/-! ## FWDXF (R150 to R152) -/

/-- A stored coefficient or mean reads back as it was computed, a NaN as some NaN. -/
theorem ofBits_encodeFloat_fquarter (s : State) (slot : Nat) (x : Binary64) :
    Binary64.ofBits (s.encodeFloat slot (fquarter x)) = fquarter x :=
  ofBits_encodeFloat s slot (fdiv_proper _ _)

/-- Settles O45: each result is the quarter of its sum, which its register holds (`ofBits_encodeFloat_fquarter`). -/
theorem forwardTransformResult : Obligations.ForwardTransformResult := by
  intro s
  refine ⟨_, _, rfl, ?a, ?b, ?c, ?d, ?pb, ?pr⟩
  case a => exact ofBits_encodeFloat_fquarter s 0 _
  case b => exact ofBits_encodeFloat_fquarter s 1 _
  case c => exact ofBits_encodeFloat_fquarter s 2 _
  case d => exact ofBits_encodeFloat_fquarter s 3 _
  case pb => exact ofBits_encodeFloat_fquarter s 4 _
  case pr => exact ofBits_encodeFloat_fquarter s 5 _

/-! ## Exact inversion over the reals (R155) -/

/-- The sum of a lane holds four quarters of that lane's luma, and the quarters of the other three cancel. -/
theorem inverseLumaWith_forwardLumaWith (y : Quad ℝ) :
    inverseLumaWith (· + ·) (· - ·) (forwardLumaWith (· + ·) (· - ·) (· / 4) y) = y := by
  ext <;> simp only [inverseLumaWith, forwardLumaWith] <;> ring

/-- The clamp at 0 leaves lumas of at least 0 as they are. -/
theorem Quad.map_max_zero_of_nonneg {y : Quad ℝ} (h : ∀ k : Lane, 0 ≤ y.get k) : y.map (max 0) = y :=
  Quad.ext (max_eq_right (h 0)) (max_eq_right (h 1)) (max_eq_right (h 2)) (max_eq_right (h 3))

/-- Settles O47: the formulas invert (`inverseLumaWith_forwardLumaWith`), the clamp then keeps the lumas
(`Quad.map_max_zero_of_nonneg`), and the unit's formulas are these by definition. -/
theorem transformInvertsExactly : Obligations.TransformInvertsExactly := by
  refine ⟨fun y => ⟨inverseLumaWith_forwardLumaWith y, fun h => ?_⟩, fun _ => rfl, fun _ => rfl⟩
  rw [inverseLumaWith_forwardLumaWith, Quad.map_max_zero_of_nonneg h]

end Sys2Proof.Machine

/-! PROOFS. The statements of 43_quantizer.md: the results of QUANT and DEQUANT, the chroma index, the symmetry of R171, the
ranges of R182 and the re-quantization of R183. -/

namespace Sys2Proof.Machine

/-! ## What QUANT and DEQUANT leave (R180, R181) -/

theorem exec_quant {s : State} (h : .nan ∉ quantInputs s.regs.co) :
    exec .quant s = .next { s with regs := { s.regs with q := quantizedBlock chromaLut s.regs.co } } := by
  rw [exec, execQuant, quantizeBlock_eq_ok.mpr ⟨h, rfl⟩, andThen_ok, finish_ok]

/-- `exec_quant` after a command that wrote the CO registers. The coefficients are a variable here: comparing the two
states, the kernel would compute them. -/
theorem exec_quant_of_co {s : State} {co : Coefficients} (h : .nan ∉ quantInputs co) :
    exec .quant { s with regs := { s.regs with co := co } } =
      .next { s with regs := { s.regs with co := co, q := quantizedBlock chromaLut co } } :=
  exec_quant h

theorem exec_dequant {s : State} (h : FieldsFit s.regs.q) :
    exec .dequant s = .next { s with regs := { s.regs with co := s.dequantizeBlock chromaLut s.regs.q } } := by
  rw [exec, execDequant, (fieldCheck_eq_ok _ ()).mpr h, andThen_ok, finish_ok]

/-- QUANT leaves the normal state only with a block that has no NaN, its codes in the Q registers. -/
theorem quant_completed {s t : State} (ht : exec .quant s = .next t) (hf : t.regs.fault = false) :
    .nan ∉ quantInputs s.regs.co ∧ t.regs.q = quantizedBlock chromaLut s.regs.co := by
  by_cases hnan : .nan ∈ quantInputs s.regs.co
  · rw [exec, execQuant, quantizeBlock_of_nan hnan, andThen_error, finish_error] at ht
    obtain rfl := Host.Outcome.next.inj ht
    cases hf
  · obtain rfl := Host.Outcome.next.inj ((exec_quant hnan).symm.trans ht)
    exact ⟨hnan, rfl⟩

/-- The value R171 scales: the clamp to the binary64 numbers nearest to -0.3 and 0.3. -/
def bcdClamp (x : Binary64) : Binary64 :=
  if x.lt fPoint3.neg then fPoint3.neg else if fPoint3.lt x then fPoint3 else x

theorem bcdCode_eq (x : Binary64) : bcdCode x = roundHaz (fmul (bcdClamp x) (.ofInt 50)) := rfl

/-- R171: the limits of the clamp are the binary64 numbers nearest to their decimals. -/
theorem fPoint3_eq : fPoint3 = .ofDecimal false 3 1 ∧ fPoint3.neg = .ofDecimal true 3 1 := by decide +kernel

theorem toInt_asU64_unitCode {x : Binary64} (h : x ≠ .nan) : (asU64 (unitCode x 511)).toInt = unitCode x 511 := by
  obtain ⟨hlo, hhi⟩ := unitCode_bounds (d := 511) h (by norm_num)
  exact toInt_asU64 (by omega) (by omega)

theorem toNat_asU64_indexOfNonNan (lut : Fin 16 → Word) (x : Binary64) :
    (asU64 (indexOfNonNan lut x)).toNat = indexOfNonNan lut x := by
  have hle := indexOfNonNan_le lut x
  rw [asU64, BitVec.toNat_ofInt]
  omega

/-- Settles O48: QUANT leaves `quantizedBlock` (`exec_quant`), and its codes are small enough to be read back from 64
bits. -/
theorem quantizeResult : Obligations.QuantizeResult := by
  intro s hnan
  obtain ⟨ha, hb, hc, hd, hpb, hpr⟩ := not_nan_mem_quantInputs.mp hnan
  refine ⟨_, exec_quant hnan, toInt_asU64_unitCode ha, ?_⟩
  rw [← fPoint3_eq.1, ← fPoint3_eq.2]
  refine ⟨toInt_asU64_bcdCode hb, toInt_asU64_bcdCode hc, toInt_asU64_bcdCode hd, ?_, ?_⟩
  · exact indexOfChroma_eq_ok.mpr ⟨hpb, toNat_asU64_indexOfNonNan _ _⟩
  · exact indexOfChroma_eq_ok.mpr ⟨hpr, toNat_asU64_indexOfNonNan _ _⟩

/-- Settles O53: only a block without a NaN lets QUANT complete (`quant_completed`), the codes of every such block fit
(`fieldsFit_quantizedBlock`), and PACK and DEQUANT complete on fields that fit. -/
theorem quantizedFieldsFit : Obligations.QuantizedFieldsFit := by
  intro s t _ ht hf
  obtain ⟨hnan, hq⟩ := quant_completed ht hf
  obtain ⟨-, hb, hc, hd, -, -⟩ := not_nan_mem_quantInputs.mp hnan
  have hfit : FieldsFit t.regs.q := hq ▸ fieldsFit_quantizedBlock chromaLut hnan
  have hbcd {x : Binary64} (hx : x ≠ .nan) : -15 ≤ (asU64 (bcdCode x)).toInt ∧ (asU64 (bcdCode x)).toInt ≤ 15 := by
    have hcode := bcdCode_natAbs_le hx
    rw [toInt_asU64_bcdCode hx]
    omega
  obtain ⟨u, hpack, hu, -⟩ := completes_pack t hf hfit
  obtain ⟨v, hdequant, hv, -⟩ := completes_dequant t hf hfit
  obtain ⟨ha, -, -, -, hpb, hpr⟩ := hfit
  refine ⟨Nat.le_of_lt_succ ha, ?_, ?_, ?_, Nat.le_of_lt_succ hpb, Nat.le_of_lt_succ hpr, ⟨u, hpack, hu⟩,
    ⟨v, hdequant, hv⟩⟩ <;> rw [hq]
  · exact hbcd hb
  · exact hbcd hc
  · exact hbcd hd

/-- R175: the table's entry at the index a register holds. -/
theorem chromaOfIndex_of_toNat_eq (lut : Fin 16 → Word) {w : Word} {i : Fin 16} (h : w.toNat = i.val) :
    chromaOfIndex lut w = lut i := by
  rw [chromaOfIndex, h, Fin.ofNat_val_eq_self]

/-- Settles O51: DEQUANT leaves `dequantizeBlock` (`exec_dequant`), and each quotient reads back as it was computed. -/
theorem dequantizeResult : Obligations.DequantizeResult := by
  intro s hfit
  refine ⟨_, exec_dequant hfit, ?a, ?b, ?c, ?d, fun _ => chromaOfIndex_of_toNat_eq _,
    fun _ => chromaOfIndex_of_toNat_eq _⟩
  case a => exact ofBits_encodeFloat s 0 (fdiv_proper _ _)
  case b => exact ofBits_encodeFloat s 1 (fdiv_proper _ _)
  case c => exact ofBits_encodeFloat s 2 (fdiv_proper _ _)
  case d => exact ofBits_encodeFloat s 3 (fdiv_proper _ _)

/-! ## The chroma index (R172) -/

theorem Binary64.le_num (n n' : Bool) (m m' : Nat) :
    (Binary64.num n m).le (.num n' m') = decide (signedUnits n m ≤ signedUnits n' m') := by
  simp [Binary64.le, Binary64.isNaN, Binary64.lt, ← decide_not]

/-- R8: an entry is a number. -/
theorem exists_ofBits_entry {lut : Fin 16 → Word} (h : tableOk lut = true) (i : Fin 16) :
    ∃ n m, Binary64.ofBits (lut i) = .num n m ∧ entryUnits (lut i) = signedUnits n m := by
  simp only [tableOk, Bool.and_eq_true, decide_eq_true_eq] at h
  have hfinite := h.1 i
  unfold isFiniteWord at hfinite
  split at hfinite
  · rename_i n m hnum
    exact ⟨n, m, hnum, by rw [entryUnits, hnum]⟩
  · cases hfinite

/-- R8: the entries increase. -/
theorem entryUnits_strictMono {lut : Fin 16 → Word} (h : tableOk lut = true) :
    StrictMono fun i => entryUnits (lut i) := by
  simp only [tableOk, Bool.and_eq_true, decide_eq_true_eq] at h
  exact Fin.strictMono_iff_lt_succ.mpr h.2

/-- Entry `i` is the nearest to `x`, and the first of those as near (R172). -/
def LeastNearest (lut : Fin 16 → Word) (x : Int) (i : Fin 16) : Prop :=
  (∀ j, entryDistance lut x i ≤ entryDistance lut x j) ∧ ∀ j < i, entryDistance lut x i < entryDistance lut x j

theorem LeastNearest.unique {lut : Fin 16 → Word} {x : Int} {i j : Fin 16} (hi : LeastNearest lut x i)
    (hj : LeastNearest lut x j) : i = j :=
  le_antisymm (not_lt.mp fun h => (hi.2 j h).not_ge (hj.1 i)) (not_lt.mp fun h => (hj.2 i h).not_ge (hi.1 j))

/-- The search of R172's last line finds it. -/
theorem nearestEntry_leastNearest (lut : Fin 16 → Word) (x : Int) :
    ∃ i : Fin 16, nearestEntry lut x = i.val ∧ LeastNearest lut x i := by
  obtain ⟨k, hk⟩ := Finite.exists_min (entryDistance lut x)
  unfold nearestEntry
  split
  · rename_i i hfind
    obtain ⟨hnear, n, hn, hget, hfirst⟩ := List.find?_eq_some_iff_getElem.mp hfind
    refine ⟨i, rfl, of_decide_eq_true hnear, fun j hj => ?_⟩
    obtain rfl : n = i.val := by simpa [Fin.ext_iff] using hget
    have hnot := hfirst j.val hj
    simp only [List.getElem_finRange, Fin.cast_mk, Fin.eta, Bool.not_eq_true', decide_eq_false_iff_not, not_forall,
      not_le] at hnot
    obtain ⟨l, hl⟩ := hnot
    exact (of_decide_eq_true hnear l).trans_lt hl
  · rename_i hnone
    have hnot := List.find?_eq_none.mp hnone k (List.mem_finRange k)
    exact absurd (decide_eq_true hk) hnot

section

variable {lut : Fin 16 → Word} (h : tableOk lut = true)
include h

/-- At or below the first entry every later entry is further. -/
theorem leastNearest_first {x : Int} (hx : x ≤ entryUnits (lut 0)) : LeastNearest lut x 0 := by
  refine ⟨fun j => ?_, fun j hj => absurd hj (Fin.not_lt_zero j)⟩
  have hmono := (entryUnits_strictMono h).monotone (Fin.zero_le j)
  simp only [entryDistance] at hmono ⊢
  omega

/-- At or above the last entry every earlier entry is further. -/
theorem leastNearest_last {x : Int} (hx : entryUnits (lut 15) ≤ x) : LeastNearest lut x 15 := by
  refine ⟨fun j => ?_, fun j hj => ?_⟩
  · have hmono := (entryUnits_strictMono h).monotone (Fin.le_last j)
    simp only [entryDistance, Fin.reduceLast] at hmono ⊢
    omega
  · have hmono := entryUnits_strictMono h hj
    simp only [entryDistance] at hmono ⊢
    omega

/-- An entry is at distance 0 from itself only. -/
theorem leastNearest_entry (i : Fin 16) : LeastNearest lut (entryUnits (lut i)) i := by
  refine ⟨fun j => ?_, fun j hj => ?_⟩
  · simp [entryDistance]
  · have hmono := entryUnits_strictMono h hj
    simp only [entryDistance] at hmono ⊢
    omega

/-- R172 of a finite value: at both ends too, the index is the first nearest entry's. -/
theorem indexOfNonNan_leastNearest (neg : Bool) (mag : Nat) :
    ∃ i : Fin 16, indexOfNonNan lut (.num neg mag) = i.val ∧ LeastNearest lut (signedUnits neg mag) i := by
  obtain ⟨n0, m0, hfirst, he0⟩ := exists_ofBits_entry h 0
  obtain ⟨n15, m15, hlast, he15⟩ := exists_ofBits_entry h 15
  simp only [indexOfNonNan, hfirst, hlast, Binary64.le_num, decide_eq_true_eq, ← he0, ← he15]
  split
  · exact ⟨0, rfl, leastNearest_first h (by assumption)⟩
  · split
    · exact ⟨15, rfl, leastNearest_last h (by assumption)⟩
    · exact nearestEntry_leastNearest lut _

/-- R172 at the infinities: beyond one end or the other. -/
theorem indexOfNonNan_inf : indexOfNonNan lut (.inf true) = 0 ∧ indexOfNonNan lut (.inf false) = 15 := by
  obtain ⟨n0, m0, hfirst, -⟩ := exists_ofBits_entry h 0
  obtain ⟨n15, m15, hlast, -⟩ := exists_ofBits_entry h 15
  simp [indexOfNonNan, hfirst, hlast, Binary64.le, Binary64.isNaN, Binary64.lt]

/-- R175: the index of an entry is its own. -/
theorem indexOfNonNan_entry (i : Fin 16) : indexOfNonNan lut (.ofBits (lut i)) = i.val := by
  obtain ⟨n, m, hnum, hunits⟩ := exists_ofBits_entry h i
  obtain ⟨j, hj, hnear⟩ := indexOfNonNan_leastNearest h n m
  rw [hnum, hj, hnear.unique (hunits ▸ leastNearest_entry h i)]

end

/-- Settles O49: the index of a finite value is the first nearest entry's (`indexOfNonNan_leastNearest`), of which there is
one, and beyond the ends that is the end's. -/
theorem chromaIndexIsNearest : Obligations.ChromaIndexIsNearest := by
  refine ⟨tableOk_chromaLut, fun lut h => ⟨rfl, ?_, ?_, fun neg mag => ?_⟩⟩
  · exact indexOfChroma_eq_ok.mpr ⟨nofun, (indexOfNonNan_inf h).1.symm⟩
  · exact indexOfChroma_eq_ok.mpr ⟨nofun, (indexOfNonNan_inf h).2.symm⟩
  · obtain ⟨i, hi, hnear⟩ := indexOfNonNan_leastNearest h neg mag
    exact ⟨i, indexOfChroma_eq_ok.mpr ⟨nofun, hi.symm⟩, fun hx => hnear.unique (leastNearest_first h hx),
      fun hx => hnear.unique (leastNearest_last h hx), hnear.1, hnear.2⟩

/-! ## Symmetry in sign (R171) -/

@[simp] theorem Binary64.neg_neg (x : Binary64) : x.neg.neg = x := by cases x <;> simp [Binary64.neg]

theorem Binary64.neg_ne_nan {x : Binary64} (h : x ≠ .nan) : x.neg ≠ .nan := fun hn =>
  h (by rw [← x.neg_neg, hn]; rfl)

theorem Binary64.neg_lt_neg (x y : Binary64) : x.neg.lt y.neg = y.lt x := by
  cases x <;> cases y <;> simp [Binary64.neg, Binary64.lt, signedUnits_not, Bool.and_comm]

theorem roundQuot_not (neg : Bool) (p q : Nat) : roundQuot (!neg) p q = (roundQuot neg p q).neg := by
  unfold roundQuot
  dsimp only
  split <;> rfl

theorem fmul_neg_left (x y : Binary64) : fmul x.neg y = (fmul x y).neg := by
  cases x <;> cases y <;> simp only [fmul, Binary64.neg, Bool.not_xor, roundQuot_not] <;> split <;> rfl

theorem fdiv_neg_left (x y : Binary64) : fdiv x.neg y = (fdiv x y).neg := by
  cases x with
  | nan => rfl
  | inf n => cases y <;> simp [fdiv, Binary64.neg]
  | num n m =>
    cases y with
    | nan => rfl
    | inf n' => simp [fdiv, Binary64.neg]
    | num n' m' =>
      rw [Binary64.neg, fdiv, fdiv, Bool.not_xor, roundQuot_not]
      split
      · split <;> rfl
      · rfl

/-- R12 rounds halves away from zero, so a value and its negation alike. -/
theorem roundHaz_neg_value (x : Binary64) : roundHaz x.neg = -roundHaz x := by
  cases x with
  | num n m => exact roundHaz_neg n m
  | nan => rfl
  | inf _ => rfl

/-- A value is not beyond both of two opposite limits. -/
theorem not_lt_neg_and_lt {x : Binary64} {M : Nat} (hlo : x.lt (Binary64.num false M).neg = true) :
    ¬ (Binary64.num false M).lt x = true := by
  intro hhi
  cases x with
  | nan => cases hhi
  | inf neg => cases neg <;> simp [Binary64.lt, Binary64.neg] at hlo hhi
  | num neg mag =>
    simp only [Binary64.lt, Binary64.neg, signedUnits_not, decide_eq_true_eq] at hlo hhi
    simp only [signedUnits, Bool.false_eq_true, if_false] at hlo hhi
    omega

theorem exists_fPoint3_eq : ∃ M, fPoint3 = .num false M := ⟨_, rfl⟩

theorem bcdClamp_neg (x : Binary64) : bcdClamp x.neg = (bcdClamp x).neg := by
  obtain ⟨M, hM⟩ := exists_fPoint3_eq
  have hlimit : fPoint3.lt x.neg = x.lt fPoint3.neg := by
    rw [← Binary64.neg_lt_neg, Binary64.neg_neg]
  rw [bcdClamp, bcdClamp, Binary64.neg_lt_neg, hlimit]
  by_cases hlo : x.lt fPoint3.neg = true
  · have hhi : ¬ fPoint3.lt x = true := by
      rw [hM] at hlo ⊢
      exact not_lt_neg_and_lt hlo
    rw [if_neg hhi, if_pos hlo, if_pos hlo, Binary64.neg_neg]
  · rw [if_neg hlo, if_neg hlo]
    split <;> rfl

theorem bcdCode_neg (x : Binary64) : bcdCode x.neg = -bcdCode x := by
  rw [bcdCode_eq, bcdClamp_neg, fmul_neg_left, roundHaz_neg_value, bcdCode_eq]

/-- Settles O50: every step of R171 is symmetric in sign (`bcdCode_neg`), and the clamp bounds the code
(`bcdCode_natAbs_le`). -/
theorem quantizeBcdIsSymmetric : Obligations.QuantizeBcdIsSymmetric := by
  have hinf : quantizeBcd (.inf false) = .ok 15 ∧ quantizeBcd (.inf true) = .ok (-15) := by decide +kernel
  refine ⟨fun x n hx => ?_, hinf⟩
  obtain ⟨hnan, rfl⟩ := quantizeBcd_eq_ok.mp hx
  have hcode := bcdCode_natAbs_le hnan
  exact ⟨quantizeBcd_eq_ok.mpr ⟨Binary64.neg_ne_nan hnan, (bcdCode_neg x).symm⟩, by omega, by omega⟩

/-! ## Re-quantization (R183) -/

/-- A quotient of integers of magnitude at most 1 is near the ratio. -/
theorem fdiv_ofInt_near {q d : Nat} (hd0 : d ≠ 0) (hd : d < 2 ^ 16) (h : q ≤ d) :
    Near (fdiv (.ofInt q) (.ofInt d)) (q / d) (1 / 2 ^ 48) := by
  have hq : (BitVec.ofNat 16 q).toNat = q := Nat.mod_eq_of_lt (h.trans_lt hd)
  have hd' : (BitVec.ofNat 16 d).toNat = d := Nat.mod_eq_of_lt hd
  have hne : BitVec.ofNat 16 d ≠ 0 := fun h0 => hd0 (by rw [← hd', h0]; rfl)
  have hnear := channel_ratio_near (c := BitVec.ofNat 16 q) hne (by rw [hq, hd']; exact h)
  rwa [ofU16, ofU16, hq, hd'] at hnear

theorem unitCode_dequantizeA {q : Nat} (h : q < 512) : unitCode (dequantizeA q) 511 = q := by
  have hnear := fdiv_ofInt_near (d := 511) (by norm_num) (by norm_num) (Nat.le_of_lt_succ h)
  exact unitCode_of_near (by norm_num) (by norm_num) (Nat.le_of_lt_succ h) (hnear.mono (by norm_num [roundTripError]))

/-- The clamp to the rounded limits moves a number no further from a value of [-0.3, 0.3], up to the limits' rounding. -/
theorem bcdClamp_near {x : Binary64} {v : ℚ} (hx : Near x v (1 / 2 ^ 48)) (hv : |v| ≤ 3 / 10) :
    Near (bcdClamp x) v (1 / 2 ^ 48) := by
  have hlimit : Near fPoint3 (3 / 10) (1 / 2 ^ 48) := by
    rw [fPoint3_eq.1]
    exact (ofDecimal_near (by norm_num)).congr (by norm_num)
  obtain ⟨n, m, rfl, hx⟩ := hx
  obtain ⟨n', M, hM, hlimit⟩ := hlimit
  have hlt {a b : Int} (h : a < b) : (a : ℚ) / oneUnits < b / oneUnits :=
    div_lt_div_of_pos_right (by exact_mod_cast h) oneUnits_cast_pos
  rw [abs_le] at hx hlimit hv
  rw [bcdClamp, hM]
  simp only [Binary64.neg, Binary64.lt, signedUnits_not, decide_eq_true_eq]
  split
  · rename_i hlo
    have hbelow := hlt hlo
    refine ⟨!n', M, rfl, ?_⟩
    rw [signedUnits_not, abs_le]
    push_cast [neg_div] at hbelow ⊢
    constructor <;> linarith
  · split
    · rename_i hhi
      have habove := hlt hhi
      refine ⟨n', M, rfl, ?_⟩
      rw [abs_le]
      constructor <;> linarith
    · exact ⟨n, m, rfl, abs_le.mpr hx⟩

theorem bcdCode_dequantizeBcd_natCast {q : Nat} (h : q ≤ 15) : bcdCode (dequantizeBcd q) = q := by
  have hq : (q : ℚ) ≤ 15 := by exact_mod_cast h
  have hratio := fdiv_ofInt_near (q := q) (d := 50) (by norm_num) (by norm_num) (by omega)
  have hclamp := bcdClamp_near hratio (by rw [abs_of_nonneg (by positivity)]; push_cast; linarith)
  exact roundHaz_of_near (fmul_ofInt_near (d := 50) (by omega) (by norm_num) (by norm_num) hclamp (by norm_num))
    (by norm_num)

theorem ofInt_neg {n : Int} (h : n ≠ 0) : Binary64.ofInt (-n) = (Binary64.ofInt n).neg := by
  have hsign : decide (-n < 0) = !decide (n < 0) := by
    rw [← decide_not, decide_eq_decide]
    omega
  rw [Binary64.ofInt, hsign, Int.natAbs_neg, roundQuot_not, Binary64.ofInt]

/-- The codes of -15 to -1 mirror those of 1 to 15. -/
theorem bcdCode_dequantizeBcd {q : Int} (hlo : -15 ≤ q) (hhi : q ≤ 15) : bcdCode (dequantizeBcd q) = q := by
  obtain ⟨n, rfl | rfl⟩ := q.eq_nat_or_neg
  · exact bcdCode_dequantizeBcd_natCast (by omega)
  · by_cases h0 : (n : Int) = 0
    · rw [h0, neg_zero]
      exact bcdCode_dequantizeBcd_natCast (q := 0) (by norm_num)
    · have hneg : dequantizeBcd (-n) = (dequantizeBcd n).neg := by
        rw [dequantizeBcd, ofInt_neg h0, fdiv_neg_left, dequantizeBcd]
      rw [hneg, bcdCode_neg, bcdCode_dequantizeBcd_natCast (by omega)]

/-- R183: -16 is below the clamp. -/
theorem bcdCode_dequantizeBcd_lowest : bcdCode (dequantizeBcd (-16)) = -15 := by decide +kernel

theorem asU64_toNat (w : Word) : asU64 w.toNat = w := by
  rw [asU64, BitVec.ofInt_natCast, BitVec.ofNat_toNat, BitVec.setWidth_eq]

/-- A 5-bit field comes back from its dequantized value exactly when it is not -16. -/
theorem asU64_bcdCode_dequantizeBcd_eq_iff {v : Word} (h : InSignedRange v.toInt 5) :
    asU64 (bcdCode (dequantizeBcd (asI64 v))) = v ↔ -15 ≤ v.toInt := by
  obtain ⟨-, hlo, hhi⟩ := h
  norm_num at hlo hhi
  by_cases hv : -15 ≤ v.toInt
  · rw [asI64, bcdCode_dequantizeBcd hv hhi]
    exact iff_of_true (asU64_asI64 v) hv
  · have hlowest : v.toInt = -16 := by omega
    rw [asI64, hlowest, bcdCode_dequantizeBcd_lowest]
    refine iff_of_false (fun he => ?_) (by norm_num)
    rw [← he] at hlowest
    exact absurd hlowest (by decide)

/-- R183 on a block: the codes of what DEQUANT stored are the fields, but for a b, c or d of -16. -/
theorem quantizedBlock_dequantizeBlock_eq_iff (s : State) {q : Quantized} (h : FieldsFit q) :
    quantizedBlock chromaLut (s.dequantizeBlock chromaLut q) = q ↔
      -15 ≤ q.b.toInt ∧ -15 ≤ q.c.toInt ∧ -15 ≤ q.d.toInt := by
  obtain ⟨ha, hb, hc, hd, hpb, hpr⟩ := h
  have hread (slot : Nat) (n d : Int) : Binary64.ofBits (s.encodeFloat slot (fdiv (.ofInt n) (.ofInt d))) =
      fdiv (.ofInt n) (.ofInt d) := ofBits_encodeFloat s slot (fdiv_proper _ _)
  have hunit : asU64 (unitCode (.ofBits (s.encodeFloat 0 (dequantizeA q.a.toNat))) 511) = q.a := by
    rw [dequantizeA, hread, ← dequantizeA, unitCode_dequantizeA ha, asU64_toNat]
  have hbcd (slot : Nat) {v : Word} (hv : InSignedRange v.toInt 5) :
      asU64 (bcdCode (.ofBits (s.encodeFloat slot (dequantizeBcd (asI64 v))))) = v ↔ -15 ≤ v.toInt := by
    rw [dequantizeBcd, hread]
    exact asU64_bcdCode_dequantizeBcd_eq_iff hv
  have hchroma {w : Word} (hw : w.toNat < 16) :
      asU64 (indexOfNonNan chromaLut (.ofBits (chromaOfIndex chromaLut w))) = w := by
    rw [chromaOfIndex_of_toNat_eq (i := ⟨w.toNat, hw⟩) chromaLut rfl, indexOfNonNan_entry tableOk_chromaLut, asU64_toNat]
  simp only [Quantized.ext_iff, quantizedBlock, State.dequantizeBlock, hunit, hbcd _ hb, hbcd _ hc, hbcd _ hd,
    hchroma hpb, hchroma hpr, true_and, and_true]

/-- What DEQUANT stores is no NaN. -/
theorem noNan_dequantizeBlock (s : State) {q : Quantized} (h : FieldsFit q) :
    .nan ∉ quantInputs (s.dequantizeBlock chromaLut q) := by
  obtain ⟨⟨ha, hb, hc, hd⟩, hpb, hpr⟩ := coefficientsWithinOne_dequantizeBlock s h
  exact not_nan_mem_quantInputs.mpr ⟨ha.ne_nan, hb.ne_nan, hc.ne_nan, hd.ne_nan, hpb.ne_nan, hpr.ne_nan⟩

/-- Settles O52: the rounded quotient is so near the ratio that its code is the numerator (`unitCode_dequantizeA`,
`bcdCode_dequantizeBcd`), an entry is its own nearest (`indexOfNonNan_entry`), and a block gets the fields it was
dequantized from (`quantizedBlock_dequantizeBlock_eq_iff`). -/
theorem requantizationIsIdentity : Obligations.RequantizationIsIdentity := by
  refine ⟨fun q hq => ?_, fun q hlo hhi => ?_, ?_, fun i => ?_, fun s hfit => ?_⟩
  · have hne := (fdiv_ofInt_within (n := q) (d := 511) (by norm_num) (by norm_num) (by omega)).ne_nan
    exact quantizeA_eq_ok.mpr ⟨hne, (unitCode_dequantizeA hq).symm⟩
  · have hne := (fdiv_ofInt_within (n := q) (d := 50) (by norm_num) (by norm_num) (by omega)).ne_nan
    exact quantizeBcd_eq_ok.mpr ⟨hne, (bcdCode_dequantizeBcd hlo hhi).symm⟩
  · have hne := (fdiv_ofInt_within (n := -16) (d := 50) (by norm_num) (by norm_num) (by norm_num)).ne_nan
    exact quantizeBcd_eq_ok.mpr ⟨hne, bcdCode_dequantizeBcd_lowest.symm⟩
  · exact indexOfChroma_eq_ok.mpr ⟨(chromaLut_finite i).ne_nan, (indexOfNonNan_entry tableOk_chromaLut i).symm⟩
  · exact ⟨_, _, exec_dequant hfit, exec_quant_of_co (noNan_dequantizeBlock s hfit),
      quantizedBlock_dequantizeBlock_eq_iff s hfit⟩

end Sys2Proof.Machine

/-! PROOFS. The statements of 44_packer.md: the codeword of PACK, the fields of UNPACK, and the bijection. -/

namespace Sys2Proof.Machine

/-! ## PACK (R190, R191) -/

/-- R104 bit by bit, for a field within the word. -/
theorem insertField_getLsbD_of_le {n width lsb : Nat} (h : width + lsb ≤ n) (word : BitVec n) {value : BitVec n}
    (hv : value.toNat < 2 ^ width) (j : Nat) :
    (insertField word width lsb value).getLsbD j =
      if lsb ≤ j ∧ j < lsb + width then value.getLsbD (j - lsb) else word.getLsbD j := by
  rw [insertField_getLsbD word value lsb j hv]
  by_cases hj : j < n
  · rw [decide_eq_true hj, Bool.true_and]
  · rw [decide_eq_false hj, Bool.false_and, if_neg (by omega), BitVec.getLsbD_of_ge _ _ (by omega)]

/-- R104 on a word with nothing in the field or below it: the field becomes the last digit of what stands above it. -/
theorem toNat_insertField_append {n high width lsb : Nat} {word value : BitVec n} (h : width + lsb ≤ n)
    (hv : value.toNat < 2 ^ width) (hword : word.toNat = high * 2 ^ (width + lsb)) :
    (insertField word width lsb value).toNat = (high * 2 ^ width + value.toNat) * 2 ^ lsb := by
  apply Nat.eq_of_testBit_eq
  intro j
  rw [← BitVec.getLsbD, insertField_getLsbD_of_le h word hv, BitVec.getLsbD, BitVec.getLsbD, hword,
    Nat.testBit_mul_two_pow, Nat.testBit_mul_two_pow, Nat.mul_comm high, Nat.testBit_two_pow_mul_add _ hv]
  by_cases hbelow : j < lsb
  · have habove : ¬ width + lsb ≤ j := by omega
    simp [habove, Nat.not_le.mpr hbelow]
  · by_cases hfield : j < lsb + width
    · have hdigit : j - lsb < width := by omega
      simp [hfield, hdigit, Nat.le_of_not_lt hbelow]
    · have habove : width + lsb ≤ j := by omega
      have hdigit : ¬ j - lsb < width := by omega
      simp [hdigit, habove, Nat.le_of_not_lt hbelow, Nat.sub_sub, Nat.add_comm lsb]

theorem toNat_lowWord_of_lt {v : Word} {width : Nat} (hwidth : width ≤ 32) (hv : v.toNat < 2 ^ width) :
    (lowWord v).toNat = v.toNat := by
  rw [lowWord_eq_setWidth, BitVec.toNat_setWidth]
  exact Nat.mod_eq_of_lt (hv.trans_le (Nat.pow_le_pow_right (by norm_num) hwidth))

/-- `toNat_insertField_append` for the low word of a register. -/
theorem toNat_insertField_lowWord {high width lsb : Nat} {word : Word32} {v : Word} (h : width + lsb ≤ 32)
    (hv : v.toNat < 2 ^ width) (hword : word.toNat = high * 2 ^ (width + lsb)) :
    (insertField word width lsb (lowWord v)).toNat = (high * 2 ^ width + v.toNat) * 2 ^ lsb := by
  have hlow : (lowWord v).toNat = v.toNat := toNat_lowWord_of_lt (by omega) hv
  rw [toNat_insertField_append h (hlow ▸ hv) hword, hlow]

/-- R190: the inserts go from the highest field down, so each appends a digit (`toNat_insertField_lowWord`). -/
theorem toNat_packFields {q : Quantized} (h : FieldsFit q) :
    (packFields q).toNat = q.a.toNat * 2 ^ 23 + q.b.toNat % 32 * 2 ^ 18 + q.c.toNat % 32 * 2 ^ 13 +
      q.d.toNat % 32 * 2 ^ 8 + q.pb.toNat * 2 ^ 4 + q.pr.toNat := by
  obtain ⟨ha, -, -, -, hpb, hpr⟩ := h
  have hlow (v : Word) : (v &&& mask 64 5).toNat < 2 ^ 5 := by
    rw [toNat_and_mask]
    exact Nat.mod_lt _ (by norm_num)
  have hsum : (packFields q).toNat = _ :=
    toNat_insertField_lowWord (width := 4) (lsb := 0) (by norm_num) hpr <|
    toNat_insertField_lowWord (width := 4) (lsb := 4) (by norm_num) hpb <|
    toNat_insertField_lowWord (width := 5) (lsb := 8) (by norm_num) (hlow q.d) <|
    toNat_insertField_lowWord (width := 5) (lsb := 13) (by norm_num) (hlow q.c) <|
    toNat_insertField_lowWord (width := 5) (lsb := 18) (by norm_num) (hlow q.b) <|
    toNat_insertField_lowWord (width := 9) (lsb := 23) (by norm_num) ha (Nat.zero_mul _).symm
  rw [hsum, toNat_and_mask, toNat_and_mask, toNat_and_mask]
  omega

theorem exec_pack {s : State} (h : FieldsFit s.regs.q) :
    exec .pack s = .next { s with regs := { s.regs with cw := packFields s.regs.q } } := by
  rw [exec, execPack, (fieldCheck_eq_ok _ ()).mpr h, andThen_ok, finish_ok]

/-- Settles O54: the inserts write the fields' sum (`toNat_packFields`). -/
theorem packResult : Obligations.PackResult := fun _ hfit => ⟨_, exec_pack hfit, toNat_packFields hfit⟩

/-! ## UNPACK (R190, R192) -/

theorem exec_unpack (s : State) :
    exec .unpack s = .next { s with regs := { s.regs with q := unpackFields s.regs.cw } } := rfl

/-- R192 for the unsigned fields. -/
theorem toNat_extractField_codeword (cw : Word32) (width lsb : Nat) :
    (extractField (cw.setWidth 64) width lsb).toNat = cw.toNat / 2 ^ lsb % 2 ^ width := by
  rw [extractField_toNat, BitVec.toNat_setWidth_of_le (by norm_num)]

/-- R190: the field of `q_A` ends the codeword. -/
theorem toNat_unpackFields_a (cw : Word32) : (unpackFields cw).a.toNat = cw.toNat / 2 ^ 23 := by
  have hlt := cw.isLt
  rw [unpackFields, toNat_extractField_codeword]
  omega

/-- R192 for the signed fields. -/
theorem extractSigned_codeword (cw : Word32) (width lsb : Nat) :
    extractSigned (cw.setWidth 64) width lsb = signedValue (cw.toNat / 2 ^ lsb) width := by
  rw [extractSigned_eq, BitVec.toNat_setWidth_of_le (by norm_num)]

theorem toInt_extractSigned_codeword (cw : Word32) (lsb : Nat) :
    (asU64 (extractSigned (cw.setWidth 64) 5 lsb)).toInt = signedValue (cw.toNat / 2 ^ lsb) 5 := by
  rw [toInt_asU64_extractSigned _ (by norm_num), BitVec.toNat_setWidth_of_le (by norm_num)]

/-- Settles O55: UNPACK writes `unpackFields` (`exec_unpack`), whose fields are read as numbers above. -/
theorem unpackResult : Obligations.UnpackResult := fun s =>
  have signed := toInt_extractSigned_codeword s.regs.cw
  have unsigned := toNat_extractField_codeword s.regs.cw 4
  ⟨_, exec_unpack s, toNat_unpackFields_a s.regs.cw, signed 18, signed 13, signed 8, unsigned 4,
    (unsigned 0).trans (by norm_num)⟩

/-! ## The bijection (R193) -/

/-- The low bits of a signed field's value, stored in a register, are the field. -/
theorem toNat_asU64_signedValue_mod (u : Nat) {width : Nat} (h : width ≤ 64) :
    (asU64 (signedValue u width)).toNat % 2 ^ width = u % 2 ^ width := by
  have hdvd : ((2 ^ width : Nat) : Int) ∣ ((2 ^ 64 : Nat) : Int) := Int.natCast_dvd_natCast.mpr (pow_dvd_pow 2 h)
  rw [← Int.natCast_inj, Int.natCast_emod, Int.natCast_emod, asU64, BitVec.toNat_ofInt,
    Int.toNat_of_nonneg (Int.emod_nonneg _ (by norm_num)), Int.emod_emod_of_dvd _ hdvd, signedValue_eq_bmod,
    Int.bmod_emod]

/-- A signed field of a codeword that holds the low bits of `v` reads as `v`. -/
theorem asU64_extractSigned_codeword {cw : Word32} {lsb : Nat} {v : Word} (hv : InSignedRange v.toInt 5)
    (hfield : cw.toNat / 2 ^ lsb % 2 ^ 5 = v.toNat % 2 ^ 5) :
    asU64 (extractSigned (cw.setWidth 64) 5 lsb) = v := by
  rw [extractSigned_codeword, ← signedValue_mod, hfield, signedValue_mod,
    signedValue_of_inSignedRange (by norm_num) hv]
  exact asU64_asI64 v

/-- An unsigned field of a codeword that holds `v` reads as `v`. -/
theorem extractField_codeword {cw : Word32} {width lsb : Nat} {v : Word}
    (hfield : cw.toNat / 2 ^ lsb % 2 ^ width = v.toNat) : extractField (cw.setWidth 64) width lsb = v :=
  BitVec.eq_of_toNat_eq ((toNat_extractField_codeword ..).trans hfield)

/-- R193: the codeword of a block that fits holds every field of it. -/
theorem unpackFields_packFields {q : Quantized} (h : FieldsFit q) : unpackFields (packFields q) = q := by
  have hsum := toNat_packFields h
  obtain ⟨ha, hb, hc, hd, hpb, hpr⟩ := h
  ext1
  case a => exact extractField_codeword (by omega)
  case b => exact asU64_extractSigned_codeword hb (by omega)
  case c => exact asU64_extractSigned_codeword hc (by omega)
  case d => exact asU64_extractSigned_codeword hd (by omega)
  case pb => exact extractField_codeword (by omega)
  case pr => exact extractField_codeword (by omega)

/-- R193: the fields of a codeword add up to it. -/
theorem packFields_unpackFields (cw : Word32) : packFields (unpackFields cw) = cw := by
  have hsigned (lsb : Nat) :
      (asU64 (extractSigned (cw.setWidth 64) 5 lsb)).toNat % 2 ^ 5 = cw.toNat / 2 ^ lsb % 2 ^ 5 := by
    rw [extractSigned_codeword, toNat_asU64_signedValue_mod _ (by norm_num)]
  have hb : (unpackFields cw).b.toNat % 32 = cw.toNat / 2 ^ 18 % 32 := hsigned 18
  have hc : (unpackFields cw).c.toNat % 32 = cw.toNat / 2 ^ 13 % 32 := hsigned 13
  have hd : (unpackFields cw).d.toNat % 32 = cw.toNat / 2 ^ 8 % 32 := hsigned 8
  have hpb : (unpackFields cw).pb.toNat = cw.toNat / 2 ^ 4 % 16 := toNat_extractField_codeword cw 4 4
  have hpr : (unpackFields cw).pr.toNat = cw.toNat / 2 ^ 0 % 16 := toNat_extractField_codeword cw 4 0
  apply BitVec.eq_of_toNat_eq
  rw [toNat_packFields (fieldsFit_unpackFields cw), toNat_unpackFields_a, hb, hc, hd, hpb, hpr]
  omega

/-- Settles O56: each command undoes what the other wrote (`unpackFields_packFields`, `packFields_unpackFields`), and
the fields of every codeword fit (`fieldsFit_unpackFields`). -/
theorem packingIsBijective : Obligations.PackingIsBijective := by
  refine ⟨fun s hfit => ⟨_, exec_pack hfit, ?_⟩, fun s => ⟨_, exec_unpack s, ?_⟩⟩
  · rw [exec_unpack, unpackFields_packFields hfit]
  · rw [exec_pack (fieldsFit_unpackFields s.regs.cw), packFields_unpackFields]

end Sys2Proof.Machine

/-! PROOFS. The statements of 60_exceptions.md: what a command writes, and how the fault state is entered, kept and
left. -/

namespace Sys2Proof.Machine

/-! ## What a command writes (R213, R245) -/

/-- Everything a command can leave: a fault, or new contents of its destination registers. -/
theorem exec_next_cases {i : Instr} {s t : State} (ht : exec i s = .next t) :
    (∃ c, t = s.takeFault c (encode i)) ∨
    (∃ g n, OnlyDestination i s.regs g ∧ (i ≠ .fwdxf → n = s.nanCount) ∧ t = { s with regs := g, nanCount := n }) := by
  rcases exec_cases i s with ⟨c, _, he⟩ | ⟨g, hg, he | ⟨hi, he⟩⟩ <;> cases he.symm.trans ht
  · exact .inl ⟨c, rfl⟩
  · exact .inr ⟨g, _, hg, fun _ => rfl, rfl⟩
  · exact .inr ⟨g, _, hg, fun hne => absurd hi hne, rfl⟩

/-- R213: a fault writes STATUS and FAULT_CMD only. -/
theorem Regs.read_faultEntry (g : Regs) (c : Cause) (v : Word) {r : RegName} (hs : r ≠ .status) (hc : r ≠ .faultCmd) :
    (g.faultEntry c v).read r = g.read r := by
  cases r with
  | status => exact absurd rfl hs
  | faultCmd => exact absurd rfl hc
  | _ => rfl

/-- Settles O57: a fault writes its record only (`Regs.read_faultEntry`) and is no normal state; a command that
completes writes its destinations only, and the record is none of them (`OnlyDestination`). -/
theorem commandsWriteOnlyDestinations : Obligations.CommandsWriteOnlyDestinations := by
  intro i s t ht
  rcases exec_next_cases ht with ⟨c, rfl⟩ | ⟨g, n, hg, hn, rfl⟩
  · exact ⟨fun r _ hs hc => s.regs.read_faultEntry c _ hs hc, nofun, rfl, rfl, fun _ => rfl⟩
  · have hstatus := congrArg₂ statusWord hg.fault hg.cause
    exact ⟨fun r hr _ _ => hg.others r hr, fun _ _ => ⟨hstatus, hg.faultCmd⟩, rfl, rfl, hn⟩

/-! ## Entering the fault state (R210, R212) -/

section
variable {s t : State} (hf : s.regs.fault = false) (hft : t.regs.fault = true)
include hf hft

/-- A command that raises a fault does nothing else. -/
theorem exec_raises {i : Instr} (ht : exec i s = .next t) : ∃ c, t = s.takeFault c (encode i) := by
  rcases exec_next_cases ht with h | ⟨g, n, hg, _, rfl⟩
  · exact h
  · exact nomatch hft.symm.trans (hg.fault.trans hf)

/-- R212: the record of a CMD write holds the word written, whether it faults in decoding or in its command. -/
theorem writeCmd_raises {v : Word} (ht : writeCmd exec v s = .next t) : ∃ c, t = s.takeFault c v := by
  cases hd : decode v with
  | error e =>
    rw [writeCmd_illegal exec hf hd] at ht
    cases ht
    exact ⟨.illegalCmd, rfl⟩
  | ok i =>
    rw [writeCmd_ok exec hf hd] at ht
    obtain ⟨_, rfl⟩ := decode_eq_ok_iff.mp hd
    exact exec_raises hf hft ht

/-- R210: of all transactions, only a CMD write raises a fault. -/
theorem performTxn_raises {x : HostTxn} (ht : performTxn exec x s = .next t) :
    ∃ v c, x = .write 0x020 8 v ∧ t = (s.answer (.ofWrite .ok)).takeFault c v := by
  rcases performTxn_cases exec x s with ⟨_, he⟩ | ⟨_, _, he⟩ | ⟨r, v, he⟩ | ⟨v, hx, he⟩ <;> rw [he] at ht
  · cases ht
    exact nomatch hft.symm.trans hf
  · cases ht
    cases hft
  · cases ht
    exact nomatch hft.symm.trans ((s.regs.store_fault v r).trans hf)
  · obtain ⟨c, hc⟩ := writeCmd_raises (s := s.answer (.ofWrite .ok)) hf hft ht
    exact ⟨v, c, hx, hc⟩

end

/-- Settles O17: the fault is all that the write does beside its response (`writeCmd_raises`). -/
theorem faultsArePrecise : Obligations.FaultsArePrecise := by
  intro v s t hf ht hft
  rw [step_issuing, performTxn_writeCmd] at ht
  obtain ⟨c, rfl⟩ := writeCmd_raises (s := s.answer (.ofWrite .ok)) hf hft ht
  exact ⟨c, rfl⟩

/-- Everything a step can do: idle, or the host's next transaction. -/
theorem step_next_cases {s t : State} (ht : step s = .next t) :
    t = s ∨ ∃ x rest, s.pending = x :: rest ∧ performTxn exec x { s with pending := rest } = .next t := by
  cases hp : s.pending with
  | nil =>
    rw [step_idle hp] at ht
    cases ht
    exact .inl rfl
  | cons x rest => exact .inr ⟨x, rest, rfl, (step_txn hp).symm.trans ht⟩

/-- Settles O20: an idle step raises nothing, and of the transactions only a CMD write does, recording its word
(`performTxn_raises`). -/
theorem onlyCommandsRaiseFaults : Obligations.OnlyCommandsRaiseFaults := by
  intro s t hf ht hft
  rcases step_next_cases ht with rfl | ⟨x, rest, hp, hx⟩
  · exact nomatch hft.symm.trans hf
  · obtain ⟨v, c, rfl, rfl⟩ := performTxn_raises (s := { s with pending := rest }) hf hft hx
    exact ⟨v, rest, hp, rfl⟩

/-! ## In the fault state, and out of it (R214, R216) -/

/-- Settles O18: the CMD write is ignored (`writeCmd_faulted`); reads (`readsAs_offset`) and writes to RW registers
(`writeReadsBackMasked`) work in every state. -/
theorem faultStateIsSticky : Obligations.FaultStateIsSticky := by
  refine fun s hf => ⟨fun v => ?_, readsAs_offset s, fun r v hrw => ?_⟩
  · rw [step_issuing, performTxn_writeCmd]
    exact writeCmd_faulted exec v hf
  · obtain ⟨g, hstep, hread, _⟩ := writeReadsBackMasked.1 s r v hrw
    exact ⟨g, hstep, hread⟩

/-- The transactions that reset the unit: the hardware reset, and a CTRL write with SRESET, bit 0, set (R25, R240). -/
def IsReset (x : HostTxn) : Prop := x = .hardReset ∨ ∃ v : Word, x = .write 0x008 8 v ∧ v.toNat % 2 = 1

/-- R216: a transaction in the fault state is a reset, or it keeps the record. -/
theorem performTxn_faulted {x : HostTxn} {s t : State} (hf : s.regs.fault = true)
    (ht : performTxn exec x s = .next t) :
    (IsReset x ∧ t.regs = Regs.reset) ∨
    (t.regs.fault = true ∧ t.regs.cause = s.regs.cause ∧ t.regs.faultCmd = s.regs.faultCmd) := by
  rcases performTxn_cases exec x s with ⟨_, he⟩ | ⟨hx, _, he⟩ | ⟨r, v, he⟩ | ⟨v, _, he⟩ <;> rw [he] at ht
  · cases ht
    exact .inr ⟨hf, rfl, rfl⟩
  · cases ht
    refine .inl ⟨hx.imp_right fun ⟨v, hv, hbit⟩ => ⟨v, hv, ?_⟩, rfl⟩
    exact of_decide_eq_true ((Nat.testBit_zero v.toNat).symm.trans hbit)
  · cases ht
    exact .inr ⟨(Regs.store_fault ..).trans hf, Regs.store_cause .., Regs.store_faultCmd ..⟩
  · rw [writeCmd_faulted (s := s.answer (.ofWrite .ok)) exec v hf] at ht
    cases ht
    exact .inr ⟨hf, rfl, rfl⟩

/-- Settles O19: an idle step keeps the state, and a transaction resets the unit or keeps the record
(`performTxn_faulted`). -/
theorem onlyResetLeavesFaultState : Obligations.OnlyResetLeavesFaultState := by
  intro s t hf ht
  rcases step_next_cases ht with rfl | ⟨x, rest, hp, hx⟩
  · exact ⟨fun hft => (nomatch hft.symm.trans hf), fun _ => ⟨rfl, rfl⟩⟩
  rcases performTxn_faulted (s := { s with pending := rest }) hf hx with ⟨hreset, hregs⟩ | ⟨hft, hrecord⟩
  · rw [hregs]
    refine ⟨fun _ => ⟨rfl, ?_⟩, nofun⟩
    rcases hreset with rfl | ⟨v, rfl, hv⟩
    · exact .inl ⟨rest, hp⟩
    · exact .inr ⟨v, rest, hp, hv⟩
  · exact ⟨fun hnot => (nomatch hft.symm.trans hnot), fun _ => hrecord⟩

end Sys2Proof.Machine
